-- ==== Sys2Proof/Word.lean ====
section
/-! DEFINITION. The word types of the block: 32-bit operation words, binary32 patterns, u8 and u32
(00_scope R9, R10). -/

namespace Sys2Proof

/-- A word is 32 bits, bit 0 the least significant (R9). -/
abbrev Word := BitVec 32

/-- An IEEE 754 binary32 datum, held as the 32-bit pattern in which it travels (R9, R10). -/
abbrev F32 := BitVec 32

/-- An integer in [0, 255] (R10): an algorithm index or a `sel` field. -/
abbrev U8 := BitVec 8

end Sys2Proof
end

