-- ==== Sys2Proof/Syntax.lean ====
section
/-! DEFINITION. The operations of DISYN-OP version 1 as syntax: one constructor per row of the opcode
map (30_encoding R115), with the operands in the order the operation's rule lists them. -/

namespace Sys2Proof

/-- The two execution contexts, named by their port: A and C (00_scope R17, 60_exceptions R401, R406). -/
inductive Context where
  | audio
  | control
  deriving DecidableEq, Repr, Inhabited

/-- The snapshot the parameter channel carries, in its field order (10_state R60). -/
structure ParameterSnapshot where
  algorithm : U8
  attack : F32
  decay : F32
  reverbSize : F32
  reverbLevel : F32
  param1 : F32
  param2 : F32
  masterGain : F32
  cv0 : F32
  cv1 : F32
  cv2 : F32
  pot0 : F32
  pot1 : F32
  pot2 : F32
  deriving DecidableEq, Repr

/-- The snapshot the status channel carries (10_state R61). -/
structure StatusSnapshot where
  underruns : Word
  audioOk : Bool
  deriving DecidableEq, Repr

/-- The thirty-four operations (R115). A `sel`, `idx`, `var`, `k` or `g` argument is the header's 8-bit
immediate (R114); every other argument is one operand word (R112). -/
inductive Instr where
  | sinReset (sel : U8)
  | sinStep (sel : U8) (freq : F32)
  | oscReset
  | oscProc (idx : U8) (pitch p1 p2 p3 : F32)
  | fmReset
  | fmStep (var : U8) (pitch p1 p2 p3 : F32)
  | wfFold (amt x : F32)
  | bqReset
  | bqSetc (k : U8) (value : F32)
  | bqStep (x : F32)
  | envReset
  | envGate (g : U8)
  | envSeta (a : F32)
  | envSetr (r : F32)
  | envStep
  | vNoteon (freq velocity : F32)
  | vNoteoff
  | vProc
  | vIsplay
  | vSetalg (idx : U8)
  | vSetp1 (value : F32)
  | vSetp2 (value : F32)
  | vSetwf (value : F32)
  | vSetatk (value : F32)
  | vSetrel (value : F32)
  | vSetrvs (value : F32)
  | vSetrvl (value : F32)
  | vSetmg (value : F32)
  | vSetfreq (freq : F32)
  | chPwr (snap : ParameterSnapshot)
  | chPrd
  | chSwr (audioOk : U8) (underruns : Word)
  | chSrd
  | tick
  deriving DecidableEq, Repr

end Sys2Proof
end

