-- ==== Sys2Proof/WellFormed.lean ====
section
/-! DEFINITION. Which operations the encoding can spell: the range of the `sel` immediate of each
(30_encoding R115, R116 step 5). Operand words have no illegal value (R112). -/

namespace Sys2Proof

/-- The `sel` immediate is within the range the opcode map gives the operation (R115). -/
def Instr.wellFormed : Instr → Bool
  | .sinReset sel => decide (sel.toNat < 2)
  | .sinStep sel _ => decide (sel.toNat < 2)
  | .oscReset => true
  | .oscProc _ _ _ _ _ => true
  | .fmReset => true
  | .fmStep var _ _ _ _ => decide (var.toNat < 2)
  | .wfFold _ _ => true
  | .bqReset => true
  | .bqSetc k _ => decide (k.toNat < 5)
  | .bqStep _ => true
  | .envReset => true
  | .envGate g => decide (g.toNat < 2)
  | .envSeta _ => true
  | .envSetr _ => true
  | .envStep => true
  | .vNoteon _ _ => true
  | .vNoteoff => true
  | .vProc => true
  | .vIsplay => true
  | .vSetalg _ => true
  | .vSetp1 _ => true
  | .vSetp2 _ => true
  | .vSetwf _ => true
  | .vSetatk _ => true
  | .vSetrel _ => true
  | .vSetrvs _ => true
  | .vSetrvl _ => true
  | .vSetmg _ => true
  | .vSetfreq _ => true
  | .chPwr _ => true
  | .chPrd => true
  | .chSwr ok _ => decide (ok.toNat < 2)
  | .chSrd => true
  | .tick => true

end Sys2Proof
end

