-- ==== Sys2Proof/Decode.lean ====
section
/-! DEFINITION. The encoding of DISYN-OP version 1 (30_encoding): the header word, the opcode map, the
total decoder over the words presented on a port, the encoder, and the little-endian byte order of a
serialised stream (20_memory R88). -/

namespace Sys2Proof

/-! ## The header word (R111) -/

def headerOpcode (h : Word) : U8 := h.extractLsb' 24 8
def headerSel (h : Word) : U8 := h.extractLsb' 16 8
def headerZero (h : Word) : U8 := h.extractLsb' 8 8
def headerNops (h : Word) : Nat := (h.extractLsb' 0 8).toNat

/-- `opcode ++ sel ++ 0x00 ++ nops` (R111, R115). -/
def headerWord (opcode sel : U8) (nops : Nat) : Word := opcode ++ sel ++ 0#8 ++ BitVec.ofNat 8 nops

/-! ## The opcode map (R113, R115) -/

/-- The seven formats (R113). -/
inductive Format where
  | z
  | s
  | f1
  | f2
  | sf1
  | sf4
  | sf13
  deriving DecidableEq, Repr

/-- The number of operand words a format fixes (R113). -/
def Format.nops : Format → Nat
  | .z => 0
  | .s => 0
  | .f1 => 1
  | .f2 => 2
  | .sf1 => 1
  | .sf4 => 4
  | .sf13 => 13

/-- A row of the opcode map: the largest legal `sel` is 0 where the format says `sel` must be 0. -/
structure OpRow where
  opcode : U8
  format : Format
  selMax : Nat
  deriving DecidableEq, Repr

/-- The thirty-four rows of R115, in its order. -/
def opcodeTable : List OpRow :=
  [⟨0x10, .s, 1⟩, ⟨0x11, .sf1, 1⟩, ⟨0x18, .z, 0⟩, ⟨0x19, .sf4, 255⟩, ⟨0x20, .z, 0⟩, ⟨0x21, .sf4, 1⟩,
    ⟨0x30, .f2, 0⟩, ⟨0x40, .z, 0⟩, ⟨0x41, .sf1, 4⟩, ⟨0x42, .f1, 0⟩, ⟨0x50, .z, 0⟩, ⟨0x51, .s, 1⟩,
    ⟨0x52, .f1, 0⟩, ⟨0x53, .f1, 0⟩, ⟨0x54, .z, 0⟩] ++
  [⟨0x60, .f2, 0⟩, ⟨0x61, .z, 0⟩, ⟨0x62, .z, 0⟩, ⟨0x63, .z, 0⟩, ⟨0x64, .s, 255⟩, ⟨0x65, .f1, 0⟩,
    ⟨0x66, .f1, 0⟩, ⟨0x67, .f1, 0⟩, ⟨0x68, .f1, 0⟩, ⟨0x69, .f1, 0⟩, ⟨0x6A, .f1, 0⟩, ⟨0x6B, .f1, 0⟩,
    ⟨0x6C, .f1, 0⟩, ⟨0x6D, .f1, 0⟩] ++
  [⟨0x70, .sf13, 255⟩, ⟨0x71, .z, 0⟩, ⟨0x72, .sf1, 1⟩, ⟨0x73, .z, 0⟩, ⟨0x78, .z, 0⟩]

/-- The row an opcode selects, if it is assigned (R116 step 2). -/
def findRow (opcode : U8) : Option OpRow := opcodeTable.find? fun r => r.opcode == opcode

/-- The operation an assigned opcode spells, from `sel` and the operand words in order (R112, R115). -/
def buildOp (opcode sel : U8) (w : Nat → Word) : Option Instr :=
  match opcode.toNat with
  | 0x10 => some (.sinReset sel)
  | 0x11 => some (.sinStep sel (w 0))
  | 0x18 => some .oscReset
  | 0x19 => some (.oscProc sel (w 0) (w 1) (w 2) (w 3))
  | 0x20 => some .fmReset
  | 0x21 => some (.fmStep sel (w 0) (w 1) (w 2) (w 3))
  | 0x30 => some (.wfFold (w 0) (w 1))
  | 0x40 => some .bqReset
  | 0x41 => some (.bqSetc sel (w 0))
  | 0x42 => some (.bqStep (w 0))
  | 0x50 => some .envReset
  | 0x51 => some (.envGate sel)
  | 0x52 => some (.envSeta (w 0))
  | 0x53 => some (.envSetr (w 0))
  | 0x54 => some .envStep
  | 0x60 => some (.vNoteon (w 0) (w 1))
  | 0x61 => some .vNoteoff
  | 0x62 => some .vProc
  | 0x63 => some .vIsplay
  | 0x64 => some (.vSetalg sel)
  | 0x65 => some (.vSetp1 (w 0))
  | 0x66 => some (.vSetp2 (w 0))
  | 0x67 => some (.vSetwf (w 0))
  | 0x68 => some (.vSetatk (w 0))
  | 0x69 => some (.vSetrel (w 0))
  | 0x6A => some (.vSetrvs (w 0))
  | 0x6B => some (.vSetrvl (w 0))
  | 0x6C => some (.vSetmg (w 0))
  | 0x6D => some (.vSetfreq (w 0))
  | 0x70 => some (.chPwr ⟨sel, w 0, w 1, w 2, w 3, w 4, w 5, w 6, w 7, w 8, w 9, w 10, w 11, w 12⟩)
  | 0x71 => some .chPrd
  | 0x72 => some (.chSwr sel (w 0))
  | 0x73 => some .chSrd
  | 0x78 => some .tick
  | _ => none

/-! ## Decoding (R116, R120, R124) -/

/-- Why a header spells no operation: the test of R116 it fails first (R120, R397). -/
inductive IllegalReason where
  | unassignedOpcode
  | nonzeroReserved
  | wrongOperandCount
  | selOutOfRange
  deriving DecidableEq, Repr

/-- What the words on a port hold at their head. -/
inductive Decoded where
  /-- The stream ends before the head operation is whole (R124). -/
  | incomplete
  /-- The head spells no operation; `rest` follows it and its operand words (R120). -/
  | illegal (why : IllegalReason) (rest : List Word)
  /-- The head is this operation; `rest` follows its operand words. -/
  | op (i : Instr) (rest : List Word)
  deriving DecidableEq, Repr

/-- Steps 2 to 6 of R116 for a header and its operand words, `rest` following them. -/
def classify (h : Word) (operands rest : List Word) : Decoded :=
  match findRow (headerOpcode h) with
  | none => .illegal .unassignedOpcode rest
  | some r =>
    if headerZero h ≠ 0 then .illegal .nonzeroReserved rest
    else if headerNops h ≠ r.format.nops then .illegal .wrongOperandCount rest
    else if r.selMax < (headerSel h).toNat then .illegal .selOutOfRange rest
    else
      match buildOp (headerOpcode h) (headerSel h) (fun k => operands.getD k 0) with
      | some i => .op i rest
      | none => .illegal .unassignedOpcode rest

/-- The decoder, total on any words (R116): the header's own `nops` says how many words the head
takes, whether or not it spells an operation (R110). -/
def decodeOp (words : List Word) : Decoded :=
  match words with
  | [] => .incomplete
  | h :: tail =>
    if tail.length < headerNops h then .incomplete
    else classify h (tail.take (headerNops h)) (tail.drop (headerNops h))

/-! ## Encoding (R110 to R115) -/

/-- The opcode of an operation (R115). -/
def Instr.opcode : Instr → U8
  | .sinReset _ => 0x10
  | .sinStep _ _ => 0x11
  | .oscReset => 0x18
  | .oscProc _ _ _ _ _ => 0x19
  | .fmReset => 0x20
  | .fmStep _ _ _ _ _ => 0x21
  | .wfFold _ _ => 0x30
  | .bqReset => 0x40
  | .bqSetc _ _ => 0x41
  | .bqStep _ => 0x42
  | .envReset => 0x50
  | .envGate _ => 0x51
  | .envSeta _ => 0x52
  | .envSetr _ => 0x53
  | .envStep => 0x54
  | .vNoteon _ _ => 0x60
  | .vNoteoff => 0x61
  | .vProc => 0x62
  | .vIsplay => 0x63
  | .vSetalg _ => 0x64
  | .vSetp1 _ => 0x65
  | .vSetp2 _ => 0x66
  | .vSetwf _ => 0x67
  | .vSetatk _ => 0x68
  | .vSetrel _ => 0x69
  | .vSetrvs _ => 0x6A
  | .vSetrvl _ => 0x6B
  | .vSetmg _ => 0x6C
  | .vSetfreq _ => 0x6D
  | .chPwr _ => 0x70
  | .chPrd => 0x71
  | .chSwr _ _ => 0x72
  | .chSrd => 0x73
  | .tick => 0x78

/-- The `sel` field of an operation, zero where the format has none (R113). -/
def Instr.sel : Instr → U8
  | .sinReset sel => sel
  | .sinStep sel _ => sel
  | .oscReset => 0
  | .oscProc idx _ _ _ _ => idx
  | .fmReset => 0
  | .fmStep var _ _ _ _ => var
  | .wfFold _ _ => 0
  | .bqReset => 0
  | .bqSetc k _ => k
  | .bqStep _ => 0
  | .envReset => 0
  | .envGate g => g
  | .envSeta _ => 0
  | .envSetr _ => 0
  | .envStep => 0
  | .vNoteon _ _ => 0
  | .vNoteoff => 0
  | .vProc => 0
  | .vIsplay => 0
  | .vSetalg idx => idx
  | .vSetp1 _ => 0
  | .vSetp2 _ => 0
  | .vSetwf _ => 0
  | .vSetatk _ => 0
  | .vSetrel _ => 0
  | .vSetrvs _ => 0
  | .vSetrvl _ => 0
  | .vSetmg _ => 0
  | .vSetfreq _ => 0
  | .chPwr p => p.algorithm
  | .chPrd => 0
  | .chSwr ok _ => ok
  | .chSrd => 0
  | .tick => 0

/-- The operand words of an operation, in the order its rule lists them (R112, R115). -/
def Instr.operands : Instr → List Word
  | .sinReset _ => []
  | .sinStep _ freq => [freq]
  | .oscReset => []
  | .oscProc _ pitch p1 p2 p3 => [pitch, p1, p2, p3]
  | .fmReset => []
  | .fmStep _ pitch p1 p2 p3 => [pitch, p1, p2, p3]
  | .wfFold amt x => [amt, x]
  | .bqReset => []
  | .bqSetc _ value => [value]
  | .bqStep x => [x]
  | .envReset => []
  | .envGate _ => []
  | .envSeta a => [a]
  | .envSetr r => [r]
  | .envStep => []
  | .vNoteon freq velocity => [freq, velocity]
  | .vNoteoff => []
  | .vProc => []
  | .vIsplay => []
  | .vSetalg _ => []
  | .vSetp1 value => [value]
  | .vSetp2 value => [value]
  | .vSetwf value => [value]
  | .vSetatk value => [value]
  | .vSetrel value => [value]
  | .vSetrvs value => [value]
  | .vSetrvl value => [value]
  | .vSetmg value => [value]
  | .vSetfreq freq => [freq]
  | .chPwr p => [p.attack, p.decay, p.reverbSize, p.reverbLevel, p.param1, p.param2, p.masterGain,
      p.cv0, p.cv1, p.cv2, p.pot0, p.pot1, p.pot2]
  | .chPrd => []
  | .chSwr _ underruns => [underruns]
  | .chSrd => []
  | .tick => []

/-- The words of an operation (R110). -/
def encode (i : Instr) : List Word := headerWord i.opcode i.sel i.operands.length :: i.operands

/-- The context that may issue an operation (R115 column ctx, 60_exceptions R402). -/
def Instr.context : Instr → Context
  | .sinReset _ => .audio
  | .sinStep _ _ => .audio
  | .oscReset => .audio
  | .oscProc _ _ _ _ _ => .audio
  | .fmReset => .audio
  | .fmStep _ _ _ _ _ => .audio
  | .wfFold _ _ => .audio
  | .bqReset => .audio
  | .bqSetc _ _ => .audio
  | .bqStep _ => .audio
  | .envReset => .audio
  | .envGate _ => .audio
  | .envSeta _ => .audio
  | .envSetr _ => .audio
  | .envStep => .audio
  | .vNoteon _ _ => .audio
  | .vNoteoff => .audio
  | .vProc => .audio
  | .vIsplay => .audio
  | .vSetalg _ => .audio
  | .vSetp1 _ => .audio
  | .vSetp2 _ => .audio
  | .vSetwf _ => .audio
  | .vSetatk _ => .audio
  | .vSetrel _ => .audio
  | .vSetrvs _ => .audio
  | .vSetrvl _ => .audio
  | .vSetmg _ => .audio
  | .vSetfreq _ => .audio
  | .chPwr _ => .control
  | .chPrd => .audio
  | .chSwr _ _ => .audio
  | .chSrd => .control
  | .tick => .audio

/-! ## Serialised streams (20_memory R88, R89) -/

/-- A word as four bytes in increasing stream position, the least significant first (R88). -/
def wordBytes (w : Word) : List (BitVec 8) :=
  [w.extractLsb' 0 8, w.extractLsb' 8 8, w.extractLsb' 16 8, w.extractLsb' 24 8]

/-- The words of a byte stream; `none` where its length is not a multiple of four, a defect of the
transport outside the block (R89, R124). -/
def wordsOfBytes : List (BitVec 8) → Option (List Word)
  | [] => some []
  | b0 :: b1 :: b2 :: b3 :: rest => (wordsOfBytes rest).map fun ws => (b3 ++ b2 ++ b1 ++ b0) :: ws
  | _ => none

/-! ## The opcode table's numbering of bits -/

/-- The words of the instruction whose bits are `w` (bit 0 the least significant of the first word),
of which the table gives `nbits`: as many words as its own header takes, each serialised
least significant byte first and read back (log 18). -/
def tableWords (nbits w : Nat) : List Word :=
  let bits := w % 2 ^ nbits
  let bytes := (List.range (4 * (1 + bits % 256))).map fun k => BitVec.ofNat 8 (bits >>> (8 * k))
  (wordsOfBytes bytes).getD []

/-- The instruction the decoder reads from those words (log 18). -/
def decodeTableWord (nbits w : Nat) : Option Instr :=
  match decodeOp (tableWords nbits w) with
  | .op i _ => some i
  | .illegal _ _ => none
  | .incomplete => none

end Sys2Proof
end

