-- ==== Sys2Proof/Machine/Float.lean ====
section
/-! DEFINITION. Binary32 data: fields, comparisons, the sign operations, FLOOR; arithmetic rounded once,
whose default is the reference instance of R13; and the numerics configuration, whose four arithmetic
operations round each result once, open in how (00_scope R10, R12, R13; 47_laws_and_absent_families R361;
93_implementation_defined U5, U6, U7). -/

namespace Sys2Proof

/-! ## Constants the rules name -/

abbrev fZero : F32 := 0x00000000#32
abbrev fHalf : F32 := 0x3F000000#32
abbrev fOne : F32 := 0x3F800000#32
abbrev fTwo : F32 := 0x40000000#32
abbrev fFour : F32 := 0x40800000#32
abbrev fNegOne : F32 := 0xBF800000#32
abbrev fNegZero : F32 := 0x80000000#32

/-! ## Fields and classes (R9, R12) -/

/-- Bit 31. -/
def fsign (a : F32) : Bool := a.getLsbD 31

/-- Bits 30:23, the biased exponent. -/
def fexp (a : F32) : Nat := a.toNat / 2 ^ 23 % 2 ^ 8

/-- Bits 22:0, the fraction. -/
def ffrac (a : F32) : Nat := a.toNat % 2 ^ 23

/-- Bits 30:0 as a number: order of magnitude of non-NaN data. -/
def fmag (a : F32) : Nat := a.toNat % 2 ^ 31

def isNaN (a : F32) : Bool := decide (0x7F800000 < fmag a)

/-- A NaN with bit 22 set: the patterns arithmetic may return (47 R361). -/
def isQuietNaN (a : F32) : Bool := isNaN a && a.getLsbD 22

def isInf (a : F32) : Bool := decide (fmag a = 0x7F800000)

/-- `finite(a)`: neither an infinity nor a NaN (R12). -/
def isFinite (a : F32) : Bool := decide (fmag a < 0x7F800000)

def isZero (a : F32) : Bool := decide (fmag a = 0)

/-! ## Sign operations and comparisons (R12) -/

/-- `fneg(a)` flips the sign bit. -/
def fneg (a : F32) : F32 := a ^^^ 0x80000000#32

/-- `FABS(a)` clears the sign bit. -/
def fabs (a : F32) : F32 := a &&& 0x7FFFFFFF#32

/-- The order of non-NaN data: −0.0 and +0.0 share the key 0. -/
def fkey (a : F32) : Int := if fsign a then -(fmag a : Int) else (fmag a : Int)

/-- IEEE `<`: false when an operand is a NaN. -/
def flt (a b : F32) : Bool := !isNaN a && !isNaN b && decide (fkey a < fkey b)

/-- IEEE `<=`. -/
def fle (a b : F32) : Bool := !isNaN a && !isNaN b && decide (fkey a ≤ fkey b)

/-- IEEE `=`. -/
def feq (a b : F32) : Bool := !isNaN a && !isNaN b && decide (fkey a = fkey b)

/-! ## Exact values and rounding -/

/-- The magnitude of a finite datum, as an exact multiple of 2^−149. -/
def funits (a : F32) : Nat :=
  if fexp a = 0 then ffrac a else (2 ^ 23 + ffrac a) * 2 ^ (fexp a - 1)

/-- The value of a finite datum in units of 2^−149. -/
def fvalue (a : F32) : Int := if fsign a then -(funits a : Int) else (funits a : Int)

/-- The rounding directions of IEEE 754-2008. The reference is `nearestEven`. -/
inductive Rounding where
  | nearestEven
  | nearestAway
  | towardZero
  | towardPositive
  | towardNegative
  deriving DecidableEq, Repr, Inhabited

/-- Does the significand `m` with remainder `r` out of `d` round away from zero? -/
def roundsUp (mode : Rounding) (negative : Bool) (m r d : Nat) : Bool :=
  match mode with
  | .nearestEven => decide (d < 2 * r) || (decide (2 * r = d) && decide (m % 2 = 1))
  | .nearestAway => decide (d ≤ 2 * r)
  | .towardZero => false
  | .towardPositive => decide (r ≠ 0) && !negative
  | .towardNegative => decide (r ≠ 0) && negative

/-- Does an overflow give an infinity (or else the largest finite magnitude)? -/
def overflowsToInf (mode : Rounding) (negative : Bool) : Bool :=
  match mode with
  | .nearestEven => true
  | .nearestAway => true
  | .towardZero => false
  | .towardPositive => !negative
  | .towardNegative => negative

/-- The exponent of the last place of a positive magnitude whose integer part (in units of 2^−149)
is `q`: 0 up to the lowest normal binade, then one more per binade. -/
def lastPlace (q : Nat) : Nat := if q < 2 ^ 24 then 0 else Nat.log2 q - 23

/-- The magnitude bits of the positive rational `num / den` (in units of 2^−149), rounded once to 24
significant bits, before overflow and flushing are considered. -/
def roundedMag (mode : Rounding) (negative : Bool) (num den : Nat) : Nat :=
  let e := lastPlace (num / den)
  let d := den * 2 ^ e
  let m := num / d
  e * 2 ^ 23 + (m + if roundsUp mode negative m (num % d) d then 1 else 0)

/-- A pattern from a sign and magnitude bits. -/
def fpack (negative : Bool) (mag : Nat) : F32 :=
  BitVec.ofNat 32 (mag + if negative then 2 ^ 31 else 0)

/-- What becomes of a subnormal datum (U6): it is kept, as at the reference, or it counts as a zero, of
its own sign or positive; a result is judged subnormal before or after it is rounded (log 2). -/
inductive Subnormals where
  | kept
  | flushed (toPlus beforeRounding : Bool)
  deriving DecidableEq, Repr, Inhabited

/-- The sign of the zero that replaces a subnormal datum. -/
def Subnormals.zeroSign (f : Subnormals) (negative : Bool) : Bool :=
  match f with
  | .kept => negative
  | .flushed toPlus _ => negative && !toPlus

/-- Is the result `num / den`, rounded to `mag`, replaced by a zero? -/
def Subnormals.replaces (f : Subnormals) (num den mag : Nat) : Bool :=
  match f with
  | .kept => false
  | .flushed _ beforeRounding => decide (if beforeRounding then num < 2 ^ 23 * den else mag < 2 ^ 23)

/-- The sign and the magnitude bits of a rounded result made a pattern: overflow by the rounding
direction, a subnormal result kept or replaced by zero (`tiny`). DESIGN CHOICE (log 2): the spec says
nothing of how an arithmetic that flushes does so (U6). -/
def finishRound (mode : Rounding) (f : Subnormals) (tiny negative : Bool) (mag : Nat) : F32 :=
  if 0x7F800000 ≤ mag then
    fpack negative (if overflowsToInf mode negative then 0x7F800000 else 0x7F7FFFFF)
  else if tiny then fpack (f.zeroSign negative) 0
  else fpack negative mag

/-- The binary32 datum for plus or minus `num / den` units of 2^−149, `num` and `den` positive. -/
def roundPack (mode : Rounding) (f : Subnormals) (negative : Bool) (num den : Nat) : F32 :=
  let mag := roundedMag mode negative num den
  finishRound mode f (f.replaces num den mag) negative mag

/-- `FLOOR(a)`: the largest integral datum not above a finite `a`, exact; a non-finite `a` itself
(R12). A zero keeps its sign (log 6). -/
def ffloor (a : F32) : F32 :=
  if 150 ≤ fexp a then a
  else if isZero a then a
  else
    let n := fvalue a / 2 ^ 149
    if n = 0 then fZero
    else roundPack .nearestEven .kept (decide (n < 0)) (n.natAbs * 2 ^ 149) 1

/-! ## Arithmetic rounded once -/

/-- The four arithmetic operations, as names for the NaN patterns they return. -/
inductive ArithOp where
  | add
  | sub
  | mul
  | div
  deriving DecidableEq, Repr

/-- One way to round a binary32 result once (47 R361): a rounding direction, a handling of subnormal
operands and results, and the NaN patterns (U6, U7). The default is the reference instance of R13. A
configuration's arithmetic rounds each result in some such way, all in one direction (`Numerics`, log 2). -/
structure Arithmetic where
  rounding : Rounding := .nearestEven
  operands : Subnormals := .kept
  results : Subnormals := .kept
  nan : ArithOp → F32 → F32 → F32 := fun _ _ _ => 0x7FC00000#32
  nan_quiet : ∀ op a b, isQuietNaN (nan op a b) = true := by intros; decide
  deriving Inhabited

/-- Subnormals are kept on both sides. -/
def Arithmetic.KeepsSubnormals (n : Arithmetic) : Prop := n.operands = .kept ∧ n.results = .kept

/-- An operand as the arithmetic sees it: a subnormal may count as a zero (log 2). -/
def Arithmetic.operand (n : Arithmetic) (a : F32) : F32 :=
  if n.operands ≠ .kept ∧ fmag a ≠ 0 ∧ fmag a < 2 ^ 23 then fpack (n.operands.zeroSign (fsign a)) 0 else a

/-- The sign of a sum that is exactly zero: that of both operands where they agree, else minus only
when rounding toward negative. -/
def Arithmetic.zeroSum (n : Arithmetic) (sa sb : Bool) : F32 :=
  fpack (if sa = sb then sa else decide (n.rounding = .towardNegative)) 0

/-- The sum of two data neither of which is a NaN; `none` where IEEE gives a NaN. -/
def Arithmetic.sum? (n : Arithmetic) (a b : F32) : Option F32 :=
  if isInf a then (if isInf b && (fsign a != fsign b) then none else some a)
  else if isInf b then some b
  else
    let v := fvalue a + fvalue b
    if v = 0 then some (n.zeroSum (fsign a) (fsign b))
    else some (roundPack n.rounding n.results (decide (v < 0)) v.natAbs 1)

/-- The product of two data neither of which is a NaN; `none` where IEEE gives a NaN. -/
def Arithmetic.product? (n : Arithmetic) (a b : F32) : Option F32 :=
  let s := fsign a != fsign b
  if isInf a || isInf b then
    (if isZero a || isZero b then none else some (fpack s 0x7F800000))
  else if isZero a || isZero b then some (fpack s 0)
  else some (roundPack n.rounding n.results s (funits a * funits b) (2 ^ 149))

/-- The quotient of two data neither of which is a NaN; `none` where IEEE gives a NaN. -/
def Arithmetic.quotient? (n : Arithmetic) (a b : F32) : Option F32 :=
  let s := fsign a != fsign b
  if isInf a then (if isInf b then none else some (fpack s 0x7F800000))
  else if isInf b then some (fpack s 0)
  else if isZero b then (if isZero a then none else some (fpack s 0x7F800000))
  else if isZero a then some (fpack s 0)
  else some (roundPack n.rounding n.results s (funits a * 2 ^ 149) (funits b))

/-- An operation on data, completed with the NaN pattern (U7). -/
def Arithmetic.complete (n : Arithmetic) (op : ArithOp) (f : F32 → F32 → Option F32) (a b : F32) : F32 :=
  if isNaN a || isNaN b then n.nan op a b
  else (f (n.operand a) (n.operand b)).getD (n.nan op a b)

def Arithmetic.fadd (n : Arithmetic) (a b : F32) : F32 := n.complete .add n.sum? a b

def Arithmetic.fsub (n : Arithmetic) (a b : F32) : F32 :=
  n.complete .sub (fun x y => n.sum? x (fneg y)) a b

def Arithmetic.fmul (n : Arithmetic) (a b : F32) : F32 := n.complete .mul n.product? a b

def Arithmetic.fdiv (n : Arithmetic) (a b : F32) : F32 := n.complete .div n.quotient? a b

/-- The reference arithmetic of R13. -/
def Arithmetic.reference : Arithmetic := {}

/-! ## The numerics configuration (R13) -/

theorem fle_self_of_fle {a b : F32} (h : fle a b = true) : fle b b = true := by
  simp only [fle, Bool.and_eq_true, Bool.not_eq_true', decide_eq_true_eq] at h ⊢
  exact ⟨⟨h.1.2, h.1.2⟩, Int.le_refl _⟩

/-- `Numerics` of R13: nine total functions. Each result of `fadd`, `fsub`, `fmul` and `fdiv` is the exact
one "rounded once" (47 R361) in the configuration's one rounding direction; how subnormals are handled (U6)
and the NaN patterns (U7) are open for each pair of operands (log 2, log 3). The defaults are the reference
instance. The
transcendental functions are any functions with the properties N-SINCOS, N-EXP, N-POW and N-TANH, each on
the domain R13 gives it (log 4); N-FIN follows from their bounds and N-DET holds of any function. The
defaults of the transcendental entries only show that the record has a value: no rule fixes them (log 24). -/
structure Numerics where
  rounding : Rounding := .nearestEven
  fadd : F32 → F32 → F32 := Arithmetic.reference.fadd
  fsub : F32 → F32 → F32 := Arithmetic.reference.fsub
  fmul : F32 → F32 → F32 := Arithmetic.reference.fmul
  fdiv : F32 → F32 → F32 := Arithmetic.reference.fdiv
  sin : F32 → F32 := fun _ => fZero
  cos : F32 → F32 := fun _ => fOne
  exp : F32 → F32 := fun _ => fOne
  pow : F32 → F32 → F32 := fun b e => if e = fZero then fOne else b
  tanh : F32 → F32 := fun _ => fZero
  /-- 47 R361: each operation rounds once, in the one direction. -/
  fadd_rounds : ∀ a b, ∃ m : Arithmetic, m.rounding = rounding ∧ fadd a b = m.fadd a b := by
    exact fun _ _ => ⟨Arithmetic.reference, rfl, rfl⟩
  fsub_rounds : ∀ a b, ∃ m : Arithmetic, m.rounding = rounding ∧ fsub a b = m.fsub a b := by
    exact fun _ _ => ⟨Arithmetic.reference, rfl, rfl⟩
  fmul_rounds : ∀ a b, ∃ m : Arithmetic, m.rounding = rounding ∧ fmul a b = m.fmul a b := by
    exact fun _ _ => ⟨Arithmetic.reference, rfl, rfl⟩
  fdiv_rounds : ∀ a b, ∃ m : Arithmetic, m.rounding = rounding ∧ fdiv a b = m.fdiv a b := by
    exact fun _ _ => ⟨Arithmetic.reference, rfl, rfl⟩
  /-- N-SINCOS -/
  sin_bound : ∀ a, isFinite a = true → fle (fabs (sin a)) fOne = true := by intros; decide
  sin_zero : sin fZero = fZero := by rfl
  cos_bound : ∀ a, isFinite a = true → fle (fabs (cos a)) fOne = true := by intros; decide
  cos_zero : cos fZero = fOne := by rfl
  /-- N-EXP -/
  exp_range : ∀ a, fle a fZero = true → fle fZero (exp a) = true ∧ fle (exp a) fOne = true := by
    intros; decide
  exp_zero : exp fZero = fOne := by rfl
  exp_negZero : exp fNegZero = fOne := by rfl
  /-- N-POW, for every base of at least 1.0, +infinity among them -/
  pow_zero : ∀ b, fle fOne b = true → pow b fZero = fOne := by intros; rfl
  pow_one : ∀ b, fle fOne b = true → pow b fOne = b := by intros; rfl
  pow_range : ∀ b e, fle fOne b = true → fle fZero e = true →
      fle e fOne = true → fle fOne (pow b e) = true ∧ fle (pow b e) b = true := by
    intro b e hb _ _
    by_cases he : e = fZero
    · rw [if_pos he]; exact ⟨by decide, hb⟩
    · rw [if_neg he]; exact ⟨hb, fle_self_of_fle hb⟩
  /-- N-TANH -/
  tanh_bound : ∀ a, isNaN a = false → fle (fabs (tanh a)) fOne = true := by intros; decide
  tanh_zero : tanh fZero = fZero := by rfl
  tanh_odd : ∀ a, isNaN a = false → feq (tanh (fneg a)) (fneg (tanh a)) = true := by
    intros; decide
  tanh_mono : ∀ a b, fle a b = true → fle (tanh a) (tanh b) = true := by intros; decide
  deriving Inhabited

/-- The configuration rounds every result in the one way `a`: the premise of the few statements for which
it matters which way that is (log 2). -/
def Numerics.Follows (n : Numerics) (a : Arithmetic) : Prop :=
  n.fadd = a.fadd ∧ n.fsub = a.fsub ∧ n.fmul = a.fmul ∧ n.fdiv = a.fdiv

end Sys2Proof
end

