-- ==== Sys2Proof/Config.lean ====
section
/-! DEFINITION. The configuration record `Cfg` of 00_scope R7 with its constraints, the one
configuration the machine has, and the free values that stand for the outside world (00_scope R17,
93_implementation_defined U3, U8 to U12). -/

namespace Sys2Proof

/-- What `ALG_MAP` gives an index below `N_ALG` (R7). -/
inductive AlgKind where
  | modfm
  | fbfm
  | external
  deriving DecidableEq, Repr, Inhabited

/-- One entry of `ALG_INFO` (R7). -/
structure AlgInfo where
  p1Unused : Bool := false
  p2Unused : Bool := false
  deriving DecidableEq, Repr, Inhabited

/-- The reverb insert of R7 and 45_voice_engine R296: a reset state and a total step from state,
sample, size and level to state and sample. Its state type is coded in `Nat` (log 7). -/
structure Reverb where
  reset : Nat := 0
  step : Nat → F32 → F32 → F32 → Nat × F32 := fun r x _ _ => (r, x)
  deriving Inhabited

/-- `TWO_PI`, the binary32 value nearest 2π (R7). -/
abbrev twoPi : F32 := 0x40C90FDB#32

/-- `FM_FB_LIMIT`, the binary32 value nearest 0.95 (R7). -/
abbrev fmFbLimit : F32 := 0x3F733333#32

/-- Finite and above zero. -/
abbrev posFinite (a : F32) : Prop := isFinite a = true ∧ flt fZero a = true

/-- In [0, 1]. -/
abbrev unitRange (a : F32) : Prop := fle fZero a = true ∧ fle a fOne = true

/-- The configuration record of R7: one field per field of its table, then the table's constraints and
no others. The default of a field is the table's reference value. (`ENV_COEF`'s default is the constant
1.0, which meets its constraints; the reference map of 44 R258 is `referenceEnvCoef` below.) The range and
the order of `ENV_COEF` are asked for a setting in [0, 1], the domain 44 R258 gives the map (log 20), so
that the reference map is admissible. `ExtAlg` is not a field: the model takes an EXTERNAL slot's pair as a
draw (40 R158, log 8). -/
structure Cfg where
  num : Numerics := {}
  sampleRate : F32 := 0x473B8000#32
  blockFrames : Nat := 64
  nAlg : Nat := 20
  algMap : U8 → AlgKind := fun i => if i = 0 then .modfm else if i = 1 then .fbfm else .external
  algInfo : U8 → AlgInfo := fun _ => {}
  foldGain : U8 → F32 := fun _ => fOne
  outGain : U8 → F32 := fun _ => fOne
  idxSelftest : U8 := 20
  idxCaltone : U8 := 21
  fmIndexMin : F32 := 0x3E800000#32
  fmIndexMax : F32 := 0x41800000#32
  fmRatioMin : F32 := 0x3F000000#32
  fmRatioMax : F32 := 0x41000000#32
  fmFbRatio : F32 := fOne
  wfDrive : F32 := 0x40400000#32
  envCoef : F32 → F32 := fun _ => fOne
  envFloor : F32 := 0x3727C5AC#32
  silenceFloor : F32 := 0x3727C5AC#32
  pitchSmooth : F32 := 0x3F600000#32
  pitchMinHz : F32 := 0x43BB8000#32
  pitchMaxHz : F32 := 0x46415C00#32
  pitchCvWeight : F32 := fHalf
  modDepthCv : F32 := fHalf
  modDepthPot : F32 := fHalf
  velocityDefault : F32 := fOne
  guard : F32 := fFour
  preclip : F32 → F32 := fun x => x
  preGain : F32 := fOne
  selftestHz : F32 := 0x443B8000#32
  selftestGain : F32 := 0x3E800000#32
  frameBytes : Nat := 8
  reverb : Reverb := {}
  sampleRate_pos : posFinite sampleRate := by decide
  blockFrames_pos : 1 ≤ blockFrames := by decide
  nAlg_range : 1 ≤ nAlg ∧ nAlg ≤ 256 := by decide
  foldGain_finite : ∀ i : U8, i.toNat < nAlg → isFinite (foldGain i) = true := by intros; decide
  outGain_finite : ∀ i : U8, i.toNat < nAlg → isFinite (outGain i) = true := by intros; decide
  idx_ne : idxSelftest ≠ idxCaltone := by decide
  fmIndex_range : posFinite fmIndexMin ∧ isFinite fmIndexMax = true ∧
      fle fmIndexMin fmIndexMax = true := by decide
  fmRatio_range : posFinite fmRatioMin ∧ isFinite fmRatioMax = true ∧
      fle fmRatioMin fmRatioMax = true := by decide
  fmFbRatio_pos : posFinite fmFbRatio := by decide
  wfDrive_range : isFinite wfDrive = true ∧ fle fZero wfDrive = true := by decide
  envCoef_range : ∀ t, unitRange t → flt fZero (envCoef t) = true ∧ fle (envCoef t) fOne = true := by
    intros; decide
  envCoef_immediate : ∀ t, fle t fZero = true → envCoef t = fOne := by intros; rfl
  envCoef_antitone : ∀ t u, unitRange t → unitRange u → fle t u = true →
      fle (envCoef u) (envCoef t) = true := by
    intros; decide
  envFloor_pos : posFinite envFloor := by decide
  silenceFloor_pos : posFinite silenceFloor := by decide
  pitchSmooth_range : fle fZero pitchSmooth = true ∧ flt pitchSmooth fOne = true := by decide
  /-- `0 ≤ MIN ≤ MAX ≤ SAMPLE_RATE/2`, the last as exact values (log 20). -/
  pitch_range : fle fZero pitchMinHz = true ∧ fle pitchMinHz pitchMaxHz = true ∧
      isFinite pitchMaxHz = true ∧ 2 * fvalue pitchMaxHz ≤ fvalue sampleRate := by decide +kernel
  pitchCvWeight_range : unitRange pitchCvWeight := by decide
  modDepth_finite : isFinite modDepthCv = true ∧ isFinite modDepthPot = true := by decide
  velocityDefault_range : unitRange velocityDefault := by decide
  guard_pos : posFinite guard := by decide
  preclip_finite : ∀ x, isFinite x = true → isFinite (preclip x) = true := by
    intro _ h; exact h
  preGain_finite : isFinite preGain = true := by decide
  selftestHz_range : isFinite selftestHz = true ∧ fle fZero selftestHz = true := by decide
  selftestGain_range : isFinite selftestGain = true ∧ fle fZero selftestGain = true := by decide
  frameBytes_pos : 1 ≤ frameBytes := by decide
  deriving Inhabited

/-- `NYQ` (R8). -/
def Cfg.nyq (c : Cfg) : F32 := c.num.fmul c.sampleRate fHalf

/-- `REQ_BYTES`, formed in the naturals (R8, 47 R360 c). -/
def Cfg.reqBytes (c : Cfg) : Nat := c.blockFrames * c.frameBytes

/-- The reference coefficient map of 44 R258, with `ENV_T_MAX` = 2.0. No rule depends on it: it is
one admissible `ENV_COEF` where the numerics keep it in (0, 1]. -/
def referenceEnvCoef (n : Numerics) (sampleRate t : F32) : F32 :=
  if fle t fZero then fOne
  else n.fsub fOne (n.exp (n.fdiv fNegOne (n.fmul (n.fmul t fTwo) sampleRate)))

/-- What stands at the block's boundaries for the step about to be taken: which context moves (46
R332, U12), the reset input (70 R430, R432), the `audio_init_ok` pin (46 R339, U11), the gate input
(46 R336, U9) and the audio boundary's answer (46 R338, U10). -/
structure Inputs where
  turn : Context
  resetIn : Bool
  audioInitOk : Bool
  gateIn : Bool
  wrOk : Bool
  wrBytes : Nat
  deriving DecidableEq, Repr, Inhabited

/-- The configuration of the machine: any record that meets the constraints of R7 (U8, log 1). -/
opaque Config.cfg : Cfg

/-- The outside inputs of one step, under no law (00 R17, U9 to U12, log 9). -/
opaque Config.inputs : Nat → Inputs

/-- The words the platform presents on the audio port and on the control port between two steps,
under no law (70 R436 c, log 10). -/
opaque Config.arrivals : Nat → List Word × List Word

/-- The pair an EXTERNAL generator returns, before it is held to finite values (40 R158, U3, log 8). -/
opaque Config.extPair : Nat → F32 × F32

end Sys2Proof
end

