-- ==== Sys2Proof/Machine/State.lean ====
section
/-! DEFINITION. The state of the block as plain data (10_state R30 to R47, R60 to R62), the reasons a
step could stop, and the machine right after reset (R62, 70_reset_and_hazards R430). -/

namespace Sys2Proof.Machine

/-- Sine unit (R34): S0 is the dispatcher's fallback generator, S1 the calibration tone's. -/
structure SineUnit where
  phase0 : F32
  phase1 : F32
  deriving DecidableEq, Repr

/-- FM unit (R35): S2 to S4. -/
structure FmUnit where
  cphase : F32
  mphase : F32
  prev : F32
  deriving DecidableEq, Repr

/-- Biquad unit (R36, R37): the coefficient file S5 to S9 and the delay registers S10 to S13. -/
structure BiquadUnit where
  b0 : F32
  b1 : F32
  b2 : F32
  a1 : F32
  a2 : F32
  x1 : F32
  x2 : F32
  y1 : F32
  y2 : F32
  deriving DecidableEq, Repr

/-- Envelope unit (R38): S14 to S18. -/
structure EnvelopeUnit where
  level : F32
  gate : Bool
  active : Bool
  atk : F32
  rel : F32
  deriving DecidableEq, Repr

/-- Voice registers (R39): S19 to S30. `playing` is the state machine of 45 R280 (`Idle` = false). -/
structure VoiceRegs where
  freq : F32
  alg : U8
  p1 : F32
  p2 : F32
  p3 : F32
  wf : F32
  mg : F32
  vel : F32
  gate : Bool
  playing : Bool
  rvSize : F32
  rvLevel : F32
  deriving DecidableEq, Repr

/-- Reverb insert state (R40): S31 (left) and S32 (right), coded in `Nat` (log 7). -/
structure ReverbPair where
  left : Nat
  right : Nat
  deriving DecidableEq, Repr

/-- Tick state and the gate-output latch (R41, R44): S33 to S39. -/
structure TickRegs where
  cur : ParameterSnapshot
  lastGate : Bool
  lastAlg : U8
  sqPhase : F32
  underruns : Word
  audioOk : Bool
  gateOut : Bool
  deriving DecidableEq, Repr

/-- A one-slot overwrite channel (R42, 20_memory R82). -/
structure Channel (α : Type) where
  slot : α
  fresh : Bool
  deriving DecidableEq, Repr

/-- The sticky diagnostic flags (R43, 60_exceptions R394): S44 to S47. -/
structure StickyFlags where
  illegal : Bool
  ctx : Bool
  nonfinite : Bool
  guard : Bool
  deriving DecidableEq, Repr

/-- Which atomic sub-step of `TICK` the audio context performs next (46 R340, log 12). -/
inductive TickPhase where
  | first
  | body
  | publish
  deriving DecidableEq, Repr

/-- One stereo frame: left and right sample (46 R338). -/
abbrev Frame := F32 × F32

/-- The state of the block. The registers stand in the order of R62. `portA` and `portC` hold the
words presented and not yet taken (log 10), `resA` and `resC` the words appended to the result ports
(30 R118), `audioOut` the blocks emitted (00 R18 b, log 15). `inputs` and `draws` are the model's own:
the draws of the coming step and the index of the next free value (log 9). -/
structure State where
  sin : SineUnit
  fm : FmUnit
  bq : BiquadUnit
  env : EnvelopeUnit
  v : VoiceRegs
  rev : ReverbPair
  t : TickRegs
  chP : Channel ParameterSnapshot
  chS : Channel StatusSnapshot
  fault : StickyFlags
  tickPhase : TickPhase
  portA : List Word
  portC : List Word
  resA : List Word
  resC : List Word
  audioOut : List (List Frame)
  inputs : Inputs
  draws : Nat
  deriving DecidableEq, Repr

/-- The reasons a step could stop the machine. There is none: "No operation traps, faults, aborts,
halts, stalls or is retried" (60_exceptions R390), and an illegal or refused operation has the defined
response of R391 (log 14). A type with no constructor is safe: nothing can raise it. -/
inductive Fault where
  deriving DecidableEq, Repr

/-- The reasons the model could decline an instruction. -/
inductive Refusal where
  /-- Raised by an arm of `exec` whose instruction has no meaning yet; safe. No arm raises it. -/
  | notModelled (mnemonic : String)
  deriving DecidableEq, Repr

/-- The snapshot `t.cur` and `chP.slot` hold after reset (R62, S33 and S40). -/
def zeroSnapshot : ParameterSnapshot where
  algorithm := 0
  attack := fZero
  decay := fZero
  reverbSize := fZero
  reverbLevel := fZero
  param1 := fZero
  param2 := fZero
  masterGain := fZero
  cv0 := fZero
  cv1 := fZero
  cv2 := fZero
  pot0 := fZero
  pot1 := fZero
  pot2 := fZero

/-- The state at the release of reset (R62, 70 R430) under a configuration, with the outside inputs
standing at `inp` (whose `audioInitOk` is the pin as sampled) and `n` the index of the next draw. -/
def State.resetWith (c : Cfg) (inp : Inputs) (n : Nat) : State where
  sin := ⟨fZero, fZero⟩
  fm := ⟨fZero, fZero, fZero⟩
  bq :=
    { b0 := c.num.fsub fOne c.pitchSmooth, b1 := fZero, b2 := fZero
      a1 := c.num.fsub fZero c.pitchSmooth, a2 := fZero
      x1 := fZero, x2 := fZero, y1 := fZero, y2 := fZero }
  env := { level := fZero, gate := false, active := false, atk := fZero, rel := fZero }
  v :=
    { freq := fZero, alg := 0, p1 := fHalf, p2 := fHalf, p3 := fHalf, wf := fZero, mg := fOne
      vel := fZero, gate := false, playing := false, rvSize := fZero, rvLevel := fZero }
  rev := ⟨c.reverb.reset, c.reverb.reset⟩
  t :=
    { cur := zeroSnapshot, lastGate := false, lastAlg := 0, sqPhase := fZero, underruns := 0
      audioOk := inp.audioInitOk, gateOut := true }
  chP := ⟨zeroSnapshot, false⟩
  chS := ⟨⟨0, inp.audioInitOk⟩, false⟩
  fault := ⟨false, false, false, false⟩
  tickPhase := .first
  portA := []
  portC := []
  resA := []
  resC := []
  audioOut := []
  inputs := inp
  draws := n

/-- The machine right after reset (70 R430). -/
def State.reset : State := State.resetWith Config.cfg (Config.inputs 0) 1

end Sys2Proof.Machine
end

