-- ==== Sys2Proof/Machine/Flags.lean ====
section
/-! DEFINITION. The sticky diagnostic flags (60_exceptions R394). The block has no arithmetic
condition codes (10_state R33); these four bits are every flag an operation writes, and no operation
clears or reads one (R395). -/

namespace Sys2Proof.Machine

/-- `flag illegal` (R394, condition X1). -/
def State.flagIllegal (s : State) : State := { s with fault := { s.fault with illegal := true } }

/-- `flag ctx` (R394, condition X2). -/
def State.flagCtx (s : State) : State := { s with fault := { s.fault with ctx := true } }

/-- `flag nonfinite` (R394, conditions X3 to X5) when `b` holds, nothing otherwise. -/
def State.flagNonfinite (b : Bool) (s : State) : State :=
  { s with fault := { s.fault with nonfinite := s.fault.nonfinite || b } }

/-- `flag guard` (R394, condition X6) when `b` holds, nothing otherwise. -/
def State.flagGuard (b : Bool) (s : State) : State :=
  { s with fault := { s.fault with guard := s.fault.guard || b } }

end Sys2Proof.Machine
end

