-- ==== Sys2Proof/Machine/Operands.lean ====
section
/-! DEFINITION. What an operation does with an operand before it uses it: the clamp every setter and
remap shares (00_scope R14), the phase wrap (R15), the parameter remaps (R16), and the boolean reading
of `sel` (30_encoding R114). -/

namespace Sys2Proof.Machine

/-- `clamp(x, lo, hi)` (R14): a NaN goes to `lo`. -/
def clamp (x lo hi : F32) : F32 :=
  if fle lo x = false then lo else if fle x hi = false then hi else x

/-- `clamp01(x)` (R14). -/
def clamp01 (x : F32) : F32 := clamp x fZero fOne

/-- The value of `wrap(p)` (R15). -/
def wrap (c : Cfg) (p : F32) : F32 :=
  if isFinite p = false then fZero
  else
    let q := c.num.fsub p (ffloor p)
    if fle fOne q || flt q fZero then fZero else q

/-- The sum `advance(ph, f)` wraps (R15): one sample period of frequency `f`. -/
def phaseSum (c : Cfg) (ph f : F32) : F32 := c.num.fadd ph (c.num.fdiv f c.sampleRate)

/-- The value of `advance(ph, f)` (R15). -/
def advance (c : Cfg) (ph f : F32) : F32 := wrap c (phaseSum c ph f)

/-- Does `advance(ph, f)` flag nonfinite (R15, R394 a)? -/
def advanceFlags (c : Cfg) (ph f : F32) : Bool := !isFinite (phaseSum c ph f)

/-- `linmap(p, lo, hi)` (R16). -/
def linmap (c : Cfg) (p lo hi : F32) : F32 :=
  c.num.fadd lo (c.num.fmul (clamp01 p) (c.num.fsub hi lo))

/-- `expmap(p, lo, hi)` (R16). -/
def expmap (c : Cfg) (p lo hi : F32) : F32 :=
  c.num.fmul lo (c.num.pow (c.num.fdiv hi lo) (clamp01 p))

/-- A `sel` read as a boolean: 1 is true (30 R114; other values than 0 and 1 are illegal). -/
def selBool (sel : U8) : Bool := decide (sel = 1)

/-- A boolean as a result word, 0 or 1 (30 R118). -/
def boolWord (b : Bool) : Word := if b then 1 else 0

/-- A u8 as a result word, zero-extended (30 R118). -/
def u8Word (a : U8) : Word := a.zeroExtend 32

/-- A draw of a finite value (40 R158): a non-finite draw counts as 0.0 (log 8). -/
def finiteDraw (a : F32) : F32 := if isFinite a then a else fZero

end Sys2Proof.Machine
end

