-- ==== Sys2Proof/Machine/Ops.lean ====
section
/-! DEFINITION. The shared operations over the state: result ports (30_encoding R118), the channel
primitives (20_memory R84, R85), the ports the words arrive on, draws, and the block's one response to
an operation it may not perform, which stands where another machine takes an exception (60_exceptions
R390, R391, R397, R402). -/

namespace Sys2Proof.Machine

/-- `result w1, w2, …`: append words to a context's result port (30 R118). -/
def State.result (s : State) (c : Context) (ws : List Word) : State :=
  match c with
  | .audio => { s with resA := s.resA ++ ws }
  | .control => { s with resC := s.resC ++ ws }

/-- An operation's answer as words on the audio context's result port (30 R118). -/
def answering {α : Type} (words : α → List Word) (r : α × State) : State :=
  r.2.result .audio (words r.1)

/-- The one result word of an operation. -/
def oneWord (a : F32) : List Word := [a]

/-- The two result words of an operation, in order. -/
def twoWords (a : F32 × F32) : List Word := [a.1, a.2]

/-- The words presented on a context's operation port and not yet taken (46 R331). -/
def State.port (s : State) (c : Context) : List Word :=
  match c with
  | .audio => s.portA
  | .control => s.portC

/-- A context's operation port replaced, as consuming an operation does. -/
def State.setPort (s : State) (c : Context) (ws : List Word) : State :=
  match c with
  | .audio => { s with portA := ws }
  | .control => { s with portC := ws }

/-- The platform presents words on a port, after those already there (46 R331). -/
def State.present (s : State) (c : Context) (ws : List Word) : State :=
  s.setPort c (s.port c ++ ws)

/-- `ChanRead(c)`: the fresh flag and the slot; the flag is cleared (20 R84). -/
def chanRead {α : Type} (c : Channel α) : (Bool × α) × Channel α :=
  ((c.fresh, c.slot), { c with fresh := false })

/-- `ChanWrite(c, v)`: the slot replaced and the flag set (20 R85). -/
def chanWrite {α : Type} (_c : Channel α) (v : α) : Channel α := ⟨v, true⟩

/-- Issue an operation in the context that moves: an illegal one only sets `fault.illegal` (30 R120),
a legal one on the other context's port only sets `fault.ctx` (60 R402), in that order (60 R397);
otherwise the operation is performed. Nothing traps, so each case has a next state (60 R390). -/
def issue (legal : Bool) (right : Context) (s : State) (perform : State → State) :
    Host.Outcome State Fault Refusal :=
  if legal = false then .next s.flagIllegal
  else if s.inputs.turn = right then .next (perform s)
  else .next s.flagCtx

/-- The pair an EXTERNAL generator returns: a draw of two finite data (40 R158, log 8). -/
def externalPair (s : State) : (F32 × F32) × State :=
  ((finiteDraw (Config.extPair s.draws).1, finiteDraw (Config.extPair s.draws).2),
    { s with draws := s.draws + 1 })

/-- After a step: the outside inputs take the values they have for the next one, and the platform
presents what it presents (00 R17, log 9, log 10). -/
def State.nextInputs (s : State) : State :=
  { s with
    inputs := Config.inputs s.draws
    portA := s.portA ++ (Config.arrivals s.draws).1
    portC := s.portC ++ (Config.arrivals s.draws).2
    draws := s.draws + 1 }

/-- The reset input asserted and released: every register at its reset value, the pin sampled, the
ports emptied, the operation in progress abandoned (70 R430, R432). The outside world's draws go on. -/
def State.resetNow (c : Cfg) (s : State) : State := State.resetWith c s.inputs s.draws

end Sys2Proof.Machine
end

