-- ==== Sys2Proof/Machine/Biquad.lean ====
section
/-! DEFINITION. The biquad unit: BQ.RESET, BQ.SETC and BQ.STEP (43_biquad_iir R230 to R237). -/

namespace Sys2Proof.Machine

/-- The delay registers cleared, the coefficients kept (R232, R236). -/
def BiquadUnit.cleared (u : BiquadUnit) : BiquadUnit :=
  { u with x1 := fZero, x2 := fZero, y1 := fZero, y2 := fZero }

/-- `coef[k] <- value` with `coef` = (b0, b1, b2, a1, a2) (R233). -/
def BiquadUnit.setCoef (u : BiquadUnit) (k : U8) (value : F32) : BiquadUnit :=
  match k.toNat with
  | 0 => { u with b0 := value }
  | 1 => { u with b1 := value }
  | 2 => { u with b2 := value }
  | 3 => { u with a1 := value }
  | 4 => { u with a2 := value }
  | _ => u

/-- `acc`: the difference equation, each product and partial sum rounded, left to right (R231, R234). -/
def bqAcc (c : Cfg) (u : BiquadUnit) (x : F32) : F32 :=
  let acc := c.num.fmul u.b0 x
  let acc := c.num.fadd acc (c.num.fmul u.b1 u.x1)
  let acc := c.num.fadd acc (c.num.fmul u.b2 u.x2)
  let acc := c.num.fsub acc (c.num.fmul u.a1 u.y1)
  c.num.fsub acc (c.num.fmul u.a2 u.y2)

/-- BQ.RESET on the state (R232). -/
def bqReset (s : State) : State := { s with bq := s.bq.cleared }

/-- BQ.SETC on the state: the value stored as given (R233). -/
def bqSetc (k : U8) (value : F32) (s : State) : State := { s with bq := s.bq.setCoef k value }

/-- BQ.STEP on the state: the flush of R236 for a non-finite output, else the history moves on (R234). -/
def bqStep (c : Cfg) (x : F32) (s : State) : F32 × State :=
  let acc := bqAcc c s.bq x
  if isFinite acc = false then (fZero, { s with bq := s.bq.cleared }.flagNonfinite true)
  else (acc, { s with bq := { s.bq with x2 := s.bq.x1, x1 := x, y2 := s.bq.y1, y1 := acc } })

/-- BQ.STEP with its result word. -/
def bqStepOp (c : Cfg) (x : F32) (s : State) : State := answering oneWord (bqStep c x s)

/-- BQ.RESET (R232). -/
def execBqReset (s : State) : Host.Outcome State Fault Refusal :=
  issue true .audio s fun s => bqReset s

/-- BQ.SETC (R233). -/
def execBqSetc (k : U8) (value : F32) (s : State) : Host.Outcome State Fault Refusal :=
  issue (decide (k.toNat < 5)) .audio s fun s => bqSetc k value s

/-- BQ.STEP (R234). -/
def execBqStep (x : F32) (s : State) : Host.Outcome State Fault Refusal :=
  issue true .audio s fun s => bqStepOp Config.cfg x s

end Sys2Proof.Machine
end

