-- ==== Sys2Proof/Machine/Channels.lean ====
section
/-! DEFINITION. The channel operations CH.PWR, CH.PRD, CH.SWR and CH.SRD
(46_task_scheduler_fifo R341 to R344). -/

namespace Sys2Proof.Machine

/-- CH.PWR on the state: the whole snapshot replaces the slot (R342). -/
def chPwr (snap : ParameterSnapshot) (s : State) : State := { s with chP := chanWrite s.chP snap }

/-- The read of the parameter channel that CH.PRD and sub-step T1 share: `t.cur` takes a fresh
snapshot and keeps its value otherwise. The first component is the fresh flag (R341, R345 step 1). -/
def readParameters (s : State) : Bool × State :=
  let r := chanRead s.chP
  (r.1.1, { s with chP := r.2, t := { s.t with cur := if r.1.1 then r.1.2 else s.t.cur } })

/-- The fifteen result words of CH.PRD (R341). -/
def snapshotWords (flag : Bool) (p : ParameterSnapshot) : List Word :=
  [boolWord flag, u8Word p.algorithm, p.attack, p.decay, p.reverbSize, p.reverbLevel, p.param1,
    p.param2, p.masterGain, p.cv0, p.cv1, p.cv2, p.pot0, p.pot1, p.pot2]

/-- CH.SWR on the state: the status given is published; the block's own counters are not read (R343). -/
def chSwr (audioOk : Bool) (underruns : Word) (s : State) : State :=
  { s with chS := chanWrite s.chS ⟨underruns, audioOk⟩ }

/-- The three result words of CH.SRD (R344). -/
def statusWords (flag : Bool) (p : StatusSnapshot) : List Word :=
  [boolWord flag, p.underruns, boolWord p.audioOk]

/-- CH.PRD with its result words. -/
def chPrdOp (s : State) : State :=
  let r := readParameters s
  r.2.result .audio (snapshotWords r.1 r.2.t.cur)

/-- CH.SRD with its result words (R344). -/
def chSrdOp (s : State) : State :=
  let r := chanRead s.chS
  { s with chS := r.2 }.result .control (statusWords r.1.1 r.1.2)

/-- CH.PWR, on the control port (R342). -/
def execChPwr (snap : ParameterSnapshot) (s : State) : Host.Outcome State Fault Refusal :=
  issue true .control s fun s => chPwr snap s

/-- CH.PRD (R341). -/
def execChPrd (s : State) : Host.Outcome State Fault Refusal :=
  issue true .audio s fun s => chPrdOp s

/-- CH.SWR (R343). -/
def execChSwr (audioOk : U8) (underruns : Word) (s : State) : Host.Outcome State Fault Refusal :=
  issue (decide (audioOk.toNat < 2)) .audio s fun s => chSwr (selBool audioOk) underruns s

/-- CH.SRD, on the control port (R344). -/
def execChSrd (s : State) : Host.Outcome State Fault Refusal :=
  issue true .control s fun s => chSrdOp s

end Sys2Proof.Machine
end

