-- ==== Sys2Proof/Machine/Envelope.lean ====
section
/-! DEFINITION. The envelope unit: ENV.RESET, ENV.GATE, ENV.SETA, ENV.SETR and ENV.STEP
(44_envelope_follower R250 to R259). -/

namespace Sys2Proof.Machine

/-- ENV.RESET on the state: the two settings are kept (R252). -/
def envReset (s : State) : State :=
  { s with env := { s.env with level := fZero, gate := false, active := false } }

/-- ENV.GATE on the state: raising the gate reports playing at once (R253). -/
def envGate (g : Bool) (s : State) : State :=
  { s with env := { s.env with gate := g, active := g || s.env.active } }

/-- ENV.SETA on the state (R254). -/
def envSeta (a : F32) (s : State) : State := { s with env := { s.env with atk := clamp01 a } }

/-- ENV.SETR on the state (R255). -/
def envSetr (r : F32) (s : State) : State := { s with env := { s.env with rel := clamp01 r } }

/-- The level after one sample: one-pole toward 1.0 or 0.0 by the gate, clamped (R256). -/
def envLevel (c : Cfg) (e : EnvelopeUnit) : F32 :=
  let target := if e.gate then fOne else fZero
  let k := c.envCoef (if e.gate then e.atk else e.rel)
  clamp (c.num.fadd e.level (c.num.fmul k (c.num.fsub target e.level))) fZero fOne

/-- ENV.STEP on the state: the new level is stored, judged and returned (R256, R257). -/
def envStep (c : Cfg) (s : State) : F32 × State :=
  let lvl := envLevel c s.env
  (lvl, { s with env := { s.env with level := lvl, active := s.env.gate || fle c.envFloor lvl } })

/-- ENV.STEP with its result word. -/
def envStepOp (c : Cfg) (s : State) : State := answering oneWord (envStep c s)

/-- ENV.RESET (R252). -/
def execEnvReset (s : State) : Host.Outcome State Fault Refusal :=
  issue true .audio s fun s => envReset s

/-- ENV.GATE (R253). -/
def execEnvGate (g : U8) (s : State) : Host.Outcome State Fault Refusal :=
  issue (decide (g.toNat < 2)) .audio s fun s => envGate (selBool g) s

/-- ENV.SETA (R254). -/
def execEnvSeta (a : F32) (s : State) : Host.Outcome State Fault Refusal :=
  issue true .audio s fun s => envSeta a s

/-- ENV.SETR (R255). -/
def execEnvSetr (r : F32) (s : State) : Host.Outcome State Fault Refusal :=
  issue true .audio s fun s => envSetr r s

/-- ENV.STEP (R256). -/
def execEnvStep (s : State) : Host.Outcome State Fault Refusal :=
  issue true .audio s fun s => envStepOp Config.cfg s

end Sys2Proof.Machine
end

