-- ==== Sys2Proof/Machine/Fm.lean ====
section
/-! DEFINITION. The FM modulator unit: FM.RESET and FM.STEP (41_fm_modulator R180 to R186). -/

namespace Sys2Proof.Machine

/-- The unit zeroed (R182). -/
def fmZero : FmUnit := ⟨fZero, fZero, fZero⟩

/-- `index` (R183). -/
def fmIndex (c : Cfg) (p1 : F32) : F32 := expmap c p1 c.fmIndexMin c.fmIndexMax

/-- `ratio` (R183): by `p2` in MODFM, fixed in FBFM. -/
def fmRatio (c : Cfg) (fbfm : Bool) (p2 : F32) : F32 :=
  if fbfm then c.fmFbRatio else expmap c p2 c.fmRatioMin c.fmRatioMax

/-- `fb` (R183, R184): zero in MODFM, `clamp01(p2)` times the limit in FBFM. -/
def fmFeedback (c : Cfg) (fbfm : Bool) (p2 : F32) : F32 :=
  if fbfm then c.num.fmul (clamp01 p2) fmFbLimit else fZero

/-- The exponent of `g` (R183): at most 0.0, as R185 says, for an index of at least 0.0, unless it is a NaN,
which it is for no finite index. -/
def fmExponent (c : Cfg) (index mphase : F32) : F32 :=
  c.num.fmul index (c.num.fsub (c.num.cos (c.num.fmul twoPi mphase)) fOne)

/-- `g`, the exponential envelope of the modulator phase, "in [0, 1]" (R183). DEDUCED (log 5): R185 takes
the index as finite, which R7 does not make it; where an infinite index times 0.0, or an index that is a NaN,
leaves N-EXP's domain, `EXP`'s value there is held to the range R183 states. -/
def fmGain (c : Cfg) (index mphase : F32) : F32 :=
  let g := c.num.exp (fmExponent c index mphase)
  if fle (fmExponent c index mphase) fZero then g else clamp01 g

/-- The primary and secondary sample of the registers as they stand (R183). -/
def fmSamples (c : Cfg) (u : FmUnit) (p1 : F32) : F32 × F32 :=
  let g := fmGain c (fmIndex c p1) u.mphase
  let ca := c.num.fmul twoPi u.cphase
  (c.num.fmul g (c.num.cos ca), c.num.fmul g (c.num.sin ca))

/-- `feff`, the carrier's effective frequency, from the previous primary sample (R183). -/
def fmCarrierFreq (c : Cfg) (fbfm : Bool) (u : FmUnit) (pitch p2 : F32) : F32 :=
  c.num.fadd pitch (c.num.fmul (c.num.fmul (fmFeedback c fbfm p2) u.prev) pitch)

/-- The modulator's frequency (R183). -/
def fmModFreq (c : Cfg) (fbfm : Bool) (pitch p2 : F32) : F32 :=
  c.num.fmul pitch (fmRatio c fbfm p2)

/-- The registers after one step (R183). -/
def fmNext (c : Cfg) (fbfm : Bool) (u : FmUnit) (pitch p1 p2 : F32) : FmUnit where
  cphase := advance c u.cphase (fmCarrierFreq c fbfm u pitch p2)
  mphase := advance c u.mphase (fmModFreq c fbfm pitch p2)
  prev := (fmSamples c u p1).1

/-- Does a step meet a non-finite phase sum (R183)? -/
def fmFlags (c : Cfg) (fbfm : Bool) (u : FmUnit) (pitch p2 : F32) : Bool :=
  advanceFlags c u.cphase (fmCarrierFreq c fbfm u pitch p2) ||
    advanceFlags c u.mphase (fmModFreq c fbfm pitch p2)

/-- FM.RESET on the state (R182). -/
def fmReset (s : State) : State := { s with fm := fmZero }

/-- FM.STEP on the state; `p3` is ignored by both variants (R181 b, R183). -/
def fmStep (c : Cfg) (fbfm : Bool) (pitch p1 p2 _p3 : F32) (s : State) : (F32 × F32) × State :=
  (fmSamples c s.fm p1,
    { s with fm := fmNext c fbfm s.fm pitch p1 p2 }.flagNonfinite (fmFlags c fbfm s.fm pitch p2))

/-- FM.STEP with its result words. -/
def fmStepOp (c : Cfg) (fbfm : Bool) (pitch p1 p2 p3 : F32) (s : State) : State :=
  answering twoWords (fmStep c fbfm pitch p1 p2 p3 s)

/-- FM.RESET (R182). -/
def execFmReset (s : State) : Host.Outcome State Fault Refusal :=
  issue true .audio s fun s => fmReset s

/-- FM.STEP (R183). -/
def execFmStep (var : U8) (pitch p1 p2 p3 : F32) (s : State) : Host.Outcome State Fault Refusal :=
  issue (decide (var.toNat < 2)) .audio s fun s =>
    fmStepOp Config.cfg (selBool var) pitch p1 p2 p3 s

end Sys2Proof.Machine
end

