-- ==== Sys2Proof/Machine/Sine.lean ====
section
/-! DEFINITION. The sine unit: SIN.RESET and SIN.STEP (40_sine_osc R150 to R154). -/

namespace Sys2Proof.Machine

/-- `sin.phase[i]` (R150). -/
def SineUnit.phase (u : SineUnit) (i : U8) : F32 := if i = 0 then u.phase0 else u.phase1

/-- `sin.phase[i] <- ph`. -/
def SineUnit.setPhase (u : SineUnit) (i : U8) (ph : F32) : SineUnit :=
  if i = 0 then { u with phase0 := ph } else { u with phase1 := ph }

/-- SIN.RESET on the state (R152). -/
def sinReset (i : U8) (s : State) : State := { s with sin := s.sin.setPhase i fZero }

/-- The sine law's output for a phase (R151). -/
def sineSample (c : Cfg) (ph : F32) : F32 := c.num.sin (c.num.fmul twoPi ph)

/-- SIN.STEP on the state: the sample of the phase before the step, then the advance (R153). -/
def sinStep (c : Cfg) (i : U8) (freq : F32) (s : State) : F32 × State :=
  let ph := s.sin.phase i
  (sineSample c ph,
    { s with sin := s.sin.setPhase i (advance c ph freq) }.flagNonfinite (advanceFlags c ph freq))

/-- SIN.STEP with its result word. -/
def sinStepOp (c : Cfg) (i : U8) (freq : F32) (s : State) : State := answering oneWord (sinStep c i freq s)

/-- SIN.RESET (R152). -/
def execSinReset (sel : U8) (s : State) : Host.Outcome State Fault Refusal :=
  issue (decide (sel.toNat < 2)) .audio s fun s => sinReset sel s

/-- SIN.STEP (R153). -/
def execSinStep (sel : U8) (freq : F32) (s : State) : Host.Outcome State Fault Refusal :=
  issue (decide (sel.toNat < 2)) .audio s fun s => sinStepOp Config.cfg sel freq s

end Sys2Proof.Machine
end

