-- ==== Sys2Proof/Machine/Osc.lean ====
section
/-! DEFINITION. The Oscillator Dispatcher: OSC.RESET and OSC.PROC (40_sine_osc R155 to R159). -/

namespace Sys2Proof.Machine

/-- OSC.RESET on the state: the fallback sine and the FM unit zeroed; `sin.phase[1]` is the audio
task's and stays (R156). The reset line of the EXTERNAL generators is pulsed too; they have no state
in the block (R158, log 8). -/
def oscReset (s : State) : State := fmReset (sinReset 0 s)

/-- OSC.PROC on the state: the generator the index selects, by `idx` and the configuration alone
(R157, R159). -/
def oscProc (c : Cfg) (idx : U8) (pitch p1 p2 p3 : F32) (s : State) : (F32 × F32) × State :=
  if c.nAlg ≤ idx.toNat then
    let r := sinStep c 0 pitch s
    ((r.1, r.1), r.2)
  else
    match c.algMap idx with
    | .modfm => fmStep c false pitch p1 p2 p3 s
    | .fbfm => fmStep c true pitch p1 p2 p3 s
    | .external => externalPair s

/-- OSC.PROC with its result words. -/
def oscProcOp (c : Cfg) (idx : U8) (pitch p1 p2 p3 : F32) (s : State) : State :=
  answering twoWords (oscProc c idx pitch p1 p2 p3 s)

/-- OSC.RESET (R156). -/
def execOscReset (s : State) : Host.Outcome State Fault Refusal :=
  issue true .audio s fun s => oscReset s

/-- OSC.PROC (R157). -/
def execOscProc (idx : U8) (pitch p1 p2 p3 : F32) (s : State) : Host.Outcome State Fault Refusal :=
  issue true .audio s fun s => oscProcOp Config.cfg idx pitch p1 p2 p3 s

end Sys2Proof.Machine
end

