-- ==== Sys2Proof/Machine/Wavefolder.lean ====
section
/-! DEFINITION. The wavefolder unit: WF.FOLD (42_wavefolder R210 to R213). -/

namespace Sys2Proof.Machine

/-- `v`, the driven sample (R212). -/
def wfDriven (c : Cfg) (amt x : F32) : F32 :=
  c.num.fmul x (c.num.fadd fOne (c.num.fmul (clamp01 amt) c.wfDrive))

/-- The reflection of a driven sample above the threshold (R211, R212). -/
def wfReflect (c : Cfg) (v : F32) : F32 :=
  let t := c.num.fsub v fOne
  let q := c.num.fsub t (c.num.fmul fFour (ffloor (c.num.fdiv t fFour)))
  let r := c.num.fsub (fabs (c.num.fsub q fTwo)) fOne
  clamp r fNegOne fOne

/-- The folded sample (R212). -/
def wfValue (c : Cfg) (amt x : F32) : F32 :=
  let v := wfDriven c amt x
  if isFinite v = false then fZero
  else if fle (fabs v) fOne then v
  else wfReflect c v

/-- WF.FOLD on the state: it has no register, but flags a non-finite driven sample (R212). -/
def wfFold (c : Cfg) (amt x : F32) (s : State) : F32 × State :=
  (wfValue c amt x, s.flagNonfinite (!isFinite (wfDriven c amt x)))

/-- WF.FOLD with its result word. -/
def wfFoldOp (c : Cfg) (amt x : F32) (s : State) : State := answering oneWord (wfFold c amt x s)

/-- WF.FOLD (R212). -/
def execWfFold (amt x : F32) (s : State) : Host.Outcome State Fault Refusal :=
  issue true .audio s fun s => wfFoldOp Config.cfg amt x s

end Sys2Proof.Machine
end

