-- ==== Sys2Proof/Machine/Voice.lean ====
section
/-! DEFINITION. The Voice Engine: note operations, the per-sample chain and the setters
(45_voice_engine R280 to R299). -/

namespace Sys2Proof.Machine

/-! ## Note operations -/

/-- V.NOTEON on the state (R281). -/
def vNoteon (c : Cfg) (freq velocity : F32) (s : State) : State :=
  let s :=
    { s with
      v := { s.v with
        freq := clamp freq fZero c.nyq
        vel := clamp01 velocity
        gate := true
        playing := true } }
  let s := envReset (oscReset s)
  envGate true { s with rev := ⟨c.reverb.reset, c.reverb.reset⟩ }

/-- V.NOTEOFF on the state: the release begins, `v.playing` stays (R282). -/
def vNoteoff (s : State) : State := envGate false { s with v := { s.v with gate := false } }

/-! ## The per-sample operation -/

/-- A parameter as the chain sees it: the midpoint for an unused slot (R298). -/
def usedParam (unused : Bool) (p : F32) : F32 := if unused then fHalf else p

/-- Step (4) of the chain: envelope, velocity, master gain and output gain, each rounded (R283). -/
def voiceGain (c : Cfg) (v : VoiceRegs) (e x : F32) : F32 :=
  c.num.fmul (c.num.fmul (c.num.fmul (c.num.fmul x e) v.vel) v.mg) (c.outGain v.alg)

/-- Step (5): each channel through its own reverb (R296). -/
def reverbStep (c : Cfg) (a b : F32) (s : State) : (F32 × F32) × State :=
  let l := c.reverb.step s.rev.left a s.v.rvSize s.v.rvLevel
  let r := c.reverb.step s.rev.right b s.v.rvSize s.v.rvLevel
  ((l.2, r.2), { s with rev := ⟨l.1, r.1⟩ })

/-- Step (6): does the auto-stop fire on this frame (R297)? -/
def autoStops (c : Cfg) (envActive : Bool) (l r : F32) : Bool :=
  !envActive && flt (fabs l) c.silenceFloor && flt (fabs r) c.silenceFloor

/-- Step (6) on the state (R297). -/
def autoStop (c : Cfg) (l r : F32) (s : State) : State :=
  { s with v := { s.v with playing := s.v.playing && !autoStops c s.env.active l r } }

/-- Steps (1) to (3): the selected generator, the fold gain and the wavefolder, primary then
secondary (R283). -/
def voiceFolded (c : Cfg) (s : State) : (F32 × F32) × State :=
  let alg := s.v.alg
  let q1 := usedParam (c.algInfo alg).p1Unused s.v.p1
  let q2 := usedParam (c.algInfo alg).p2Unused s.v.p2
  let o := oscProc c alg s.v.freq q1 q2 s.v.p3 s
  let a := wfFold c s.v.wf (c.num.fmul o.1.1 (c.foldGain alg)) o.2
  let b := wfFold c s.v.wf (c.num.fmul o.1.2 (c.foldGain alg)) a.2
  ((a.1, b.1), b.2)

/-- V.PROC on the state while `Playing` (R283). -/
def voiceFrame (c : Cfg) (s : State) : Frame × State :=
  let f := voiceFolded c s
  let e := envStep c f.2
  let out := reverbStep c (voiceGain c s.v e.1 f.1.1) (voiceGain c s.v e.1 f.1.2) e.2
  (out.1, autoStop c out.1.1 out.1.2 out.2)

/-- V.PROC on the state: silence and no change in `Idle` (R283). -/
def vProc (c : Cfg) (s : State) : Frame × State :=
  if s.v.playing then voiceFrame c s else ((fZero, fZero), s)

/-- V.PROC with its result words, left then right. -/
def vProcOp (c : Cfg) (s : State) : State := answering twoWords (vProc c s)

/-- V.ISPLAY: the playing state as a result word, and nothing else (R284). -/
def vIsplayOp (s : State) : State := s.result .audio [boolWord s.v.playing]

/-! ## Setters -/

/-- V.SETALG on the state: a valid and different index is a switch, any other changes nothing (R285). -/
def vSetalg (c : Cfg) (idx : U8) (s : State) : State :=
  if idx.toNat < c.nAlg ∧ idx ≠ s.v.alg then oscReset { s with v := { s.v with alg := idx } } else s

/-- V.SETP1 on the state (R286). -/
def vSetp1 (value : F32) (s : State) : State := { s with v := { s.v with p1 := clamp01 value } }

/-- V.SETP2 on the state (R287). -/
def vSetp2 (value : F32) (s : State) : State := { s with v := { s.v with p2 := clamp01 value } }

/-- V.SETWF on the state (R288). -/
def vSetwf (value : F32) (s : State) : State := { s with v := { s.v with wf := clamp01 value } }

/-- V.SETRVS on the state (R291). -/
def vSetrvs (value : F32) (s : State) : State := { s with v := { s.v with rvSize := clamp01 value } }

/-- V.SETRVL on the state (R292). -/
def vSetrvl (value : F32) (s : State) : State := { s with v := { s.v with rvLevel := clamp01 value } }

/-- V.SETMG on the state (R293). -/
def vSetmg (value : F32) (s : State) : State := { s with v := { s.v with mg := clamp01 value } }

/-- V.SETFREQ on the state (R294). -/
def vSetfreq (c : Cfg) (freq : F32) (s : State) : State :=
  { s with v := { s.v with freq := clamp freq fZero c.nyq } }

/-! ## Meanings -/

/-- V.NOTEON (R281). -/
def execVNoteon (freq velocity : F32) (s : State) : Host.Outcome State Fault Refusal :=
  issue true .audio s fun s => vNoteon Config.cfg freq velocity s

/-- V.NOTEOFF (R282). -/
def execVNoteoff (s : State) : Host.Outcome State Fault Refusal :=
  issue true .audio s fun s => vNoteoff s

/-- V.PROC (R283). -/
def execVProc (s : State) : Host.Outcome State Fault Refusal :=
  issue true .audio s fun s => vProcOp Config.cfg s

/-- V.ISPLAY (R284). -/
def execVIsplay (s : State) : Host.Outcome State Fault Refusal :=
  issue true .audio s fun s => vIsplayOp s

/-- V.SETALG (R285). -/
def execVSetalg (idx : U8) (s : State) : Host.Outcome State Fault Refusal :=
  issue true .audio s fun s => vSetalg Config.cfg idx s

/-- V.SETP1 (R286). -/
def execVSetp1 (value : F32) (s : State) : Host.Outcome State Fault Refusal :=
  issue true .audio s fun s => vSetp1 value s

/-- V.SETP2 (R287). -/
def execVSetp2 (value : F32) (s : State) : Host.Outcome State Fault Refusal :=
  issue true .audio s fun s => vSetp2 value s

/-- V.SETWF (R288). -/
def execVSetwf (value : F32) (s : State) : Host.Outcome State Fault Refusal :=
  issue true .audio s fun s => vSetwf value s

/-- V.SETATK: ENV.SETA by another name (R289). -/
def execVSetatk (value : F32) (s : State) : Host.Outcome State Fault Refusal :=
  issue true .audio s fun s => envSeta value s

/-- V.SETREL: ENV.SETR by another name (R290). -/
def execVSetrel (value : F32) (s : State) : Host.Outcome State Fault Refusal :=
  issue true .audio s fun s => envSetr value s

/-- V.SETRVS (R291). -/
def execVSetrvs (value : F32) (s : State) : Host.Outcome State Fault Refusal :=
  issue true .audio s fun s => vSetrvs value s

/-- V.SETRVL (R292). -/
def execVSetrvl (value : F32) (s : State) : Host.Outcome State Fault Refusal :=
  issue true .audio s fun s => vSetrvl value s

/-- V.SETMG (R293). -/
def execVSetmg (value : F32) (s : State) : Host.Outcome State Fault Refusal :=
  issue true .audio s fun s => vSetmg value s

/-- V.SETFREQ (R294). -/
def execVSetfreq (freq : F32) (s : State) : Host.Outcome State Fault Refusal :=
  issue true .audio s fun s => vSetfreq Config.cfg freq s

end Sys2Proof.Machine
end

