-- ==== Sys2Proof/Machine/Tick.lean ====
section
/-! DEFINITION. TICK: one iteration of the audio loop as its three atomic sub-steps
(46_task_scheduler_fifo R340, R345 to R359). The sections follow the document's step numbers. -/

namespace Sys2Proof.Machine

/-! ## T1, step 1 -/

/-- Sub-step T1: the parameter read (R340, R345 step 1). -/
def tickFirst (s : State) : State := { (readParameters s).2 with tickPhase := .body }

/-! ## T2, steps 2 to 9 -/

/-- The drone override, on the raw fields (R346). -/
def drone (p : ParameterSnapshot) : Bool := fle p.attack fZero && fle p.decay fZero

/-- Step 2: the gate, the one read of the gate input combined with the drone (R336, R346). -/
def tickGate (s : State) : Bool := s.inputs.gateIn || drone s.t.cur

/-- Step 3: on a change of the raw algorithm index, the edge detector and the two special-mode
accumulators are zeroed (R347). -/
def algChange (s : State) : State :=
  if s.t.cur.algorithm ≠ s.t.lastAlg then
    { s with
      sin := { s.sin with phase1 := fZero }
      t := { s.t with lastGate := false, sqPhase := fZero, lastAlg := s.t.cur.algorithm } }
  else s

/-- Step 4: the algorithm whose unused marks are consulted (R348). -/
def activeAlg (c : Cfg) (s : State) : U8 :=
  if s.t.cur.algorithm.toNat < c.nAlg then s.t.cur.algorithm else s.v.alg

/-- Step 4: an effective parameter from its nominal value, CV and pot (R348). -/
def effectiveParam (c : Cfg) (unused : Bool) (nominal cv pot : F32) : F32 :=
  if unused then fHalf
  else
    clamp01 (c.num.fadd (c.num.fadd nominal (c.num.fmul (c.num.fsub cv fHalf) c.modDepthCv))
      (c.num.fmul (c.num.fsub pot fHalf) c.modDepthPot))

/-- `p1e` (R348). -/
def effectiveP1 (c : Cfg) (s : State) : F32 :=
  effectiveParam c (c.algInfo (activeAlg c s)).p1Unused s.t.cur.param1 s.t.cur.cv1 s.t.cur.pot1

/-- `p2e` (R348). -/
def effectiveP2 (c : Cfg) (s : State) : F32 :=
  effectiveParam c (c.algInfo (activeAlg c s)).p2Unused s.t.cur.param2 s.t.cur.cv2 s.t.cur.pot2

/-- Step 5: the pitch-control blend (R349). -/
def pitchBlend (c : Cfg) (p : ParameterSnapshot) : F32 :=
  clamp01 (c.num.fadd (c.num.fmul c.pitchCvWeight p.cv0)
    (c.num.fmul (c.num.fsub fOne c.pitchCvWeight) p.pot0))

/-- Step 5: the linear map of the smoothed control onto the frequency range (R349). -/
def pitchMap (c : Cfg) (sm : F32) : F32 :=
  c.num.fadd c.pitchMinHz (c.num.fmul sm (c.num.fsub c.pitchMaxHz c.pitchMinHz))

/-- Step 6: the nine setters, in order (R350). -/
def pushSetters (c : Cfg) (p1e p2e freq : F32) (s : State) : State :=
  let p := s.t.cur
  let s := vSetalg c p.algorithm s
  let s := vSetp2 p2e (vSetp1 p1e s)
  let s := envSetr p.decay (envSeta p.attack s)
  let s := vSetrvl p.reverbLevel (vSetrvs p.reverbSize s)
  vSetfreq c freq (vSetmg p.masterGain s)

/-- Step 6: the edges of the gate, then `t.lastGate` (R351). -/
def gateEdges (c : Cfg) (gate : Bool) (freq : F32) (s : State) : State :=
  let s :=
    if gate && !s.t.lastGate then vNoteon c freq c.velocityDefault s
    else if !gate && s.t.lastGate then vNoteoff s
    else s
  { s with t := { s.t with lastGate := gate } }

/-- The guard of `finish`: is the sample within ±GUARD (R355 a)? A NaN is not. -/
def withinGuard (c : Cfg) (x : F32) : Bool := fle (fneg c.guard) x && fle x c.guard

/-- `finish(x)`: guard, pre-clip, pre-gain, soft clip (R345, R355). -/
def finish (c : Cfg) (x : F32) : F32 :=
  c.num.tanh (c.num.fmul (c.preclip (if withinGuard c x then x else fZero)) c.preGain)

/-- A self-test frame: the square wave before its phase advances (R353). -/
def selftestFrame (c : Cfg) (s : State) : Frame × State :=
  let x := if flt s.t.sqPhase fHalf then c.selftestGain else fneg c.selftestGain
  ((x, x),
    { s with t := { s.t with sqPhase := advance c s.t.sqPhase c.selftestHz } }.flagNonfinite
      (advanceFlags c s.t.sqPhase c.selftestHz))

/-- A calibration-tone frame: sine 1 at the voice's frequency and level, gated (R354). -/
def caltoneFrame (c : Cfg) (s : State) : Frame × State :=
  let r := sinStep c 1 s.v.freq s
  let x := if s.v.gate then c.num.fmul s.v.mg r.1 else fZero
  ((x, x), r.2)

/-- A normal frame: V.PROC, then `finish` on each channel (R355). -/
def normalFrame (c : Cfg) (s : State) : Frame × State :=
  let r := vProc c s
  ((finish c r.1.1, finish c r.1.2),
    r.2.flagGuard (!withinGuard c r.1.1 || !withinGuard c r.1.2))

/-- Step 7: one frame in the mode of the snapshot's index (R352). -/
def tickFrame (c : Cfg) (s : State) : Frame × State :=
  if s.t.cur.algorithm = c.idxSelftest then selftestFrame c s
  else if s.t.cur.algorithm = c.idxCaltone then caltoneFrame c s
  else normalFrame c s

/-- Step 7: `n` frames in order (R352). -/
def tickFrames (c : Cfg) : Nat → State → List Frame × State
  | 0, s => ([], s)
  | n + 1, s =>
    let f := tickFrame c s
    let rest := tickFrames c n f.2
    (f.1 :: rest.1, rest.2)

/-- Step 8: is the voice audibly active (R356)? -/
def audiblyActive (c : Cfg) (s : State) : Bool :=
  if s.t.cur.algorithm = c.idxSelftest then true
  else if s.t.cur.algorithm = c.idxCaltone then s.v.gate
  else s.v.playing

/-- Step 9: does the boundary's answer count as an underrun (R357)? -/
def isUnderrun (c : Cfg) (ok : Bool) (n : Nat) : Bool := !ok || decide (n < c.reqBytes)

/-- Steps 8 and 9: the busy output, the block emitted, the answer counted (R356, R357). -/
def finishBlock (c : Cfg) (block : List Frame) (s : State) : State :=
  { s with
    audioOut := s.audioOut ++ [block]
    t := { s.t with
      gateOut := !audiblyActive c s
      underruns :=
        if isUnderrun c s.inputs.wrOk s.inputs.wrBytes then s.t.underruns + 1 else s.t.underruns } }

/-- Steps 3 to 6 of sub-step T2: everything before the frame loop (R345). -/
def tickControl (c : Cfg) (s : State) : State :=
  let gate := tickGate s
  let s := algChange s
  let p1e := effectiveP1 c s
  let p2e := effectiveP2 c s
  let sm := bqStep c (pitchBlend c s.t.cur) s
  let freq := pitchMap c sm.1
  gateEdges c gate freq (pushSetters c p1e p2e freq sm.2)

/-- Sub-step T2: steps 2 to 9, which touch no channel (R340, R345). -/
def tickBody (c : Cfg) (s : State) : State :=
  let r := tickFrames c c.blockFrames (tickControl c s)
  { finishBlock c r.1 r.2 with tickPhase := .publish }

/-! ## T3, step 10 -/

/-- Sub-step T3: the status write; the tick is complete (R340, R358). -/
def tickPublish (s : State) : State :=
  { s with chS := chanWrite s.chS ⟨s.t.underruns, s.t.audioOk⟩, tickPhase := .first }

/-- The next atomic sub-step of TICK (R340, log 12). -/
def tickSubStep (c : Cfg) (s : State) : State :=
  match s.tickPhase with
  | .first => tickFirst s
  | .body => tickBody c s
  | .publish => tickPublish s

/-- TICK: the sub-step the audio context has reached; three of them are one tick (R340, R345). -/
def execTick (s : State) : Host.Outcome State Fault Refusal :=
  issue true .audio s fun s => tickSubStep Config.cfg s

end Sys2Proof.Machine
end

