-- ==== Sys2Proof/Machine/Dispatch.lean ====
section
/-! DEFINITION. Every operation's meaning, one arm per constructor. -/

namespace Sys2Proof.Machine

def exec (i : Instr) (s : State) : Host.Outcome State Fault Refusal :=
  match i with
  | .sinReset sel => Sys2Proof.Machine.execSinReset sel s
  | .sinStep sel freq => Sys2Proof.Machine.execSinStep sel freq s
  | .oscReset => Sys2Proof.Machine.execOscReset s
  | .oscProc idx pitch p1 p2 p3 => Sys2Proof.Machine.execOscProc idx pitch p1 p2 p3 s
  | .fmReset => Sys2Proof.Machine.execFmReset s
  | .fmStep var pitch p1 p2 p3 => Sys2Proof.Machine.execFmStep var pitch p1 p2 p3 s
  | .wfFold amt x => Sys2Proof.Machine.execWfFold amt x s
  | .bqReset => Sys2Proof.Machine.execBqReset s
  | .bqSetc k value => Sys2Proof.Machine.execBqSetc k value s
  | .bqStep x => Sys2Proof.Machine.execBqStep x s
  | .envReset => Sys2Proof.Machine.execEnvReset s
  | .envGate g => Sys2Proof.Machine.execEnvGate g s
  | .envSeta a => Sys2Proof.Machine.execEnvSeta a s
  | .envSetr r => Sys2Proof.Machine.execEnvSetr r s
  | .envStep => Sys2Proof.Machine.execEnvStep s
  | .vNoteon freq velocity => Sys2Proof.Machine.execVNoteon freq velocity s
  | .vNoteoff => Sys2Proof.Machine.execVNoteoff s
  | .vProc => Sys2Proof.Machine.execVProc s
  | .vIsplay => Sys2Proof.Machine.execVIsplay s
  | .vSetalg idx => Sys2Proof.Machine.execVSetalg idx s
  | .vSetp1 value => Sys2Proof.Machine.execVSetp1 value s
  | .vSetp2 value => Sys2Proof.Machine.execVSetp2 value s
  | .vSetwf value => Sys2Proof.Machine.execVSetwf value s
  | .vSetatk value => Sys2Proof.Machine.execVSetatk value s
  | .vSetrel value => Sys2Proof.Machine.execVSetrel value s
  | .vSetrvs value => Sys2Proof.Machine.execVSetrvs value s
  | .vSetrvl value => Sys2Proof.Machine.execVSetrvl value s
  | .vSetmg value => Sys2Proof.Machine.execVSetmg value s
  | .vSetfreq freq => Sys2Proof.Machine.execVSetfreq freq s
  | .chPwr snap => Sys2Proof.Machine.execChPwr snap s
  | .chPrd => Sys2Proof.Machine.execChPrd s
  | .chSwr audioOk underruns => Sys2Proof.Machine.execChSwr audioOk underruns s
  | .chSrd => Sys2Proof.Machine.execChSrd s
  | .tick => Sys2Proof.Machine.execTick s

end Sys2Proof.Machine
end

