-- ==== Sys2Proof/Machine/Fetch.lean ====
section
/-! DEFINITION. Taking an operation from a port and performing it (46_task_scheduler_fifo R331, R332,
30_encoding R116, R120, R124), and placing an operation where the next step takes it. -/

namespace Sys2Proof.Machine

/-- The state of an outcome changed, a stop left alone. -/
def Outcome.mapNext (f : State → State) (o : Host.Outcome State Fault Refusal) :
    Host.Outcome State Fault Refusal :=
  match o with
  | .next s => .next (f s)
  | .fault r => .fault r
  | .refused r => .refused r

/-- The context that moves takes the head of its port: an incomplete operation waits with no effect
(R124), an illegal one is consumed and flagged (R120), any other is consumed and handed to `run`. -/
def fetchAndRun (run : Instr → State → Host.Outcome State Fault Refusal) (s : State) :
    Host.Outcome State Fault Refusal :=
  match decodeOp (s.port s.inputs.turn) with
  | .incomplete => .next s
  | .illegal _ rest => .next (s.setPort s.inputs.turn rest).flagIllegal
  | .op i rest => run i (s.setPort s.inputs.turn rest)

/-- One atomic step of the context that moves: the audio context goes on with a TICK it has begun
before it takes another operation (R332, R340). -/
def atomicStep (run : Instr → State → Host.Outcome State Fault Refusal) (s : State) :
    Host.Outcome State Fault Refusal :=
  if s.inputs.turn = .audio ∧ s.tickPhase ≠ .first then run .tick s else fetchAndRun run s

/-- One step of the machine of configuration `c` whose operations `run` performs: a reset where the
reset input is asserted (70 R432), else one atomic step of the context that moves (20_memory R92); then
the outside world's next values (log 9, log 11, log 13). -/
def stepWith (c : Cfg) (run : Instr → State → Host.Outcome State Fault Refusal) (s : State) :
    Host.Outcome State Fault Refusal :=
  if s.inputs.resetIn then .next (s.resetNow c).nextInputs
  else Outcome.mapNext State.nextInputs (atomicStep run s)

/-- The context on whose port a test places an operation: the one that may issue it, and audio for
words that spell none (log 18). -/
def placingContext (words : List Word) : Context :=
  match decodeOp words with
  | .op i _ => i.context
  | .illegal _ _ => .audio
  | .incomplete => .audio

/-- An operation placed at the head of its context's port, that context to move, no tick under way and
the reset input released (log 18). -/
def placeWords (words : List Word) (s : State) : State :=
  let c := placingContext words
  let s := { s with tickPhase := .first, inputs := { s.inputs with turn := c, resetIn := false } }
  s.setPort c (words ++ s.port c)

end Sys2Proof.Machine
end

