-- ==== Sys2Proof/Machine/Step.lean ====
section
/-! DEFINITION. One step of the machine under its own configuration, and an operation placed where the
next step takes it. -/

namespace Sys2Proof.Machine

/-- One step (20_memory R92, 70 R432). -/
def step (s : State) : Host.Outcome State Fault Refusal := stepWith Config.cfg exec s

/-- The instruction with bits `w` stored where the next step takes it (log 18). -/
def State.withFetchWord (s : State) (nbits w : Nat) : State := placeWords (tableWords nbits w) s

end Sys2Proof.Machine
end

