-- ==== Sys2Proof/Machine/Perform.lean ====
section
/-! DEFINITION. The machine under any configuration: "A model takes `Cfg` as an argument" (00_scope R7).
`exec` and `step` are it at the machine's own configuration, about which nothing is known but the
constraints of R7; a statement with a premise on the configuration speaks of this one. -/

namespace Sys2Proof.Machine

/-- What each operation does where it is performed. -/
def perform (c : Cfg) (i : Instr) (s : State) : State :=
  match i with
  | .sinReset sel => sinReset sel s
  | .sinStep sel freq => sinStepOp c sel freq s
  | .oscReset => oscReset s
  | .oscProc idx pitch p1 p2 p3 => oscProcOp c idx pitch p1 p2 p3 s
  | .fmReset => fmReset s
  | .fmStep var pitch p1 p2 p3 => fmStepOp c (selBool var) pitch p1 p2 p3 s
  | .wfFold amt x => wfFoldOp c amt x s
  | .bqReset => bqReset s
  | .bqSetc k value => bqSetc k value s
  | .bqStep x => bqStepOp c x s
  | .envReset => envReset s
  | .envGate g => envGate (selBool g) s
  | .envSeta a => envSeta a s
  | .envSetr r => envSetr r s
  | .envStep => envStepOp c s
  | .vNoteon freq velocity => vNoteon c freq velocity s
  | .vNoteoff => vNoteoff s
  | .vProc => vProcOp c s
  | .vIsplay => vIsplayOp s
  | .vSetalg idx => vSetalg c idx s
  | .vSetp1 value => vSetp1 value s
  | .vSetp2 value => vSetp2 value s
  | .vSetwf value => vSetwf value s
  | .vSetatk value => envSeta value s
  | .vSetrel value => envSetr value s
  | .vSetrvs value => vSetrvs value s
  | .vSetrvl value => vSetrvl value s
  | .vSetmg value => vSetmg value s
  | .vSetfreq freq => vSetfreq c freq s
  | .chPwr snap => chPwr snap s
  | .chPrd => chPrdOp s
  | .chSwr audioOk underruns => chSwr (selBool audioOk) underruns s
  | .chSrd => chSrdOp s
  | .tick => tickSubStep c s

/-- `exec` under a configuration: an operation is issued, on its own port it is performed. -/
def execUnder (c : Cfg) (i : Instr) (s : State) : Host.Outcome State Fault Refusal :=
  issue i.wellFormed i.context s (perform c i)

/-- `step` under a configuration. -/
def stepUnder (c : Cfg) (s : State) : Host.Outcome State Fault Refusal := stepWith c (execUnder c) s

end Sys2Proof.Machine
end

