-- ==== Sys2Proof/Machine/Pseudo.lean ====
section
/-! DEFINITION. The assembler's pseudo-operations as the operations they expand to (30_encoding R126),
and performing a list of operations in one context. -/

namespace Sys2Proof.Machine

/-- `BQ.ONEPOLE a`; the assembler computes the two values under `n` (R126, 43_biquad_iir R235). -/
def bqOnepole (n : Numerics) (a : F32) : List Instr :=
  [.bqSetc 0 (n.fsub fOne a), .bqSetc 1 fZero, .bqSetc 2 fZero, .bqSetc 3 (n.fsub fZero a),
    .bqSetc 4 fZero]

/-- `BQ.BYPASS` (R126). -/
def bqBypass : List Instr :=
  [.bqSetc 0 fOne, .bqSetc 1 fZero, .bqSetc 2 fZero, .bqSetc 3 fZero, .bqSetc 4 fZero]

/-- `REPEAT n` of the enclosed operations (R126). -/
def repeatOps (n : Nat) (ops : List Instr) : List Instr := (List.replicate n ops).flatten

/-- `V.PROCN n` (R126). -/
def vProcN (n : Nat) : List Instr := repeatOps n [.vProc]

/-- Operations performed one after another by the context that moves (20_memory R92 a). -/
def execAll : List Instr → State → Host.Outcome State Fault Refusal
  | [], s => .next s
  | i :: rest, s =>
    match exec i s with
    | .next t => execAll rest t
    | .fault r => .fault r
    | .refused r => .refused r

end Sys2Proof.Machine
end

