-- ==== Sys2Proof/Safety.lean ====
section
/-! DEFINITION. What a safe state and a safe run are, in the terms the statements use: the invariants
of 10_state R47, the unflagged states of 60_exceptions R395, and the context that moves. -/

namespace Sys2Proof.Machine

/-- In [0, 1), as a phase accumulator (R15). -/
abbrev inPhase (a : F32) : Prop := fle fZero a = true ∧ flt a fOne = true

/-- In [−1, 1]. -/
abbrev inSignal (a : F32) : Prop := fle (fabs a) fOne = true

/-- I-PHASE (R47): every phase accumulator is in [0, 1). -/
def State.PhaseInv (s : State) : Prop :=
  inPhase s.sin.phase0 ∧ inPhase s.sin.phase1 ∧ inPhase s.fm.cphase ∧ inPhase s.fm.mphase ∧
    inPhase s.t.sqPhase

/-- I-PREV (R47). -/
def State.PrevInv (s : State) : Prop := inSignal s.fm.prev

/-- I-ENV (R47), with the report of 44 R259 c: a high gate reports playing. -/
def State.EnvInv (s : State) : Prop :=
  unitRange s.env.level ∧ unitRange s.env.atk ∧ unitRange s.env.rel ∧
    (s.env.gate = true → s.env.active = true)

/-- I-VOICE (R47): every voice register holds a legal value of R39. -/
def State.VoiceInv (c : Cfg) (s : State) : Prop :=
  fle fZero s.v.freq = true ∧ fle s.v.freq c.nyq = true ∧ s.v.alg.toNat < c.nAlg ∧
    unitRange s.v.p1 ∧ unitRange s.v.p2 ∧ s.v.p3 = fHalf ∧ unitRange s.v.wf ∧ unitRange s.v.mg ∧
    unitRange s.v.vel ∧ unitRange s.v.rvSize ∧ unitRange s.v.rvLevel

/-- The invariants of R47 that hold whatever the operands are. -/
def State.Inv (c : Cfg) (s : State) : Prop := s.PhaseInv ∧ s.PrevInv ∧ s.EnvInv ∧ s.VoiceInv c

/-- The state before frame `k` of a tick's block, from the state after step 6 (46 R352). -/
def frameState (c : Cfg) (s : State) (k : Nat) : State :=
  Nat.iterate (fun u => (tickFrame c u).2) k (tickControl c s)

/-- The delay registers of the biquad are finite (R37, I-BQ of R47). -/
def BiquadUnit.DelaysFinite (u : BiquadUnit) : Prop :=
  isFinite u.x1 = true ∧ isFinite u.x2 = true ∧ isFinite u.y1 = true ∧ isFinite u.y2 = true

/-- The f32 registers other than the biquad's coefficients, `t.cur` and the channel slots (47 R361). -/
def State.ownRegisters (s : State) : List F32 :=
  [s.sin.phase0, s.sin.phase1, s.fm.cphase, s.fm.mphase, s.fm.prev, s.bq.x1, s.bq.x2, s.bq.y1, s.bq.y2,
    s.env.level, s.env.atk, s.env.rel, s.v.freq, s.v.p1, s.v.p2, s.v.p3, s.v.wf, s.v.mg, s.v.vel,
    s.v.rvSize, s.v.rvLevel, s.t.sqPhase]

/-- No sticky flag is set (R395): the premise under which a run is a run the document speaks of (93
U1, U2). -/
def State.Unflagged (s : State) : Prop :=
  s.fault.illegal = false ∧ s.fault.ctx = false ∧ s.fault.nonfinite = false ∧ s.fault.guard = false

/-- A flag that is 1 stays 1 (I-STICKY, R47). -/
def StickyFlags.Kept (before after : StickyFlags) : Prop :=
  (before.illegal = true → after.illegal = true) ∧ (before.ctx = true → after.ctx = true) ∧
    (before.nonfinite = true → after.nonfinite = true) ∧ (before.guard = true → after.guard = true)

/-- The state with the given context about to move. -/
def State.onPort (s : State) (c : Context) : State := { s with inputs := { s.inputs with turn := c } }

/-- The registers of the audio context alone (60 R401: R34 to R41 and R44), its sub-step, its port and
its result port, and the blocks it has emitted, are the same in two states. -/
def State.SameAudio (s t : State) : Prop :=
  t.sin = s.sin ∧ t.fm = s.fm ∧ t.bq = s.bq ∧ t.env = s.env ∧ t.v = s.v ∧ t.rev = s.rev ∧ t.t = s.t ∧
    t.tickPhase = s.tickPhase ∧ t.resA = s.resA ∧ t.audioOut = s.audioOut

end Sys2Proof.Machine
end

