-- ==== Sys2Proof/Certificates/Slice0/Obligations.lean ====
section
/-! DEFINITION. The statements of this model: what each operation does (every register not named in a
record update is unchanged), what the decoder, a step, reset and the tick do, and the properties the
document states of them. "The audio port" is the port of the context that moves. -/

open Sys2Proof Sys2Proof.Machine

/-! ## Encoding (30_encoding, 20_memory R88) -/

/-- 30_encoding R110 to R116: decoding the words of an operation gives it back, with every operand and
every legal `sel`, and leaves the words that follow. -/
def Obligations.DecodeEncodeRoundTrip : Prop :=
  ∀ (i : Instr) (rest : List Word), i.wellFormed = true → decodeOp (encode i ++ rest) = .op i rest

/-- 30_encoding R110 to R116: words decode to an operation only if they begin with its encoding, so
every operation has exactly one spelling, and it is a legal one. -/
def Obligations.DecodedWordsAreTheEncoding : Prop :=
  ∀ (ws : List Word) (i : Instr) (rest : List Word), decodeOp ws = .op i rest →
    i.wellFormed = true ∧ ws = encode i ++ rest

/-- 30_encoding R127, an inference the spec marks as its own: the worked encodings, decoded. -/
def Obligations.WorkedEncodings : Prop :=
  decodeOp [0x60000002, 0x463B8000, 0x3F800000] = .op (.vNoteon 0x463B8000 0x3F800000) [] ∧
  decodeOp [0x11000001, 0x45BB8000] = .op (.sinStep 0 0x45BB8000) [] ∧
  decodeOp [0x19C80004, 0x45BB8000, 0x3F000000, 0x3F000000, 0x3F000000] =
    .op (.oscProc 200 0x45BB8000 0x3F000000 0x3F000000 0x3F000000) [] ∧
  decodeOp [0x41030001, 0xBF600000] = .op (.bqSetc 3 0xBF600000) [] ∧
  decodeOp [0x51010000] = .op (.envGate 1) [] ∧
  decodeOp [0x64010000] = .op (.vSetalg 1) [] ∧
  decodeOp [0x72010001, 0x00000007] = .op (.chSwr 1 7) [] ∧
  decodeOp [0x78000000] = .op .tick [] ∧
  (∀ x, decodeOp [0x11020001, x] = .illegal .selOutOfRange []) ∧
  (∀ x, decodeOp [0x62000001, x] = .illegal .wrongOperandCount []) ∧
  decodeOp [0x00000000] = .illegal .unassignedOpcode []

/-- 20_memory R88: a word is four bytes, the least significant first, and a serialised stream of words
reads back as the words. -/
def Obligations.SerialisedStreamRoundTrip : Prop :=
  (∀ b3 b2 b1 b0 : BitVec 8, wordBytes (b3 ++ b2 ++ b1 ++ b0) = [b0, b1, b2, b3]) ∧
  ∀ ws : List Word, wordsOfBytes (ws.flatMap wordBytes) = some ws

/-! ## Steps (46_task_scheduler_fifo R331, R332; 60_exceptions R390 to R402; 70_reset_and_hazards) -/

/-- 46 R332, 20_memory R92: outside reset, a context that is not inside a TICK takes the operation at
the head of its port and performs it, and the audio context goes on with the sub-steps of a TICK it has
begun (R340) before it takes another; then the outside world's next values arrive (log 9, log 10). -/
def Obligations.StepRunsTheDecodedOperation : Prop :=
  (∀ (s : State) (i : Instr) (rest : List Word), s.inputs.resetIn = false →
    (s.inputs.turn = .audio → s.tickPhase = .first) →
    decodeOp (s.port s.inputs.turn) = .op i rest →
    step s = Outcome.mapNext State.nextInputs (exec i (s.setPort s.inputs.turn rest))) ∧
  ∀ s : State, s.inputs.resetIn = false → s.inputs.turn = .audio → s.tickPhase ≠ .first →
    step s = Outcome.mapNext State.nextInputs (exec .tick s)

/-- 30_encoding R124: where the head operation's words have not all arrived nothing happens but the
outside world's next values (log 9, log 10). -/
def Obligations.IncompleteOperationWaits : Prop :=
  ∀ s : State, s.inputs.resetIn = false → (s.inputs.turn = .audio → s.tickPhase = .first) →
    (s.port s.inputs.turn = [] ∨ ∃ h tail, s.port s.inputs.turn = h :: tail ∧
      tail.length < (h.extractLsb' 0 8).toNat) →
    step s = .next s.nextInputs

/-- 30_encoding R120: an unassigned opcode, a nonzero reserved field, a wrong operand count or a `sel`
outside the operation's range: the header and its operand words are consumed, `fault.illegal` is set,
and nothing else changes. -/
def Obligations.IllegalOperationOnlySetsItsFlag : Prop :=
  ∀ (s : State) (h : Word) (operands rest : List Word), s.inputs.resetIn = false →
    (s.inputs.turn = .audio → s.tickPhase = .first) →
    s.port s.inputs.turn = h :: (operands ++ rest) →
    operands.length = (h.extractLsb' 0 8).toNat →
    ((∀ i : Instr, i.opcode ≠ h.extractLsb' 24 8) ∨ h.extractLsb' 8 8 ≠ 0#8 ∨
      (∃ i : Instr, i.opcode = h.extractLsb' 24 8 ∧ i.operands.length ≠ operands.length) ∨
      (∀ i : Instr, i.opcode = h.extractLsb' 24 8 → i.sel = h.extractLsb' 16 8 →
        i.wellFormed = false)) →
    step s = .next (State.nextInputs
      { s.setPort s.inputs.turn rest with fault := { s.fault with illegal := true } })

/-- 60_exceptions R402: the control context may issue CH.PWR and CH.SRD and nothing else, the audio
context everything else; a legal operation on the other context's port is consumed with its operand
words, sets `fault.ctx`, and does nothing else. The check comes after decoding (R397): an operation
whose `sel` is out of range sets `fault.illegal` only, on either port. -/
def Obligations.WrongPortOnlySetsItsFlag : Prop :=
  (∀ i : Instr, i.context = .control ↔ ((∃ p, i = .chPwr p) ∨ i = .chSrd)) ∧
  (∀ (i : Instr) (s : State), i.wellFormed = true → s.inputs.turn ≠ i.context →
    exec i s = .next { s with fault := { s.fault with ctx := true } }) ∧
  (∀ (i : Instr) (s : State), i.wellFormed = false →
    exec i s = .next { s with fault := { s.fault with illegal := true } }) ∧
  ∀ (i : Instr) (s : State) (rest : List Word), i.wellFormed = true → s.inputs.resetIn = false →
    (s.inputs.turn = .audio → s.tickPhase = .first) → s.inputs.turn ≠ i.context →
    s.port s.inputs.turn = encode i ++ rest →
    step s = .next (State.nextInputs
      { s.setPort s.inputs.turn rest with fault := { s.fault with ctx := true } })

/-- 60_exceptions R390: every operation, on every state and either port, completes, and so does every
step of the machine. -/
def Obligations.NoOperationTraps : Prop :=
  (∀ (i : Instr) (s : State), ∃ t, exec i s = .next t) ∧ ∀ s : State, ∃ t, step s = .next t

/-- 60_exceptions R394: no operation clears a sticky flag, and no step without the reset input does. -/
def Obligations.FlagsStaySet : Prop :=
  (∀ (i : Instr) (s t : State), exec i s = .next t → s.fault.Kept t.fault) ∧
  ∀ s t : State, s.inputs.resetIn = false → step s = .next t → s.fault.Kept t.fault

/-- 10_state R31, 60_exceptions R406: a step of the control context changes no register of the audio
context, not its result port, and not the two flags only the audio context can cause; a step of the
audio context takes nothing from the control port and appends nothing to its result port. -/
def Obligations.ContextsShareOnlyTheChannels : Prop :=
  (∀ s t : State, s.inputs.resetIn = false → s.inputs.turn = .control → step s = .next t →
    s.SameAudio t ∧ t.portA = s.portA ++ (Config.arrivals s.draws).1 ∧
      t.fault.nonfinite = s.fault.nonfinite ∧ t.fault.guard = s.fault.guard) ∧
  ∀ s t : State, s.inputs.resetIn = false → s.inputs.turn = .audio → step s = .next t →
    t.resC = s.resC ∧ (∃ words, t.portC = s.portC ++ words)

/-- 10_state R34 to R44, 46 R336 to R339: each register changes in the operations its rules name and in no
others: the voice's, the envelope's, the generators', the biquad's, the reverb pair, the channels, the
registers of the tick, `fault.nonfinite` and `fault.guard`. -/
def Obligations.OnlyTheNamedOperationsWrite : Prop :=
  ∀ (i : Instr) (s t : State), exec i s = .next t →
    (t.v.p3 = s.v.p3 ∧ t.t.audioOk = s.t.audioOk) ∧
    (t.v.freq ≠ s.v.freq → i = .tick ∨ (∃ x, i = .vSetfreq x) ∨ ∃ f x, i = .vNoteon f x) ∧
    (t.v.alg ≠ s.v.alg → i = .tick ∨ ∃ a, i = .vSetalg a) ∧
    (t.v.p1 ≠ s.v.p1 → i = .tick ∨ ∃ x, i = .vSetp1 x) ∧
    (t.v.p2 ≠ s.v.p2 → i = .tick ∨ ∃ x, i = .vSetp2 x) ∧
    (t.v.wf ≠ s.v.wf → ∃ x, i = .vSetwf x) ∧
    (t.v.mg ≠ s.v.mg → i = .tick ∨ ∃ x, i = .vSetmg x) ∧
    (t.v.vel ≠ s.v.vel → i = .tick ∨ ∃ f x, i = .vNoteon f x) ∧
    (t.v.gate ≠ s.v.gate → i = .tick ∨ i = .vNoteoff ∨ ∃ f x, i = .vNoteon f x) ∧
    (t.v.playing ≠ s.v.playing → i = .tick ∨ i = .vProc ∨ ∃ f x, i = .vNoteon f x) ∧
    (t.v.rvSize ≠ s.v.rvSize → i = .tick ∨ ∃ x, i = .vSetrvs x) ∧
    (t.v.rvLevel ≠ s.v.rvLevel → i = .tick ∨ ∃ x, i = .vSetrvl x) ∧
    (t.rev ≠ s.rev → i = .tick ∨ i = .vProc ∨ ∃ f x, i = .vNoteon f x) ∧
    (t.env.atk ≠ s.env.atk → i = .tick ∨ (∃ x, i = .envSeta x) ∨ ∃ x, i = .vSetatk x) ∧
    (t.env.rel ≠ s.env.rel → i = .tick ∨ (∃ x, i = .envSetr x) ∨ ∃ x, i = .vSetrel x) ∧
    (t.env.gate ≠ s.env.gate → i = .tick ∨ i = .envReset ∨ (∃ g, i = .envGate g) ∨ i = .vNoteoff ∨
      ∃ f x, i = .vNoteon f x) ∧
    (t.env.level ≠ s.env.level → i = .tick ∨ i = .envReset ∨ i = .envStep ∨ i = .vProc ∨
      ∃ f x, i = .vNoteon f x) ∧
    (t.env.active ≠ s.env.active → i = .tick ∨ i = .envReset ∨ (∃ g, i = .envGate g) ∨ i = .envStep ∨
      i = .vProc ∨ ∃ f x, i = .vNoteon f x) ∧
    (t.sin.phase0 ≠ s.sin.phase0 → i = .tick ∨ i = .sinReset 0 ∨ (∃ f, i = .sinStep 0 f) ∨
      i = .oscReset ∨ (∃ a f x y z, i = .oscProc a f x y z) ∨ (∃ a, i = .vSetalg a) ∨ i = .vProc ∨
      ∃ f x, i = .vNoteon f x) ∧
    (t.sin.phase1 ≠ s.sin.phase1 → i = .tick ∨ i = .sinReset 1 ∨ ∃ f, i = .sinStep 1 f) ∧
    (t.fm ≠ s.fm → i = .tick ∨ i = .fmReset ∨ (∃ a f x y z, i = .fmStep a f x y z) ∨ i = .oscReset ∨
      (∃ a f x y z, i = .oscProc a f x y z) ∨ (∃ a, i = .vSetalg a) ∨ i = .vProc ∨
      ∃ f x, i = .vNoteon f x) ∧
    ((t.bq.b0, t.bq.b1, t.bq.b2, t.bq.a1, t.bq.a2) ≠ (s.bq.b0, s.bq.b1, s.bq.b2, s.bq.a1, s.bq.a2) →
      ∃ k x, i = .bqSetc k x) ∧
    ((t.bq.x1, t.bq.x2, t.bq.y1, t.bq.y2) ≠ (s.bq.x1, s.bq.x2, s.bq.y1, s.bq.y2) →
      i = .tick ∨ i = .bqReset ∨ ∃ x, i = .bqStep x) ∧
    (t.t.cur ≠ s.t.cur → i = .tick ∨ i = .chPrd) ∧
    (t.chP.slot ≠ s.chP.slot → ∃ p, i = .chPwr p) ∧
    (t.chP.fresh ≠ s.chP.fresh → i = .tick ∨ i = .chPrd ∨ ∃ p, i = .chPwr p) ∧
    (t.chS.slot ≠ s.chS.slot → i = .tick ∨ ∃ ok u, i = .chSwr ok u) ∧
    (t.chS.fresh ≠ s.chS.fresh → i = .tick ∨ i = .chSrd ∨ ∃ ok u, i = .chSwr ok u) ∧
    (t.fault.nonfinite ≠ s.fault.nonfinite → i = .tick ∨ (∃ k f, i = .sinStep k f) ∨
      (∃ a f x y z, i = .oscProc a f x y z) ∨ (∃ a f x y z, i = .fmStep a f x y z) ∨
      (∃ a x, i = .wfFold a x) ∨ (∃ x, i = .bqStep x) ∨ i = .vProc) ∧
    ((t.fault.guard, t.audioOut, t.t.gateOut, t.t.underruns, t.t.lastGate, t.t.lastAlg, t.t.sqPhase) ≠
      (s.fault.guard, s.audioOut, s.t.gateOut, s.t.underruns, s.t.lastGate, s.t.lastAlg,
        s.t.sqPhase) → i = .tick)

/-! ## Reset (10_state R62, 70_reset_and_hazards R430, R432) -/

/-- 10_state R62: every register S0 to S47 at its reset value, both result ports empty. -/
def Obligations.ResetLeavesTheTable : Prop :=
  ∀ (c : Cfg) (inp : Inputs) (n : Nat) (s : State), s = State.resetWith c inp n →
    (s.sin.phase0 = 0x00000000#32 ∧ s.sin.phase1 = 0x00000000#32) ∧
    (s.fm.cphase = 0x00000000#32 ∧ s.fm.mphase = 0x00000000#32 ∧ s.fm.prev = 0x00000000#32) ∧
    (s.bq.b0 = c.num.fsub 0x3F800000#32 c.pitchSmooth ∧ s.bq.b1 = 0x00000000#32 ∧
      s.bq.b2 = 0x00000000#32 ∧ s.bq.a1 = c.num.fsub 0x00000000#32 c.pitchSmooth ∧
      s.bq.a2 = 0x00000000#32) ∧
    (s.bq.x1 = 0x00000000#32 ∧ s.bq.x2 = 0x00000000#32 ∧ s.bq.y1 = 0x00000000#32 ∧
      s.bq.y2 = 0x00000000#32) ∧
    (s.env.level = 0x00000000#32 ∧ s.env.gate = false ∧ s.env.active = false ∧
      s.env.atk = 0x00000000#32 ∧ s.env.rel = 0x00000000#32) ∧
    (s.v.freq = 0x00000000#32 ∧ s.v.alg = 0#8 ∧ s.v.p1 = 0x3F000000#32 ∧ s.v.p2 = 0x3F000000#32 ∧
      s.v.p3 = 0x3F000000#32 ∧ s.v.wf = 0x00000000#32 ∧ s.v.mg = 0x3F800000#32 ∧
      s.v.vel = 0x00000000#32 ∧ s.v.gate = false ∧ s.v.playing = false ∧
      s.v.rvSize = 0x00000000#32 ∧ s.v.rvLevel = 0x00000000#32) ∧
    (s.rev.left = c.reverb.reset ∧ s.rev.right = c.reverb.reset) ∧
    (s.t.cur = ⟨0#8, 0#32, 0#32, 0#32, 0#32, 0#32, 0#32, 0#32, 0#32, 0#32, 0#32, 0#32, 0#32, 0#32⟩ ∧
      s.t.lastGate = false ∧ s.t.lastAlg = 0#8 ∧ s.t.sqPhase = 0x00000000#32 ∧
      s.t.underruns = 0#32 ∧ s.t.audioOk = inp.audioInitOk ∧ s.t.gateOut = true) ∧
    (s.chP.slot = s.t.cur ∧ s.chP.fresh = false ∧ s.chS.slot = ⟨0#32, inp.audioInitOk⟩ ∧
      s.chS.fresh = false) ∧
    (s.fault.illegal = false ∧ s.fault.ctx = false ∧ s.fault.nonfinite = false ∧
      s.fault.guard = false) ∧
    s.resA = [] ∧ s.resC = []

/-- 70_reset_and_hazards R432: a step under the reset input leaves the reset state whatever the
state was before, between the sub-steps of a TICK too: every register of R62 holds the value it
holds at reset with the pin as now sampled, words presented before are discarded, and no TICK is
under way. -/
def Obligations.ResetStepForgetsTheRun : Prop :=
  ∀ s : State, s.inputs.resetIn = true → ∃ t, step s = .next t ∧
    (∀ r, r = State.resetWith Config.cfg s.inputs 0 →
      t.sin = r.sin ∧ t.fm = r.fm ∧ t.bq = r.bq ∧ t.env = r.env ∧ t.v = r.v ∧ t.rev = r.rev ∧
        t.t = r.t ∧ t.chP = r.chP ∧ t.chS = r.chS ∧ t.fault = r.fault) ∧
    t.t.audioOk = s.inputs.audioInitOk ∧ t.chS.slot.audioOk = s.inputs.audioInitOk ∧
    t.fault = ⟨false, false, false, false⟩ ∧ t.t.underruns = 0 ∧ t.v.playing = false ∧
    t.chP.fresh = false ∧ t.chS.fresh = false ∧ t.tickPhase = .first ∧ t.resA = [] ∧ t.resC = [] ∧
    t.portA = (Config.arrivals s.draws).1 ∧ t.portC = (Config.arrivals s.draws).2

/-! ## Shared arithmetic (00_scope R12 to R16) -/

/-- 00_scope R14: the clamp between finite bounds: a NaN and −infinity go to the lower bound, +infinity
to the upper, a value between the bounds is returned bit for bit, and the result is always between. -/
def Obligations.ClampAnswersALegalValue : Prop :=
  ∀ x lo hi : F32, isFinite lo = true → isFinite hi = true → fle lo hi = true →
    clamp x lo hi = (if fle lo x = false then lo else if fle x hi = false then hi else x) ∧
    (fle lo (clamp x lo hi) = true ∧ fle (clamp x lo hi) hi = true) ∧
    (isNaN x = true → clamp x lo hi = lo) ∧
    clamp 0x7F800000#32 lo hi = hi ∧ clamp 0xFF800000#32 lo hi = lo ∧
    (fle lo x = true → fle x hi = true → clamp x lo hi = x) ∧
    (fle 0x00000000#32 hi = true → clamp 0x80000000#32 0x00000000#32 hi = 0x80000000#32) ∧
    clamp01 x = clamp x 0x00000000#32 0x3F800000#32

/-- 00_scope R12: FLOOR of a finite datum is the largest integral datum not above it, a datum being
integral when its value is a multiple of 2^149 in units of 2^−149; of a non-finite datum, itself. -/
def Obligations.FloorIsTheLargestIntegralBelow : Prop :=
  ∀ a : F32,
    (isFinite a = true → isFinite (ffloor a) = true ∧ fvalue (ffloor a) % 2 ^ 149 = 0 ∧
      fle (ffloor a) a = true ∧
      ∀ b : F32, isFinite b = true → fvalue b % 2 ^ 149 = 0 → fle b a = true →
        fle b (ffloor a) = true) ∧
    (isFinite a = false → ffloor a = a)

/-- 00_scope R15: the wrap of every datum, its flag, `advance(ph, f)` as the wrap of the phase plus the
increment, and both in [0, 1) for every pattern whatever, under every configuration. -/
def Obligations.AdvanceStaysInPhase : Prop :=
  ∀ (c : Cfg) (p ph f : F32),
    (wrap c p =
      if isFinite p = false then 0x00000000#32
      else
        let q := c.num.fsub p (ffloor p)
        if fle 0x3F800000#32 q = true ∨ flt q 0x00000000#32 = true then 0x00000000#32 else q) ∧
    advance c ph f = wrap c (c.num.fadd ph (c.num.fdiv f c.sampleRate)) ∧
    advanceFlags c ph f = !isFinite (c.num.fadd ph (c.num.fdiv f c.sampleRate)) ∧
    inPhase (wrap c p) ∧ inPhase (advance c ph f)

/-- 00_scope R16: the two remaps. For ordered positive ends, whether their quotient is finite or not: at a
control of 1.0 the exponential one gives the lower end times the quotient, unless that is a NaN; and where the
lower end is a normal number or the arithmetic keeps subnormals (log 2), the quotient is at least 1.0, a
control of 0.0 gives the lower end exactly, and every control a value from the lower end to the lower end
times the quotient. -/
def Obligations.RemapsAndTheirEnds : Prop :=
  ∀ (c : Cfg) (lo hi : F32),
    (∀ p, linmap c p lo hi = c.num.fadd lo (c.num.fmul (clamp01 p) (c.num.fsub hi lo)) ∧
      expmap c p lo hi = c.num.fmul lo (c.num.pow (c.num.fdiv hi lo) (clamp01 p))) ∧
    (posFinite lo → isFinite hi = true → fle lo hi = true →
      let q := c.num.fdiv hi lo
      (isNaN q = false → expmap c 0x3F800000#32 lo hi = c.num.fmul lo q) ∧
      ((2 ^ 23 ≤ fmag lo ∨ ∃ a : Arithmetic, c.num.Follows a ∧ a.KeepsSubnormals) →
        fle 0x3F800000#32 q = true ∧ expmap c 0x00000000#32 lo hi = lo ∧
        ∀ p, fle lo (expmap c p lo hi) = true ∧ fle (expmap c p lo hi) (c.num.fmul lo q) = true))

/-! ## Sine unit and dispatcher (40_sine_osc) -/

/-- 40_sine_osc R152, SIN.RESET: the named phase becomes 0.0; `sel ≥ 2` is illegal. -/
def Obligations.SinResetZeroesOnePhase : Prop :=
  ∀ (sel : U8) (s : State),
    encode (.sinReset sel) = [0x10#8 ++ sel ++ 0x00#8 ++ 0x00#8] ∧
    (s.inputs.turn = .audio → sel = 0 →
      exec (.sinReset sel) s = .next { s with sin := { s.sin with phase0 := 0x00000000#32 } }) ∧
    (s.inputs.turn = .audio → sel = 1 →
      exec (.sinReset sel) s = .next { s with sin := { s.sin with phase1 := 0x00000000#32 } }) ∧
    (2 ≤ sel.toNat →
      exec (.sinReset sel) s = .next { s with fault := { s.fault with illegal := true } })

/-- 40_sine_osc R153, SIN.STEP: the sample of the phase before the step is returned, the phase of
the named instance advances by one sample of `freq`, and a non-finite sum sets `fault.nonfinite`;
`sel ≥ 2` is illegal. -/
def Obligations.SinStepSamplesThenAdvances : Prop :=
  ∀ (sel : U8) (freq : F32) (s : State) (c : Cfg), c = Config.cfg →
    encode (.sinStep sel freq) = [0x11#8 ++ sel ++ 0x00#8 ++ 0x01#8, freq] ∧
    (s.inputs.turn = .audio → sel = 0 →
      exec (.sinStep sel freq) s = .next { s with
        sin := { s.sin with phase0 := advance c s.sin.phase0 freq }
        fault := { s.fault with nonfinite := s.fault.nonfinite || advanceFlags c s.sin.phase0 freq }
        resA := s.resA ++ [c.num.sin (c.num.fmul 0x40C90FDB#32 s.sin.phase0)] }) ∧
    (s.inputs.turn = .audio → sel = 1 →
      exec (.sinStep sel freq) s = .next { s with
        sin := { s.sin with phase1 := advance c s.sin.phase1 freq }
        fault := { s.fault with nonfinite := s.fault.nonfinite || advanceFlags c s.sin.phase1 freq }
        resA := s.resA ++ [c.num.sin (c.num.fmul 0x40C90FDB#32 s.sin.phase1)] }) ∧
    (2 ≤ sel.toNat →
      exec (.sinStep sel freq) s = .next { s with fault := { s.fault with illegal := true } })

/-- 40_sine_osc R156, 41_fm_modulator R182, FM.RESET and OSC.RESET: the FM registers alone become 0.0, or
the fallback phase and the FM registers; the calibration phase, the envelope, the voice and the biquad
are untouched. R156 also pulses the reset line of the EXTERNAL generators; that it changes nothing else
here is the model's choice, which keeps no state for them (log 8). -/
def Obligations.GeneratorResetsZeroTheirPhases : Prop :=
  ∀ s : State, (encode .oscReset = [0x18000000#32] ∧ encode .fmReset = [0x20000000#32]) ∧
    (s.inputs.turn = .audio → exec .fmReset s = .next { s with
      fm := { cphase := 0x00000000#32, mphase := 0x00000000#32, prev := 0x00000000#32 } }) ∧
    (s.inputs.turn = .audio → exec .oscReset s = .next { s with
      sin := { s.sin with phase0 := 0x00000000#32 }
      fm := ⟨0x00000000#32, 0x00000000#32, 0x00000000#32⟩ })

/-- 40_sine_osc R157, OSC.PROC: the generator that `idx` selects is stepped and its pair returned,
primary then secondary; the fallback's secondary equals its primary. For an EXTERNAL slot the model
takes the pair as a draw of two finite data (R158, log 8). -/
def Obligations.OscProcStepsTheSelectedGenerator : Prop :=
  ∀ (idx : U8) (pitch p1 p2 p3 : F32) (s : State) (c : Cfg), c = Config.cfg →
    encode (.oscProc idx pitch p1 p2 p3) = [0x19#8 ++ idx ++ 0x00#8 ++ 0x04#8, pitch, p1, p2, p3] ∧
    (s.inputs.turn = .audio →
      if c.nAlg ≤ idx.toNat then
        exec (.oscProc idx pitch p1 p2 p3) s = .next { s with
          sin := { s.sin with phase0 := advance c s.sin.phase0 pitch }
          fault := { s.fault with nonfinite := s.fault.nonfinite || advanceFlags c s.sin.phase0 pitch }
          resA := s.resA ++ [c.num.sin (c.num.fmul 0x40C90FDB#32 s.sin.phase0),
            c.num.sin (c.num.fmul 0x40C90FDB#32 s.sin.phase0)] }
      else
        match c.algMap idx with
        | .modfm => exec (.oscProc idx pitch p1 p2 p3) s = exec (.fmStep 0 pitch p1 p2 p3) s
        | .fbfm => exec (.oscProc idx pitch p1 p2 p3) s = exec (.fmStep 1 pitch p1 p2 p3) s
        | .external => ∃ a b, isFinite a = true ∧ isFinite b = true ∧
            exec (.oscProc idx pitch p1 p2 p3) s = .next { s with
              draws := s.draws + 1
              resA := s.resA ++ [a, b] })

/-- 40_sine_osc R159, 41_fm_modulator R185, inferences the spec marks as its own: both samples of
every generator inside the block are of magnitude at most 1.0, and finite, for every operand and
every state within the invariants; and for an FM index of at least 0.0 the exponent of `g` is at most 0.0
and `g` is `EXP` of it, unless the exponent is a NaN, which it is for no finite index, as R185 has it
(log 5). -/
def Obligations.InScopeGeneratorsStayBounded : Prop :=
  ∀ (c : Cfg) (idx : U8) (pitch p1 p2 p3 : F32) (s : State), s.Inv c →
    ((idx.toNat < c.nAlg → c.algMap idx ≠ .external) →
      inSignal (oscProc c idx pitch p1 p2 p3 s).1.1 ∧ inSignal (oscProc c idx pitch p1 p2 p3 s).1.2 ∧
      isFinite (oscProc c idx pitch p1 p2 p3 s).1.1 = true ∧
      isFinite (oscProc c idx pitch p1 p2 p3 s).1.2 = true) ∧
    let x := c.num.fmul (fmIndex c p1)
      (c.num.fsub (c.num.cos (c.num.fmul 0x40C90FDB#32 s.fm.mphase)) 0x3F800000#32)
    (isFinite (fmIndex c p1) = true → isNaN x = false) ∧
    (fle 0x00000000#32 (fmIndex c p1) = true → isNaN x = false →
      fle x 0x00000000#32 = true ∧ fmGain c (fmIndex c p1) s.fm.mphase = c.num.exp x)

/-! ## FM modulator (41_fm_modulator) -/

/-- 41_fm_modulator R183, FM.STEP: the pseudocode, both variants; `p3` is ignored; `var ≥ 2` is
illegal. That `g` is held to [0, 1] where its exponent is not at most 0.0, as R185 has it, is the model's
reading (log 5). -/
def Obligations.FmStepFollowsItsFormulas : Prop :=
  ∀ (var : U8) (pitch p1 p2 p3 : F32) (s : State) (c : Cfg) (n : Numerics), c = Config.cfg →
    n = c.num →
    encode (.fmStep var pitch p1 p2 p3) = [0x21#8 ++ var ++ 0x00#8 ++ 0x04#8, pitch, p1, p2, p3] ∧
    (s.inputs.turn = .audio → var.toNat < 2 →
      let index := expmap c p1 c.fmIndexMin c.fmIndexMax
      let ratio := if var = 0 then expmap c p2 c.fmRatioMin c.fmRatioMax else c.fmFbRatio
      let fb := if var = 0 then 0x00000000#32 else n.fmul (clamp01 p2) 0x3F733333#32
      let m := n.cos (n.fmul 0x40C90FDB#32 s.fm.mphase)
      let x := n.fmul index (n.fsub m 0x3F800000#32)
      let g := if fle x 0x00000000#32 then n.exp x else clamp01 (n.exp x)
      let ca := n.fmul 0x40C90FDB#32 s.fm.cphase
      let primary := n.fmul g (n.cos ca)
      let secondary := n.fmul g (n.sin ca)
      let feff := n.fadd pitch (n.fmul (n.fmul fb s.fm.prev) pitch)
      exec (.fmStep var pitch p1 p2 p3) s = .next { s with
        fm :=
          { cphase := advance c s.fm.cphase feff
            mphase := advance c s.fm.mphase (n.fmul pitch ratio)
            prev := primary }
        fault := { s.fault with nonfinite := s.fault.nonfinite ||
          (advanceFlags c s.fm.cphase feff || advanceFlags c s.fm.mphase (n.fmul pitch ratio)) }
        resA := s.resA ++ [primary, secondary] }) ∧
    (2 ≤ var.toNat →
      exec (.fmStep var pitch p1 p2 p3) s = .next { s with fault := { s.fault with illegal := true } })

/-- 41_fm_modulator R183, corner case 2: the first sample after FM.RESET is exactly (1.0, 0.0) for every
operand whose FM index is finite, as the corner case has it (log 5), in both variants, under every
configuration. -/
def Obligations.FmFirstSampleAfterReset : Prop :=
  ∀ (c : Cfg) (fbfm : Bool) (pitch p1 p2 p3 : F32) (s : State), isFinite (fmIndex c p1) = true →
    (fmStep c fbfm pitch p1 p2 p3 (fmReset s)).1 = (0x3F800000#32, 0x00000000#32)

/-- 41_fm_modulator R184, an inference the spec marks as its own: the feedback gain is 0.0 in MODFM
and `fmul(clamp01(p2), FM_FB_LIMIT)` in FBFM, and lies in [0, FM_FB_LIMIT] for every operand. -/
def Obligations.FmFeedbackIsBounded : Prop :=
  ∀ (c : Cfg) (p2 : F32), fmFeedback c false p2 = 0x00000000#32 ∧
    fmFeedback c true p2 = c.num.fmul (clamp01 p2) 0x3F733333#32 ∧
    ∀ fbfm, fle 0x00000000#32 (fmFeedback c fbfm p2) = true ∧
      fle (fmFeedback c fbfm p2) 0x3F733333#32 = true

/-! ## Wavefolder (42_wavefolder) -/

/-- 42_wavefolder R212, WF.FOLD: the pseudocode; the unit has no register. -/
def Obligations.WfFoldFollowsItsFormula : Prop :=
  ∀ (amt x : F32) (s : State) (c : Cfg) (n : Numerics), c = Config.cfg → n = c.num →
    encode (.wfFold amt x) = [0x30000002#32, amt, x] ∧
    (s.inputs.turn = .audio →
      let v := n.fmul x (n.fadd 0x3F800000#32 (n.fmul (clamp01 amt) c.wfDrive))
      let t := n.fsub v 0x3F800000#32
      let q := n.fsub t (n.fmul 0x40800000#32 (ffloor (n.fdiv t 0x40800000#32)))
      let r := n.fsub (fabs (n.fsub q 0x40000000#32)) 0x3F800000#32
      exec (.wfFold amt x) s = .next { s with
        fault := { s.fault with nonfinite := s.fault.nonfinite || !isFinite v }
        resA := s.resA ++ [if isFinite v = false then 0x00000000#32
          else if fle (fabs v) 0x3F800000#32 = true then v
          else clamp r 0xBF800000#32 0x3F800000#32] })

/-- 42_wavefolder R213, an inference the spec marks as its own: the result is finite and of
magnitude at most 1.0 for every operand pair; and at fold amount 0.0 a signal of magnitude at most 1.0
passes bit for bit, where it is no subnormal or the arithmetic keeps subnormals (log 2). -/
def Obligations.WfFoldAnswersASignal : Prop :=
  ∀ (c : Cfg) (amt x : F32),
    isFinite (wfValue c amt x) = true ∧ inSignal (wfValue c amt x) ∧
    (inSignal x → (fmag x = 0 ∨ 2 ^ 23 ≤ fmag x ∨
        ∃ a : Arithmetic, c.num.Follows a ∧ a.KeepsSubnormals) →
      wfValue c 0x00000000#32 x = x)

/-! ## Biquad (43_biquad_iir) -/

/-- 43_biquad_iir R232, R233, BQ.RESET and BQ.SETC: the delay registers become 0.0 and the coefficients
are not touched; the named coefficient takes the value as given; `k ≥ 5` is illegal. -/
def Obligations.BqResetAndSetc : Prop :=
  ∀ (k : U8) (value : F32) (s : State),
    (encode .bqReset = [0x40000000#32] ∧ encode (.bqSetc k value) = [0x41#8 ++ k ++ 0x00#8 ++ 0x01#8, value]) ∧
    (s.inputs.turn = .audio → exec .bqReset s = .next { s with bq := { s.bq with
      x1 := 0x00000000#32, x2 := 0x00000000#32, y1 := 0x00000000#32, y2 := 0x00000000#32 } }) ∧
    (s.inputs.turn = .audio → k = 0 →
      exec (.bqSetc k value) s = .next { s with bq := { s.bq with b0 := value } }) ∧
    (s.inputs.turn = .audio → k = 1 →
      exec (.bqSetc k value) s = .next { s with bq := { s.bq with b1 := value } }) ∧
    (s.inputs.turn = .audio → k = 2 →
      exec (.bqSetc k value) s = .next { s with bq := { s.bq with b2 := value } }) ∧
    (s.inputs.turn = .audio → k = 3 →
      exec (.bqSetc k value) s = .next { s with bq := { s.bq with a1 := value } }) ∧
    (s.inputs.turn = .audio → k = 4 →
      exec (.bqSetc k value) s = .next { s with bq := { s.bq with a2 := value } }) ∧
    (5 ≤ k.toNat →
      exec (.bqSetc k value) s = .next { s with fault := { s.fault with illegal := true } })

/-- 43_biquad_iir R234, R236, BQ.STEP: the difference equation accumulated left to right; a non-finite
sum answers 0.0, clears the delays and sets `fault.nonfinite`, a finite one moves the history on. -/
def Obligations.BqStepFiltersOrFlushes : Prop :=
  ∀ (x : F32) (s : State) (n : Numerics), n = Config.cfg.num →
    encode (.bqStep x) = [0x42000001#32, x] ∧
    (s.inputs.turn = .audio →
      let acc := n.fsub (n.fsub (n.fadd (n.fadd (n.fmul s.bq.b0 x) (n.fmul s.bq.b1 s.bq.x1))
        (n.fmul s.bq.b2 s.bq.x2)) (n.fmul s.bq.a1 s.bq.y1)) (n.fmul s.bq.a2 s.bq.y2)
      if isFinite acc = false then
        exec (.bqStep x) s = .next { s with
          bq := { s.bq with
            x1 := 0x00000000#32, x2 := 0x00000000#32, y1 := 0x00000000#32, y2 := 0x00000000#32 }
          fault := { s.fault with nonfinite := true }
          resA := s.resA ++ [0x00000000#32] }
      else
        exec (.bqStep x) s = .next { s with
          bq := { s.bq with x1 := x, x2 := s.bq.x1, y1 := acc, y2 := s.bq.y1 }
          resA := s.resA ++ [acc] })

/-- 10_state R37 (the flush that makes it so is 43_biquad_iir R236): the delay registers are always
finite: reset leaves them so, and every step from a state in which they are finite, whatever the
coefficients and operands, leaves them so. -/
def Obligations.BqDelaysStayFinite : Prop :=
  (∀ (c : Cfg) (inp : Inputs) (n : Nat), (State.resetWith c inp n).bq.DelaysFinite) ∧
  ∀ s t : State, s.bq.DelaysFinite → step s = .next t → t.bq.DelaysFinite

/-- 30_encoding R126, 43_biquad_iir R235: the five operations of `BQ.ONEPOLE PITCH_SMOOTH` leave the
coefficient file as reset leaves it and the delays as they were; those of `BQ.BYPASS` leave (1, 0, 0, 0,
0). -/
def Obligations.OnepoleRestoresResetCoefficients : Prop :=
  ∀ (s : State) (c : Cfg), c = Config.cfg → s.inputs.turn = .audio →
    execAll (bqOnepole c.num c.pitchSmooth) s = .next { s with bq := { s.bq with
      b0 := (State.resetWith c s.inputs 0).bq.b0, b1 := (State.resetWith c s.inputs 0).bq.b1
      b2 := (State.resetWith c s.inputs 0).bq.b2, a1 := (State.resetWith c s.inputs 0).bq.a1
      a2 := (State.resetWith c s.inputs 0).bq.a2 } } ∧
    execAll bqBypass s = .next { s with bq := { s.bq with
      b0 := 0x3F800000#32, b1 := 0x00000000#32, b2 := 0x00000000#32, a1 := 0x00000000#32
      a2 := 0x00000000#32 } }

/-! ## Envelope (44_envelope_follower) -/

/-- 44_envelope_follower R252, R253, ENV.RESET and ENV.GATE: the reset keeps the two settings;
raising the gate reports playing at once, lowering it changes only the gate; `g ≥ 2` is illegal. -/
def Obligations.EnvResetAndGate : Prop :=
  ∀ s : State, encode .envReset = [0x50000000#32] ∧ (∀ g, encode (.envGate g) = [0x51#8 ++ g ++ 0x00#8 ++ 0x00#8]) ∧
    (s.inputs.turn = .audio → exec .envReset s = .next { s with
      env := { s.env with level := 0x00000000#32, gate := false, active := false } }) ∧
    (s.inputs.turn = .audio → exec (.envGate 1) s = .next { s with
      env := { s.env with gate := true, active := true } }) ∧
    (s.inputs.turn = .audio → exec (.envGate 0) s = .next { s with env := { s.env with gate := false } }) ∧
    ∀ g : U8, 2 ≤ g.toNat →
      exec (.envGate g) s = .next { s with fault := { s.fault with illegal := true } }

/-- 44_envelope_follower R254, R255, 45_voice_engine R289, R290: ENV.SETA and V.SETATK store the clamped
attack, ENV.SETR and V.SETREL the clamped release, and nothing else. -/
def Obligations.EnvelopeSettersClamp : Prop :=
  ∀ (x : F32) (s : State),
    (encode (.envSeta x) = [0x52000001#32, x] ∧ encode (.envSetr x) = [0x53000001#32, x] ∧
      encode (.vSetatk x) = [0x68000001#32, x] ∧ encode (.vSetrel x) = [0x69000001#32, x]) ∧
    (s.inputs.turn = .audio →
      exec (.envSeta x) s = .next { s with env := { s.env with atk := clamp x 0x00000000#32 0x3F800000#32 } } ∧
      exec (.vSetatk x) s = .next { s with env := { s.env with atk := clamp x 0x00000000#32 0x3F800000#32 } } ∧
      exec (.envSetr x) s = .next { s with env := { s.env with rel := clamp x 0x00000000#32 0x3F800000#32 } } ∧
      exec (.vSetrel x) s = .next { s with env := { s.env with rel := clamp x 0x00000000#32 0x3F800000#32 } })

/-- 44_envelope_follower R256, ENV.STEP: the one-pole step toward the gate's target, clamped; the
new level is stored, judged against ENV_FLOOR and returned. -/
def Obligations.EnvStepApproachesItsTarget : Prop :=
  ∀ (s : State) (c : Cfg), c = Config.cfg → encode .envStep = [0x54000000#32] ∧
    (s.inputs.turn = .audio →
      let target := if s.env.gate then 0x3F800000#32 else 0x00000000#32
      let k := c.envCoef (if s.env.gate then s.env.atk else s.env.rel)
      let lvl := clamp (c.num.fadd s.env.level (c.num.fmul k (c.num.fsub target s.env.level)))
        0x00000000#32 0x3F800000#32
      exec .envStep s = .next { s with
        env := { s.env with level := lvl, active := s.env.gate || fle c.envFloor lvl }
        resA := s.resA ++ [lvl] })

/-- 44_envelope_follower R256, corner case 1 (the rounding is a premise, log 2): under the reference
rounding a setting of 0.0 is immediate: one step from any level in [0, 1] reaches exactly 1.0 with the
gate high and a zero with the gate low. -/
def Obligations.ImmediateEnvelopeReachesItsTarget : Prop :=
  ∀ (c : Cfg) (a : Arithmetic) (e : EnvelopeUnit), c.num.Follows a → a.rounding = .nearestEven →
    a.KeepsSubnormals → unitRange e.level →
    (e.gate = true → e.atk = 0x00000000#32 → envLevel c e = 0x3F800000#32) ∧
    (e.gate = false → e.rel = 0x00000000#32 → feq (envLevel c e) 0x00000000#32 = true)

/-! ## Voice Engine (45_voice_engine) -/

/-- 45_voice_engine R281, V.NOTEON: the clamped frequency and velocity are stored, the voice's gate and
playing bits rise, the generators and the envelope are reset, both reverb states become the reset state,
and the envelope's gate is raised. -/
def Obligations.NoteonStartsTheVoice : Prop :=
  ∀ (freq velocity : F32) (s : State) (c : Cfg), c = Config.cfg →
    encode (.vNoteon freq velocity) = [0x60000002#32, freq, velocity] ∧
    (s.inputs.turn = .audio → exec (.vNoteon freq velocity) s = .next { s with
      v := { s.v with
        freq := clamp freq 0x00000000#32 (c.num.fmul c.sampleRate 0x3F000000#32)
        vel := clamp velocity 0x00000000#32 0x3F800000#32
        gate := true
        playing := true }
      sin := { s.sin with phase0 := 0x00000000#32 }
      fm := { cphase := 0x00000000#32, mphase := 0x00000000#32, prev := 0x00000000#32 }
      env := { s.env with level := 0x00000000#32, gate := true, active := true }
      rev := { left := c.reverb.reset, right := c.reverb.reset } })

/-- 45_voice_engine R282, V.NOTEOFF: both gates fall, `v.playing` and `env.active` stay. -/
def Obligations.NoteoffLowersTheGates : Prop :=
  ∀ s : State, encode .vNoteoff = [0x61000000#32] ∧
    (s.inputs.turn = .audio → exec .vNoteoff s = .next { s with
      v := { s.v with gate := false }, env := { s.env with gate := false } })

/-- 45_voice_engine R283, V.PROC: silence and no change in Idle; in Playing the selected generator, the
fold gain, the wavefolder, the envelope, the four gains, the reverb insert and the auto-stop, in that
order; and no register but the fallback phase, the FM unit, the envelope's level and report, the reverb
states and `v.playing` may change. -/
def Obligations.VProcMakesOneFrame : Prop :=
  ∀ (s : State) (c : Cfg) (n : Numerics), c = Config.cfg → n = c.num →
    encode .vProc = [0x62000000#32] ∧
    (s.inputs.turn = .audio → s.v.playing = false →
      exec .vProc s = .next { s with resA := s.resA ++ [0x00000000#32, 0x00000000#32] }) ∧
    (s.inputs.turn = .audio → s.v.playing = true →
      let alg := s.v.alg
      let q1 := if (c.algInfo alg).p1Unused then 0x3F000000#32 else s.v.p1
      let q2 := if (c.algInfo alg).p2Unused then 0x3F000000#32 else s.v.p2
      let o := oscProc c alg s.v.freq q1 q2 s.v.p3 s
      let a2 := wfFold c s.v.wf (n.fmul o.1.1 (c.foldGain alg)) o.2
      let b2 := wfFold c s.v.wf (n.fmul o.1.2 (c.foldGain alg)) a2.2
      let e := envStep c b2.2
      let a3 := n.fmul (n.fmul (n.fmul (n.fmul a2.1 e.1) s.v.vel) s.v.mg) (c.outGain alg)
      let b3 := n.fmul (n.fmul (n.fmul (n.fmul b2.1 e.1) s.v.vel) s.v.mg) (c.outGain alg)
      let l := c.reverb.step s.rev.left a3 s.v.rvSize s.v.rvLevel
      let r := c.reverb.step s.rev.right b3 s.v.rvSize s.v.rvLevel
      let stops := !e.2.env.active && flt (fabs l.2) c.silenceFloor && flt (fabs r.2) c.silenceFloor
      exec .vProc s = .next { e.2 with
        rev := { left := l.1, right := r.1 }
        v := { s.v with playing := !stops }
        resA := s.resA ++ [l.2, r.2] }) ∧
    ∀ t, s.inputs.turn = .audio → exec .vProc s = .next t →
      ∃ ph u lvl act rv pl b d words, t = { s with
        sin := { s.sin with phase0 := ph }
        fm := u
        env := { s.env with level := lvl, active := act }
        rev := rv
        v := { s.v with playing := pl }
        fault := { s.fault with nonfinite := s.fault.nonfinite || b }
        resA := s.resA ++ words
        draws := d }

/-- 45_voice_engine R297: while the envelope's gate is high no V.PROC stops the voice. -/
def Obligations.GateHoldsOffTheAutoStop : Prop :=
  ∀ s : State, s.inputs.turn = .audio → s.v.playing = true → s.env.gate = true →
    ∃ t, exec .vProc s = .next t ∧ t.v.playing = true ∧ t.env.gate = true ∧ t.env.active = true

/-- 45_voice_engine R284, V.ISPLAY: the playing state as the word 0 or 1; no register changes. -/
def Obligations.IsplayReadsThePlayingState : Prop :=
  ∀ s : State, encode .vIsplay = [0x63000000#32] ∧
    (s.inputs.turn = .audio → exec .vIsplay s = .next { s with
      resA := s.resA ++ [if s.v.playing then 0x00000001#32 else 0x00000000#32] })

/-- 45_voice_engine R285, V.SETALG: a valid and different index is stored and every generator of the
dispatcher reset; any other index changes nothing and sets no flag. -/
def Obligations.SetalgSwitchesOrIgnores : Prop :=
  ∀ (idx : U8) (s : State) (c : Cfg), c = Config.cfg →
    encode (.vSetalg idx) = [0x64#8 ++ idx ++ 0x00#8 ++ 0x00#8] ∧
    (s.inputs.turn = .audio →
      if idx.toNat < c.nAlg ∧ idx ≠ s.v.alg then
        exec (.vSetalg idx) s = .next { s with
          v := { s.v with alg := idx }
          sin := { s.sin with phase0 := 0x00000000#32 }
          fm := { cphase := 0x00000000#32, mphase := 0x00000000#32, prev := 0x00000000#32 } }
      else exec (.vSetalg idx) s = .next s)

/-- 45_voice_engine R286 to R288, R291 to R294: each of the seven other setters stores its operand
clamped and nothing else. -/
def Obligations.VoiceSettersClamp : Prop :=
  ∀ (x : F32) (s : State) (c : Cfg), c = Config.cfg →
    (encode (.vSetp1 x) = [0x65000001#32, x] ∧ encode (.vSetp2 x) = [0x66000001#32, x] ∧
      encode (.vSetwf x) = [0x67000001#32, x] ∧ encode (.vSetrvs x) = [0x6A000001#32, x] ∧
      encode (.vSetrvl x) = [0x6B000001#32, x] ∧ encode (.vSetmg x) = [0x6C000001#32, x] ∧
      encode (.vSetfreq x) = [0x6D000001#32, x]) ∧
    (s.inputs.turn = .audio → ∀ y, y = clamp x 0x00000000#32 0x3F800000#32 →
      exec (.vSetp1 x) s = .next { s with v := { s.v with p1 := y } } ∧
      exec (.vSetp2 x) s = .next { s with v := { s.v with p2 := y } } ∧
      exec (.vSetwf x) s = .next { s with v := { s.v with wf := y } } ∧
      exec (.vSetrvs x) s = .next { s with v := { s.v with rvSize := y } } ∧
      exec (.vSetrvl x) s = .next { s with v := { s.v with rvLevel := y } } ∧
      exec (.vSetmg x) s = .next { s with v := { s.v with mg := y } } ∧
      exec (.vSetfreq x) s = .next { s with v := { s.v with
        freq := clamp x 0x00000000#32 (c.num.fmul c.sampleRate 0x3F000000#32) } })

/-- 45_voice_engine R280, under every configuration, the machine's among them: the voice leaves Idle only
by V.NOTEON, or by a TICK whose gate is high and was not, which is V.NOTEON's edge (46 R351); it leaves
Playing only by a V.PROC after which the auto-stop test holds, or by a TICK in normal mode in one of whose
frames that test holds after V.PROC (R297, 46 R352). -/
def Obligations.PlayingChangesOnlyByNoteonAndAutostop : Prop :=
  (∀ (i : Instr) (s : State), exec i s = execUnder Config.cfg i s) ∧
  ∀ (c : Cfg) (i : Instr) (s t : State), execUnder c i s = .next t →
    let p := s.t.cur
    let gate := s.inputs.gateIn || (fle p.attack 0x00000000#32 && fle p.decay 0x00000000#32)
    let last := s.t.lastGate && decide (p.algorithm = s.t.lastAlg)
    let stops := fun u : State => u.v.playing = true ∧ (vProc c u).2.env.active = false ∧
      flt (fabs (vProc c u).1.1) c.silenceFloor = true ∧
      flt (fabs (vProc c u).1.2) c.silenceFloor = true ∧ (vProc c u).2.v.playing = false
    (s.v.playing = false → t.v.playing = true → (∃ f x, i = .vNoteon f x) ∨
      (i = .tick ∧ s.tickPhase = .body ∧ gate = true ∧ last = false)) ∧
    (s.v.playing = true → t.v.playing = false → (i = .vProc ∧ stops s) ∨
      (i = .tick ∧ s.tickPhase = .body ∧ p.algorithm ≠ c.idxSelftest ∧ p.algorithm ≠ c.idxCaltone ∧
        ∃ k, k < c.blockFrames ∧ stops (frameState c s k)))

/-! ## Channels (20_memory R82 to R86, 46_task_scheduler_fifo R341 to R344) -/

/-- 46 R341, R342, CH.PWR and CH.PRD: the whole snapshot, unclamped, replaces the slot and sets the
fresh flag; the read moves a fresh snapshot to `t.cur`, clears the flag and appends the fifteen
words. -/
def Obligations.ParameterWriteAndRead : Prop :=
  ∀ (p : ParameterSnapshot) (s : State),
    encode .chPrd = [0x71000000#32] ∧
    encode (.chPwr p) = [0x70#8 ++ p.algorithm ++ 0x00#8 ++ 0x0D#8, p.attack, p.decay, p.reverbSize,
      p.reverbLevel, p.param1, p.param2, p.masterGain, p.cv0, p.cv1, p.cv2, p.pot0, p.pot1, p.pot2] ∧
    (s.inputs.turn = .control →
      exec (.chPwr p) s = .next { s with chP := { slot := p, fresh := true } }) ∧
    (s.inputs.turn = .audio → ∀ q, q = (if s.chP.fresh then s.chP.slot else s.t.cur) →
      exec .chPrd s = .next { s with
        t := { s.t with cur := q }
        chP := { s.chP with fresh := false }
        resA := s.resA ++ [if s.chP.fresh then 0x00000001#32 else 0x00000000#32,
          0x000000#24 ++ q.algorithm, q.attack, q.decay, q.reverbSize, q.reverbLevel, q.param1,
          q.param2, q.masterGain, q.cv0, q.cv1, q.cv2, q.pot0, q.pot1, q.pot2] })

/-- 46 R343, R344, CH.SWR and CH.SRD: the status given is published and read once as fresh; `sel ≥ 2` is
illegal. -/
def Obligations.StatusWriteAndRead : Prop :=
  ∀ (ok : U8) (u : Word) (s : State),
    (encode (.chSwr ok u) = [0x72#8 ++ ok ++ 0x00#8 ++ 0x01#8, u] ∧ encode .chSrd = [0x73000000#32]) ∧
    (s.inputs.turn = .audio → ok.toNat < 2 → exec (.chSwr ok u) s = .next { s with
      chS := { slot := { underruns := u, audioOk := decide (ok = 1) }, fresh := true } }) ∧
    (2 ≤ ok.toNat → exec (.chSwr ok u) s = .next { s with fault := { s.fault with illegal := true } }) ∧
    (s.inputs.turn = .control → exec .chSrd s = .next { s with
      chS := { s.chS with fresh := false }
      resC := s.resC ++ [if s.chS.fresh then 0x00000001#32 else 0x00000000#32, s.chS.slot.underruns,
        if s.chS.slot.audioOk then 0x00000001#32 else 0x00000000#32] })

/-- 20_memory R86, an inference the spec marks as its own: after any number of CH.PWR the next
CH.PRD reports fresh and delivers the newest snapshot only; the CH.PRD after it reports nothing new
and leaves `t.cur` as it is. -/
def Obligations.MailboxReturnsTheNewest : Prop :=
  ∀ (older : List ParameterSnapshot) (p : ParameterSnapshot) (s : State),
    ∃ t1 t2 t3,
      execAll ((older ++ [p]).map .chPwr) (s.onPort .control) = .next t1 ∧
      exec .chPrd (t1.onPort .audio) = .next t2 ∧ exec .chPrd t2 = .next t3 ∧
      t2.t.cur = p ∧ t2.chP = ⟨p, false⟩ ∧ t3.t.cur = p ∧ t3.chP = ⟨p, false⟩ ∧
      t2.resA = s.resA ++ snapshotWords true p ∧ t3.resA = t2.resA ++ snapshotWords false p

/-! ## The tick (46_task_scheduler_fifo R340 to R359) -/

/-- 46 R340, R345, R358, the first and last sub-steps of TICK: T1 is the parameter read, without result
words; T3 publishes the status, whether or not anything changed, and completes the tick. -/
def Obligations.TickReadsThenPublishes : Prop :=
  ∀ s : State, encode .tick = [0x78000000#32] ∧
    (s.inputs.turn = .audio → s.tickPhase = .first → exec .tick s = .next { s with
      t := { s.t with cur := if s.chP.fresh then s.chP.slot else s.t.cur }
      chP := { s.chP with fresh := false }
      tickPhase := .body }) ∧
    (s.inputs.turn = .audio → s.tickPhase = .publish → exec .tick s = .next { s with
      chS := { slot := { underruns := s.t.underruns, audioOk := s.t.audioOk }, fresh := true }
      tickPhase := .first })

/-- 46 R345 steps 2 to 6, 8 and 9 (R346 to R351, R356, R357), sub-step T2 of TICK: the block emitted is
that of the frame loop from the state after step 6; the gate, the effective parameters, the smoothed
pitch, the setters, the edges, the busy output and the underrun count are as the pseudocode says; on a
rising edge, and on no other tick, step 6 leaves the generators, the envelope, the reverb pair and
`v.playing` as V.NOTEON does, and else as they were, but for the generators that a switch of `v.alg`
resets; no channel, port or result port is touched. -/
def Obligations.TickBodyFollowsItsSteps : Prop :=
  ∀ (s : State) (c : Cfg) (n : Numerics) (p : ParameterSnapshot), c = Config.cfg → n = c.num →
    p = s.t.cur → s.inputs.turn = .audio → s.tickPhase = .body →
    let gate := s.inputs.gateIn || (fle p.attack 0x00000000#32 && fle p.decay 0x00000000#32)
    let last := s.t.lastGate && decide (p.algorithm = s.t.lastAlg)
    let act := if p.algorithm.toNat < c.nAlg then p.algorithm else s.v.alg
    let p1e := if (c.algInfo act).p1Unused then 0x3F000000#32
      else clamp01 (n.fadd (n.fadd p.param1 (n.fmul (n.fsub p.cv1 0x3F000000#32) c.modDepthCv))
        (n.fmul (n.fsub p.pot1 0x3F000000#32) c.modDepthPot))
    let p2e := if (c.algInfo act).p2Unused then 0x3F000000#32
      else clamp01 (n.fadd (n.fadd p.param2 (n.fmul (n.fsub p.cv2 0x3F000000#32) c.modDepthCv))
        (n.fmul (n.fsub p.pot2 0x3F000000#32) c.modDepthPot))
    let blend := clamp01 (n.fadd (n.fmul c.pitchCvWeight p.cv0)
      (n.fmul (n.fsub 0x3F800000#32 c.pitchCvWeight) p.pot0))
    let sm := bqStep c blend s
    let freq := n.fadd c.pitchMinHz (n.fmul sm.1 (n.fsub c.pitchMaxHz c.pitchMinHz))
    let rising := gate && !last
    let q := tickControl c s
    ((rising = true → q.sin.phase0 = 0x00000000#32 ∧
        q.fm = ⟨0x00000000#32, 0x00000000#32, 0x00000000#32⟩ ∧ q.env.level = 0x00000000#32 ∧
        q.env.active = true ∧ q.rev = ⟨c.reverb.reset, c.reverb.reset⟩ ∧ q.v.playing = true) ∧
      (rising = false → q.env.level = s.env.level ∧ q.env.active = s.env.active ∧ q.rev = s.rev ∧
        q.v.playing = s.v.playing ∧
        (act = s.v.alg → q.sin.phase0 = s.sin.phase0 ∧ q.fm = s.fm) ∧
        (act ≠ s.v.alg → q.sin.phase0 = 0x00000000#32 ∧
          q.fm = ⟨0x00000000#32, 0x00000000#32, 0x00000000#32⟩)) ∧
      q.sin.phase1 = (if p.algorithm = s.t.lastAlg then s.sin.phase1 else 0x00000000#32) ∧
      q.t.sqPhase = (if p.algorithm = s.t.lastAlg then s.t.sqPhase else 0x00000000#32)) ∧
    ∃ (t : State) (block : List Frame), exec .tick s = .next t ∧
      (block = (tickFrames c c.blockFrames q).1 ∧ block.length = c.blockFrames ∧
        t.audioOut = s.audioOut ++ [block]) ∧
      (t.tickPhase = .publish ∧ t.chP = s.chP ∧ t.chS = s.chS ∧ t.portA = s.portA ∧
        t.portC = s.portC ∧ t.resA = s.resA ∧ t.resC = s.resC ∧ t.inputs = s.inputs) ∧
      (t.bq = sm.2.bq ∧ t.fault.illegal = s.fault.illegal ∧ t.fault.ctx = s.fault.ctx) ∧
      (t.v.alg = act ∧ t.v.p1 = p1e ∧ t.v.p2 = p2e ∧ t.v.p3 = s.v.p3 ∧ t.v.wf = s.v.wf) ∧
      (t.v.mg = clamp01 p.masterGain ∧ t.v.rvSize = clamp01 p.reverbSize ∧
        t.v.rvLevel = clamp01 p.reverbLevel ∧ t.env.atk = clamp01 p.attack ∧
        t.env.rel = clamp01 p.decay ∧ t.v.freq = clamp freq 0x00000000#32 c.nyq) ∧
      (t.v.vel = (if rising then clamp01 c.velocityDefault else s.v.vel) ∧
        t.v.gate = (if rising then true else if !gate && last then false else s.v.gate) ∧
        t.env.gate = (if rising then true else if !gate && last then false else s.env.gate)) ∧
      (t.t.cur = p ∧ t.t.lastGate = gate ∧ t.t.lastAlg = p.algorithm ∧ t.t.audioOk = s.t.audioOk) ∧
      (t.t.gateOut = !(if p.algorithm = c.idxSelftest then true
        else if p.algorithm = c.idxCaltone then t.v.gate else t.v.playing)) ∧
      t.t.underruns = (if s.inputs.wrOk = false ∨ s.inputs.wrBytes < c.blockFrames * c.frameBytes
        then s.t.underruns + 1 else s.t.underruns)

/-- 46 R359 c and d, an inference the spec marks as its own: a whole tick, its three sub-steps,
emits exactly one block of exactly BLOCK_FRAMES frames, publishes exactly its own status, appends no
result word, raises the underrun count by at most one (modulo 2^32), and leaves the parameter
channel read. -/
def Obligations.WholeTickEmitsOneBlock : Prop :=
  ∀ s : State, s.inputs.turn = .audio → s.tickPhase = .first →
    ∃ (t : State) (block : List Frame), execAll [.tick, .tick, .tick] s = .next t ∧
      block.length = Config.cfg.blockFrames ∧ t.audioOut = s.audioOut ++ [block] ∧
      t.chS = ⟨⟨t.t.underruns, s.t.audioOk⟩, true⟩ ∧ t.tickPhase = .first ∧
      (t.t.underruns = s.t.underruns ∨ t.t.underruns = s.t.underruns + 1) ∧
      t.chP = ⟨s.chP.slot, false⟩ ∧ t.t.cur = (if s.chP.fresh then s.chP.slot else s.t.cur) ∧
      t.resA = s.resA ∧ t.resC = s.resC

/-- 46 R353: in self-test mode every frame is the square wave, by the phase before it advances, on both
channels; the voice chain does not advance during the frames. -/
def Obligations.SelftestEmitsTheSquareWave : Prop :=
  ∀ (s : State) (c : Cfg), c = Config.cfg → s.inputs.turn = .audio → s.tickPhase = .body →
    s.t.cur.algorithm = c.idxSelftest →
    let ph := fun i : Nat => Nat.iterate (fun a => advance c a c.selftestHz) i
      (if s.t.cur.algorithm = s.t.lastAlg then s.t.sqPhase else 0x00000000#32)
    ∃ (t : State) (block : List Frame), exec .tick s = .next t ∧ t.audioOut = s.audioOut ++ [block] ∧
      block.length = c.blockFrames ∧
      (∀ (i : Nat) (f : Frame), block[i]? = some f →
        f.1 = (if flt (ph i) 0x3F000000#32 then c.selftestGain else fneg c.selftestGain) ∧ f.2 = f.1) ∧
      t.t.sqPhase = ph c.blockFrames ∧ t.t.gateOut = false ∧
      t.fm = (tickControl c s).fm ∧ t.sin = (tickControl c s).sin ∧ t.env = (tickControl c s).env ∧
      t.v = (tickControl c s).v ∧ t.rev = (tickControl c s).rev ∧ t.fault.guard = s.fault.guard

/-- 46 R354: in calibration-tone mode every frame is sine 1 at the voice's frequency times the master
gain while `v.gate` is high and +0.0 while it is low, on both channels; the sine steps either way, and
the voice chain does not advance. -/
def Obligations.CaltoneEmitsTheGatedSine : Prop :=
  ∀ (s : State) (c : Cfg), c = Config.cfg → s.inputs.turn = .audio → s.tickPhase = .body →
    s.t.cur.algorithm = c.idxCaltone →
    let s6 := tickControl c s
    let ph := fun i : Nat => Nat.iterate (fun a => advance c a s6.v.freq) i
      (if s.t.cur.algorithm = s.t.lastAlg then s.sin.phase1 else 0x00000000#32)
    ∃ (t : State) (block : List Frame), exec .tick s = .next t ∧ t.audioOut = s.audioOut ++ [block] ∧
      block.length = c.blockFrames ∧
      (∀ (i : Nat) (f : Frame), block[i]? = some f →
        f.1 = (if s6.v.gate then c.num.fmul s6.v.mg (c.num.sin (c.num.fmul 0x40C90FDB#32 (ph i)))
          else 0x00000000#32) ∧ f.2 = f.1) ∧
      t.sin = { s6.sin with phase1 := ph c.blockFrames } ∧ t.t.gateOut = !s6.v.gate ∧
      t.fm = s6.fm ∧ t.env = s6.env ∧ t.v = s6.v ∧ t.rev = s6.rev ∧ t.fault.guard = s.fault.guard

/-- 46 R355, R359 f: `finish` guards, pre-clips, scales and soft-clips; what it answers is of
magnitude at most 1.0 for every sample, NaN and infinities included, and so is every sample of a
block emitted in normal mode. -/
def Obligations.NormalBlocksAreBounded : Prop :=
  (∀ (c : Cfg) (x : F32),
    (finish c x =
      let y := if fle (fneg c.guard) x = true ∧ fle x c.guard = true then x else 0x00000000#32
      c.num.tanh (c.num.fmul (c.preclip y) c.preGain)) ∧ inSignal (finish c x)) ∧
  ∀ (s : State) (c : Cfg), c = Config.cfg → s.inputs.turn = .audio → s.tickPhase = .body →
    s.t.cur.algorithm ≠ c.idxSelftest → s.t.cur.algorithm ≠ c.idxCaltone →
    ∃ (t : State) (block : List Frame), exec .tick s = .next t ∧ t.audioOut = s.audioOut ++ [block] ∧
      block.length = c.blockFrames ∧ ∀ f ∈ block, inSignal f.1 ∧ inSignal f.2

/-- 46 R352, R355: in normal mode TICK emits one block of BLOCK_FRAMES frames, each the finished V.PROC
frame of the state before it, both channels: the state before the first is the one after step 6, the
state before each next one is what V.PROC leaves, with `fault.guard` set where a sample was outside the
guard; and the registers of the voice chain are left as the last frame leaves them. -/
def Obligations.NormalFramesAreFinishedVoiceFrames : Prop :=
  ∀ (s : State) (c : Cfg), c = Config.cfg → s.inputs.turn = .audio → s.tickPhase = .body →
    s.t.cur.algorithm ≠ c.idxSelftest → s.t.cur.algorithm ≠ c.idxCaltone →
    let bad := fun x => !(fle (fneg c.guard) x && fle x c.guard)
    let u := frameState c s
    ∃ (t : State) (block : List Frame), exec .tick s = .next t ∧ t.audioOut = s.audioOut ++ [block] ∧
      block.length = c.blockFrames ∧
      (∀ (k : Nat) (f : Frame), block[k]? = some f →
        f = (finish c (vProc c (u k)).1.1, finish c (vProc c (u k)).1.2)) ∧
      u 0 = tickControl c s ∧
      (∀ k : Nat, let r := vProc c (u k)
        u (k + 1) = { r.2 with fault := { r.2.fault with
          guard := r.2.fault.guard || (bad r.1.1 || bad r.1.2) } }) ∧
      t.v = (u c.blockFrames).v ∧ t.fm = (u c.blockFrames).fm ∧ t.sin = (u c.blockFrames).sin ∧
      t.env = (u c.blockFrames).env ∧ t.rev = (u c.blockFrames).rev ∧
      t.fault = (u c.blockFrames).fault

/-- 70_reset_and_hazards R447, an inference the spec marks as its own: where the algorithm index
changes on a tick with the gate low, no V.NOTEOFF fires, even if the gate was high on the tick
before: the voice and the envelope keep their gates. -/
def Obligations.AlgorithmChangeHidesAFallingEdge : Prop :=
  ∀ s : State, s.inputs.turn = .audio → s.tickPhase = .body → s.t.cur.algorithm ≠ s.t.lastAlg →
    s.inputs.gateIn = false → drone s.t.cur = false →
    ∃ t, exec .tick s = .next t ∧ t.v.gate = s.v.gate ∧ t.env.gate = s.env.gate ∧
      t.v.vel = s.v.vel ∧ t.t.lastGate = false

/-- 70_reset_and_hazards R448, an inference the spec marks as its own: where the algorithm index
changes on a tick with the gate high, V.NOTEON fires: before the frames the generators, the envelope
and the reverb states are reset. -/
def Obligations.AlgorithmChangeRetriggersAHeldNote : Prop :=
  ∀ (s : State) (c : Cfg), c = Config.cfg → s.inputs.turn = .audio → s.tickPhase = .body →
    s.t.cur.algorithm ≠ s.t.lastAlg → (s.inputs.gateIn = true ∨ drone s.t.cur = true) →
    (tickControl c s).fm = ⟨0x00000000#32, 0x00000000#32, 0x00000000#32⟩ ∧
    (tickControl c s).sin = ⟨0x00000000#32, 0x00000000#32⟩ ∧
    (tickControl c s).env.level = 0x00000000#32 ∧ (tickControl c s).env.active = true ∧
    (tickControl c s).rev = ⟨c.reverb.reset, c.reverb.reset⟩ ∧
    (tickControl c s).v.playing = true ∧
    ∃ t, exec .tick s = .next t ∧ t.v.gate = true ∧ t.env.gate = true ∧
      t.v.vel = clamp01 c.velocityDefault ∧ t.t.lastGate = true ∧
      t.audioOut = s.audioOut ++ [(tickFrames c c.blockFrames (tickControl c s)).1]

/-- 70_reset_and_hazards R446: with no snapshot written, the first tick after reset drones, whatever the
gate input: the voice enters Playing at PITCH_MIN_HZ (where that is a normal number), at velocity
VELOCITY_DEFAULT and master gain 0.0, and the gate output goes busy. -/
def Obligations.FirstTickAfterResetDrones : Prop :=
  ∀ (c : Cfg) (inp : Inputs) (n : Nat), 2 ^ 23 ≤ fmag c.pitchMinHz →
    let t := tickBody c (tickFirst (State.resetWith c inp n))
    t.v.freq = c.pitchMinHz ∧ t.v.mg = 0x00000000#32 ∧ t.v.vel = clamp01 c.velocityDefault ∧
      t.v.gate = true ∧ t.v.playing = true ∧ t.env.gate = true ∧ t.t.lastGate = true ∧
      t.t.gateOut = false

/-! ## Invariants (10_state R47) -/

/-- 10_state R47, an inference the spec marks as its own: every step of either context, under every
operand and every draw, keeps I-PHASE, I-PREV, I-ENV and I-VOICE; and so does every step of the machine of
any other configuration. -/
def Obligations.InvariantKeptByEveryStep : Prop :=
  (∀ s t : State, s.Inv Config.cfg → step s = .next t → t.Inv Config.cfg) ∧
  ∀ (c : Cfg) (s t : State), s.Inv c → stepUnder c s = .next t → t.Inv c

/-- 47_laws_and_absent_families R361: the only registers that can hold a NaN are the biquad coefficients,
`t.cur` and the channel slots: every other f32 register holds a datum that is no NaN after reset, and after
every step from a state within the invariants and with finite delays, which every step keeps; and
arithmetic on a NaN answers a quiet NaN. -/
def Obligations.OnlyVerbatimRegistersHoldNaNs : Prop :=
  (∀ s t : State, s.Inv Config.cfg → s.bq.DelaysFinite → step s = .next t →
    ∀ a ∈ t.ownRegisters, isNaN a = false) ∧
  (∀ (c : Cfg) (inp : Inputs) (n : Nat), ∀ a ∈ (State.resetWith c inp n).ownRegisters,
    isNaN a = false) ∧
  ∀ (n : Numerics) (a b : F32), isNaN a = true ∨ isNaN b = true →
    isQuietNaN (n.fadd a b) = true ∧ isQuietNaN (n.fsub a b) = true ∧
      isQuietNaN (n.fmul a b) = true ∧ isQuietNaN (n.fdiv a b) = true

/-- 10_state R47, an inference the spec marks as its own: the invariants hold after reset, under
every configuration. -/
def Obligations.InvariantHoldsAtReset : Prop :=
  (∀ (c : Cfg) (inp : Inputs) (n : Nat), (State.resetWith c inp n).Inv c) ∧
    State.reset.Inv Config.cfg
end

