-- ==== Sys2Proof/Laws/Float.lean ====
section
/-! SUPPORT. What rounding and the arithmetic operations can answer: a rounded magnitude is monotone
and exact on data, and an operation on finite data never gives a NaN. -/

namespace Sys2Proof

/-! ## Rounded magnitudes -/

theorem lastPlace_spec (q : Nat) :
    q / 2 ^ lastPlace q < 2 ^ 24 ∧ (0 < lastPlace q → 2 ^ 23 ≤ q / 2 ^ lastPlace q) := by
  unfold lastPlace
  split
  · rename_i h
    exact ⟨by simpa using h, by simp⟩
  · rename_i h
    have hq : q ≠ 0 := by omega
    have h24 : 24 ≤ q.log2 := (Nat.le_log2 hq).2 (by omega)
    obtain ⟨e, he⟩ : ∃ e, q.log2 = 23 + e := ⟨q.log2 - 23, by omega⟩
    have hlo : 2 ^ (23 + e) ≤ q := (Nat.le_log2 hq).1 (by omega)
    have hhi : q < 2 ^ (24 + e) := (Nat.log2_lt hq).1 (by omega)
    have he' : q.log2 - 23 = e := by omega
    rw [he']
    refine ⟨?_, fun _ => ?_⟩
    · rw [Nat.div_lt_iff_lt_mul (by positivity), ← pow_add]; exact hhi
    · rw [Nat.le_div_iff_mul_le (by positivity), ← pow_add]; exact hlo

theorem lastPlace_mono {q q' : Nat} (h : q ≤ q') : lastPlace q ≤ lastPlace q' := by
  unfold lastPlace
  split
  · exact Nat.zero_le _
  · rename_i h1
    rw [if_neg (by omega)]
    have : q.log2 ≤ q'.log2 := (Nat.le_log2 (by omega)).2 (le_trans (Nat.log2_self_le (by omega)) h)
    omega

theorem roundsUp_mono {mode : Rounding} {s : Bool} {m r r' d : Nat} (h : r ≤ r')
    (hu : roundsUp mode s m r d = true) : roundsUp mode s m r' d = true := by
  cases mode <;> simp_all [roundsUp] <;> omega

theorem roundsUp_zero (mode : Rounding) (s : Bool) (m : Nat) {d : Nat} (hd : 0 < d) :
    roundsUp mode s m 0 d = false := by
  cases mode <;> simp [roundsUp] <;> omega

/-- Rounding is monotone in the numerator. -/
theorem roundedMag_mono (mode : Rounding) (s : Bool) {num num' : Nat} (den : Nat)
    (h : num ≤ num') : roundedMag mode s num den ≤ roundedMag mode s num' den := by
  have hq : num / den ≤ num' / den := Nat.div_le_div_right h
  have hs := lastPlace_spec (num / den)
  have hs' := lastPlace_spec (num' / den)
  have he := lastPlace_mono hq
  simp only [roundedMag]
  rw [← Nat.div_div_eq_div_mul, ← Nat.div_div_eq_div_mul]
  generalize hE : lastPlace (num / den) = e at *
  generalize hE' : lastPlace (num' / den) = e' at *
  rcases Nat.lt_or_ge e e' with hlt | hge
  · have h1 := hs.1
    have h2 := hs'.2 (by omega)
    have h3 : (e + 1) * 2 ^ 23 ≤ e' * 2 ^ 23 := Nat.mul_le_mul_right _ hlt
    generalize num / den / 2 ^ e = m at *
    generalize num' / den / 2 ^ e' = m' at *
    split <;> split <;> omega
  · obtain rfl : e = e' := by omega
    have hm : num / den / 2 ^ e ≤ num' / den / 2 ^ e := Nat.div_le_div_right hq
    rcases Nat.lt_or_ge (num / den / 2 ^ e) (num' / den / 2 ^ e) with hlt | hge'
    · split <;> split <;> omega
    · have heq : num / den / 2 ^ e = num' / den / 2 ^ e := by omega
      have hr : num % (den * 2 ^ e) ≤ num' % (den * 2 ^ e) := by
        have h1 := Nat.div_add_mod num (den * 2 ^ e)
        have h2 := Nat.div_add_mod num' (den * 2 ^ e)
        rw [← Nat.div_div_eq_div_mul] at h1 h2
        rw [heq] at h1
        omega
      rw [heq]
      split
      · rename_i hu
        rw [if_pos (roundsUp_mono hr hu)]
      · split <;> omega

theorem fmag_lt (a : F32) : fmag a < 2 ^ 31 := Nat.mod_lt _ (by decide)

theorem fmag_eq (a : F32) : fmag a = fexp a * 2 ^ 23 + ffrac a := by
  simp only [fmag, fexp, ffrac]; omega

/-- Rounding an exactly representable magnitude gives its own pattern. -/
theorem roundedMag_funits (mode : Rounding) (s : Bool) (a : F32) {den : Nat} (hden : 0 < den) :
    roundedMag mode s (funits a * den) den = fmag a := by
  have hq : funits a * den / den = funits a := Nat.mul_div_cancel _ hden
  have hf : ffrac a < 2 ^ 23 := Nat.mod_lt _ (by decide)
  simp only [roundedMag, hq]
  rw [fmag_eq]
  unfold funits
  split
  · rename_i he
    have hl : lastPlace (ffrac a) = 0 := by unfold lastPlace; rw [if_pos (by omega)]
    rw [hl]
    simp only [pow_zero, Nat.mul_one, Nat.mul_mod_left, roundsUp_zero _ _ _ hden,
      Nat.mul_div_cancel _ hden, he]
    simp
  · rename_i he
    obtain ⟨e, hE⟩ : ∃ e, fexp a = e + 1 := ⟨fexp a - 1, by omega⟩
    have hl : lastPlace ((2 ^ 23 + ffrac a) * 2 ^ e) = e := by
      unfold lastPlace
      have hpos : (2 ^ 23 + ffrac a) * 2 ^ e ≠ 0 := by positivity
      have hlog : ((2 ^ 23 + ffrac a) * 2 ^ e).log2 = 23 + e := by
        apply (Nat.log2_eq_iff hpos).2
        constructor
        · rw [pow_add]; exact Nat.mul_le_mul_right _ (by omega)
        · rw [show 23 + e + 1 = 24 + e by omega, pow_add]
          exact Nat.mul_lt_mul_of_pos_right (by omega) (by positivity)
      split
      · rename_i hlt
        rcases Nat.eq_zero_or_pos e with h0 | h0
        · exact h0.symm
        · have h1 : 2 ^ 1 ≤ 2 ^ e := Nat.pow_le_pow_right (by decide) h0
          have h2 : 2 ^ 23 * 2 ^ 1 ≤ (2 ^ 23 + ffrac a) * 2 ^ e :=
            Nat.mul_le_mul (by omega) h1
          omega
      · omega
    have hd : 0 < den * 2 ^ e := by positivity
    simp only [hE, Nat.add_sub_cancel, hl]
    rw [show (2 ^ 23 + ffrac a) * 2 ^ e * den = (2 ^ 23 + ffrac a) * (den * 2 ^ e) by ring,
      Nat.mul_div_cancel _ hd, Nat.mul_mod_left, roundsUp_zero _ _ _ hd]
    simp only [Bool.false_eq_true, if_false]
    omega

/-- A rational at most a datum's magnitude rounds to at most that datum's pattern. -/
theorem roundedMag_le (mode : Rounding) (s : Bool) (a : F32) {num den : Nat} (hden : 0 < den)
    (h : num ≤ funits a * den) : roundedMag mode s num den ≤ fmag a :=
  (roundedMag_mono mode s den h).trans_eq (roundedMag_funits mode s a hden)

/-- A rational at least a datum's magnitude rounds to at least that datum's pattern. -/
theorem le_roundedMag (mode : Rounding) (s : Bool) (a : F32) {num den : Nat} (hden : 0 < den)
    (h : funits a * den ≤ num) : fmag a ≤ roundedMag mode s num den :=
  (roundedMag_funits mode s a hden).symm.trans_le (roundedMag_mono mode s den h)

/-! ## Patterns -/

theorem fpack_toNat (s : Bool) {m : Nat} (h : m < 2 ^ 31) :
    (fpack s m).toNat = m + if s then 2 ^ 31 else 0 := by
  unfold fpack
  rw [BitVec.toNat_ofNat]
  cases s <;> simp <;> omega

@[simp] theorem fmag_fpack (s : Bool) {m : Nat} (h : m < 2 ^ 31) : fmag (fpack s m) = m := by
  unfold fmag
  rw [fpack_toNat s h]
  cases s <;> simp <;> omega

theorem fsign_eq (a : F32) : fsign a = decide (2 ^ 31 ≤ a.toNat) := by
  have h := a.isLt
  simp only [fsign, BitVec.getLsbD, Nat.testBit_eq_decide_div_mod_eq]
  congr 1
  apply propext
  constructor <;> intro h2 <;> omega

@[simp] theorem fsign_fpack (s : Bool) {m : Nat} (h : m < 2 ^ 31) : fsign (fpack s m) = s := by
  rw [fsign_eq, fpack_toNat s h]
  cases s
  · simp; omega
  · simp

/-- No result of at least the least normal magnitude is replaced, before rounding or after it. -/
theorem Subnormals.replaces_eq_false {f : Subnormals} {num den mag : Nat}
    (h : f = .kept ∨ (2 ^ 23 * den ≤ num ∧ 2 ^ 23 ≤ mag)) : f.replaces num den mag = false := by
  rcases h with rfl | ⟨h1, h2⟩
  · rfl
  · cases f with
    | kept => rfl
    | flushed _ early => cases early <;> simp [Subnormals.replaces] <;> omega

theorem finishRound_mag_le (mode : Rounding) (f : Subnormals) (t s : Bool) (m : Nat) :
    fmag (finishRound mode f t s m) ≤ 0x7F800000 ∧ fmag (finishRound mode f t s m) ≤ m := by
  unfold finishRound
  split
  · split <;> (rw [fmag_fpack _ (by decide)]; omega)
  · split
    · rw [fmag_fpack _ (by decide)]; omega
    · rw [fmag_fpack _ (by omega)]; omega

/-- A rounded result has the sign of the exact one, but for a zero that a flush leaves. -/
theorem finishRound_sign (mode : Rounding) (f : Subnormals) (t s : Bool) (m : Nat) :
    fsign (finishRound mode f t s m) = s ∨ fmag (finishRound mode f t s m) = 0 := by
  unfold finishRound
  split
  · left; split <;> rw [fsign_fpack _ (by decide)]
  · split
    · right; rw [fmag_fpack _ (by decide)]
    · left; rw [fsign_fpack _ (by omega)]

theorem finishRound_not_nan (mode : Rounding) (f : Subnormals) (t s : Bool) (m : Nat) :
    isNaN (finishRound mode f t s m) = false := by
  have := (finishRound_mag_le mode f t s m).1
  simp only [isNaN, decide_eq_false_iff_not]; omega

theorem roundPack_not_nan (mode : Rounding) (f : Subnormals) (s : Bool) (num den : Nat) :
    isNaN (roundPack mode f s num den) = false := finishRound_not_nan _ _ _ _ _

theorem roundPack_sign (mode : Rounding) (f : Subnormals) (s : Bool) (num den : Nat) :
    fsign (roundPack mode f s num den) = s ∨ fmag (roundPack mode f s num den) = 0 :=
  finishRound_sign _ _ _ _ _

theorem roundPack_mag_le (mode : Rounding) (f : Subnormals) (s : Bool) (num den : Nat) :
    fmag (roundPack mode f s num den) ≤ roundedMag mode s num den :=
  (finishRound_mag_le _ _ _ _ _).2

/-! ## Operations on data that are not NaNs -/

theorem isNaN_of_isFinite {a : F32} (h : isFinite a = true) : isNaN a = false := by
  simp only [isFinite, isNaN, decide_eq_true_eq, decide_eq_false_iff_not] at *; omega

theorem isInf_of_isFinite {a : F32} (h : isFinite a = true) : isInf a = false := by
  simp only [isFinite, isInf, decide_eq_true_eq, decide_eq_false_iff_not] at *; omega

theorem Arithmetic.operand_finite (n : Arithmetic) {a : F32} (h : isFinite a = true) :
    isFinite (n.operand a) = true := by
  unfold Arithmetic.operand
  split
  · simp [isFinite]
  · exact h

theorem zeroSum_not_nan (n : Arithmetic) (sa sb : Bool) : isNaN (n.zeroSum sa sb) = false := by
  unfold Arithmetic.zeroSum isNaN
  rw [fmag_fpack _ (by decide)]; decide

@[simp] theorem fmag_fneg (a : F32) : fmag (fneg a) = fmag a := by
  unfold fmag fneg
  rw [BitVec.toNat_xor, Nat.xor_mod_two_pow]
  simp

@[simp] theorem fsign_fneg (a : F32) : fsign (fneg a) = !fsign a := by
  simp [fsign, fneg]

@[simp] theorem fmag_fabs (a : F32) : fmag (fabs a) = fmag a := by
  unfold fmag fabs
  rw [BitVec.toNat_and, show (0x7FFFFFFF#32).toNat = 2 ^ 31 - 1 from rfl,
    Nat.and_two_pow_sub_one_eq_mod, Nat.mod_mod]

@[simp] theorem fsign_fabs (a : F32) : fsign (fabs a) = false := by
  simp [fsign, fabs]

/-- The exact magnitude is a function of the magnitude bits, and monotone in them. -/
theorem funits_le_of_fmag_le {a b : F32} (h : fmag a ≤ fmag b) : funits a ≤ funits b := by
  by_contra hlt
  have h1 := roundedMag_mono .nearestEven false 1 (num := funits b * 1) (num' := funits a * 1)
    (by omega)
  rw [roundedMag_funits _ _ _ (by decide), roundedMag_funits _ _ _ (by decide)] at h1
  have he : fexp a = fexp b := by
    have := fmag_eq a; have := fmag_eq b
    have : ffrac a < 2 ^ 23 := Nat.mod_lt _ (by decide)
    have : ffrac b < 2 ^ 23 := Nat.mod_lt _ (by decide)
    omega
  have hf : ffrac a = ffrac b := by
    have := fmag_eq a; have := fmag_eq b; omega
  exact hlt (by unfold funits; rw [he, hf])

theorem Arithmetic.operand_mag_le (n : Arithmetic) (a : F32) : fmag (n.operand a) ≤ fmag a := by
  unfold Arithmetic.operand
  split
  · rw [fmag_fpack _ (by decide)]; exact Nat.zero_le _
  · exact Nat.le_refl _

/-- An operand is seen with its own sign, but for a zero that a flush leaves. -/
theorem Arithmetic.operand_sign (n : Arithmetic) (a : F32) :
    fsign (n.operand a) = fsign a ∨ fmag (n.operand a) = 0 := by
  unfold Arithmetic.operand
  split
  · right; rw [fmag_fpack _ (by decide)]
  · exact .inl rfl

/-- A positive operand is seen as positive. -/
theorem Arithmetic.operand_positive (n : Arithmetic) {a : F32} (h : fsign a = false) :
    fsign (n.operand a) = false := by
  unfold Arithmetic.operand
  split
  · rw [fsign_fpack _ (by decide), h]; cases n.operands <;> rfl
  · exact h

/-- A zero operand is seen as it is. -/
theorem Arithmetic.operand_zero (n : Arithmetic) {a : F32} (h : fmag a = 0) : n.operand a = a := by
  unfold Arithmetic.operand
  exact if_neg fun hc => hc.2.1 h

theorem sum?_not_nan (n : Arithmetic) {a b : F32} (ha : isFinite a = true) (hb : isFinite b = true) :
    ∃ r, n.sum? a b = some r ∧ isNaN r = false := by
  unfold Arithmetic.sum?
  rw [isInf_of_isFinite ha, isInf_of_isFinite hb]
  simp only [Bool.false_eq_true, if_false]
  split
  · exact ⟨_, rfl, zeroSum_not_nan _ _ _⟩
  · exact ⟨_, rfl, roundPack_not_nan _ _ _ _ _⟩

theorem isFinite_fneg {a : F32} (h : isFinite a = true) : isFinite (fneg a) = true := by
  simpa [isFinite] using h

/-- The sum of finite data is not a NaN. -/
theorem Arithmetic.fadd_not_nan (n : Arithmetic) {a b : F32} (ha : isFinite a = true)
    (hb : isFinite b = true) : isNaN (n.fadd a b) = false := by
  obtain ⟨r, hr, hn⟩ := sum?_not_nan n (n.operand_finite ha) (n.operand_finite hb)
  simp [Arithmetic.fadd, Arithmetic.complete, isNaN_of_isFinite ha, isNaN_of_isFinite hb, hr, hn]

/-- The difference of finite data is not a NaN. -/
theorem Arithmetic.fsub_not_nan (n : Arithmetic) {a b : F32} (ha : isFinite a = true)
    (hb : isFinite b = true) : isNaN (n.fsub a b) = false := by
  obtain ⟨r, hr, hn⟩ :=
    sum?_not_nan n (n.operand_finite ha) (isFinite_fneg (n.operand_finite hb))
  simp [Arithmetic.fsub, Arithmetic.complete, isNaN_of_isFinite ha, isNaN_of_isFinite hb, hr, hn]

/-- What the product of data that are not NaNs or infinities is: a signed zero where a factor is zero,
else the exact product rounded. -/
theorem Arithmetic.product?_finite (n : Arithmetic) {a b : F32} (ha : isFinite a = true)
    (hb : isFinite b = true) :
    n.product? a b = some (if isZero a || isZero b then fpack (fsign a != fsign b) 0
      else roundPack n.rounding n.results (fsign a != fsign b) (funits a * funits b) (2 ^ 149)) := by
  unfold Arithmetic.product?
  simp only [isInf_of_isFinite ha, isInf_of_isFinite hb, Bool.or_self, Bool.false_eq_true, if_false]
  split
  · rfl
  · rfl

/-- What the product of finite data can be: never a NaN, its sign the operands' signs combined but for a
zero, and its magnitude that of the rounded exact product at most. -/
theorem Arithmetic.fmul_finite (n : Arithmetic) {a b : F32} (ha : isFinite a = true)
    (hb : isFinite b = true) :
    isNaN (n.fmul a b) = false ∧
      (fsign (n.fmul a b) = (fsign a != fsign b) ∨ fmag (n.fmul a b) = 0) ∧
      fmag (n.fmul a b) ≤
        roundedMag n.rounding (fsign a != fsign b) (funits a * funits b) (2 ^ 149) := by
  have hp := n.product?_finite (n.operand_finite ha) (n.operand_finite hb)
  have hu : funits (n.operand a) * funits (n.operand b) ≤ funits a * funits b :=
    Nat.mul_le_mul (funits_le_of_fmag_le (n.operand_mag_le a))
      (funits_le_of_fmag_le (n.operand_mag_le b))
  have hm : n.fmul a b = (n.product? (n.operand a) (n.operand b)).getD (n.nan .mul a b) := by
    unfold Arithmetic.fmul Arithmetic.complete
    rw [isNaN_of_isFinite ha, isNaN_of_isFinite hb]; rfl
  rw [hm, hp, Option.getD_some]
  generalize 2 ^ 149 = den at *
  split
  · have h0 := fmag_fpack (fsign (n.operand a) != fsign (n.operand b)) (m := 0) (by decide)
    refine ⟨?_, .inr h0, ?_⟩
    · unfold isNaN; rw [h0]; decide
    · rw [h0]; exact Nat.zero_le _
  · rename_i hz
    simp only [isZero, Bool.or_eq_true, decide_eq_true_eq, not_or] at hz
    rw [(n.operand_sign a).resolve_right hz.1, (n.operand_sign b).resolve_right hz.2]
    exact ⟨roundPack_not_nan _ _ _ _ _, roundPack_sign _ _ _ _ _,
      (roundPack_mag_le _ _ _ _ _).trans (roundedMag_mono _ _ _ hu)⟩

theorem fle_fabs_iff {a b : F32} (hb : isNaN b = false) (hs : fsign b = false) :
    fle (fabs a) b = true ↔ fmag a ≤ fmag b := by
  have := fmag_lt a
  simp only [fle, fkey, fsign_fabs, hs, fmag_fabs, isNaN]
  simp only [isNaN, decide_eq_false_iff_not] at hb
  simp
  omega

/-- A factor of magnitude at most 1.0 does not raise a magnitude. -/
theorem Arithmetic.fmul_mag_le (n : Arithmetic) {a b : F32} (ha : isFinite a = true)
    (hb : fle (fabs b) fOne = true) :
    isNaN (n.fmul a b) = false ∧ fmag (n.fmul a b) ≤ fmag a := by
  have hmb : fmag b ≤ fmag fOne := (fle_fabs_iff (by decide) (by decide)).1 hb
  have hbf : isFinite b = true := by
    have : fmag fOne = 0x3F800000 := by decide
    simp only [isFinite, decide_eq_true_eq]; omega
  obtain ⟨h1, _, h3⟩ := n.fmul_finite ha hbf
  refine ⟨h1, h3.trans (roundedMag_le _ _ a (by positivity) ?_)⟩
  have h4 : funits b ≤ funits fOne := funits_le_of_fmag_le hmb
  have h5 : funits fOne = 2 ^ 149 := by decide
  rw [h5] at h4
  exact Nat.mul_le_mul_left _ h4

/-- FLOOR of a finite datum is not a NaN, and is finite. -/
theorem ffloor_finite {a : F32} (h : isFinite a = true) : isFinite (ffloor a) = true := by
  unfold ffloor
  split
  · exact h
  · rename_i he
    split
    · exact h
    · simp only []
      split
      · decide
      · have hm : fmag a < 2 ^ 23 * 150 := by
          have := fmag_eq a
          have : ffrac a < 2 ^ 23 := Nat.mod_lt _ (by decide)
          omega
        have hu : funits a ≤ 2 ^ 173 := by
          have h1 : fmag a ≤ fmag 0x4B800000#32 := by
            have : fmag 0x4B800000#32 = 0x4B800000 := by decide
            omega
          have h2 := funits_le_of_fmag_le h1
          have : funits 0x4B800000#32 = 2 ^ 173 := by decide
          omega
        have hn : (fvalue a / 2 ^ 149).natAbs ≤ 2 ^ 24 := by
          have hv : fvalue a = (funits a : Int) ∨ fvalue a = -(funits a : Int) := by
            unfold fvalue; split <;> simp
          have : (funits a : Int) ≤ 2 ^ 173 := by exact_mod_cast hu
          rcases hv with hv | hv <;> rw [hv] <;> omega
        have hb := roundedMag_le .nearestEven (decide (fvalue a / 2 ^ 149 < 0)) 0x4B800000#32
          (num := (fvalue a / 2 ^ 149).natAbs * 2 ^ 149) (den := 1) (by decide) (by
            have : funits 0x4B800000#32 = 2 ^ 173 := by decide
            omega)
        have hf := roundPack_mag_le .nearestEven .kept (decide (fvalue a / 2 ^ 149 < 0))
          ((fvalue a / 2 ^ 149).natAbs * 2 ^ 149) 1
        have hc : fmag 0x4B800000#32 = 0x4B800000 := by decide
        have := hf.trans hb
        unfold isFinite
        rw [decide_eq_true_eq]
        omega

/-! ## NaN operands (47_laws_and_absent_families R361) -/

theorem Arithmetic.complete_nan (n : Arithmetic) (op : ArithOp) (f : F32 → F32 → Option F32) {a b : F32}
    (h : (isNaN a || isNaN b) = true) : isQuietNaN (n.complete op f a b) = true := by
  unfold Arithmetic.complete
  rw [if_pos h]
  exact n.nan_quiet op a b

/-- Arithmetic on a NaN answers a quiet NaN. -/
theorem Numerics.nan_of_nan (n : Numerics) {a b : F32} (h : (isNaN a || isNaN b) = true) :
    isQuietNaN (n.fadd a b) = true ∧ isQuietNaN (n.fsub a b) = true ∧
      isQuietNaN (n.fmul a b) = true ∧ isQuietNaN (n.fdiv a b) = true := by
  obtain ⟨m1, -, h1⟩ := n.fadd_rounds a b
  obtain ⟨m2, -, h2⟩ := n.fsub_rounds a b
  obtain ⟨m3, -, h3⟩ := n.fmul_rounds a b
  obtain ⟨m4, -, h4⟩ := n.fdiv_rounds a b
  rw [h1, h2, h3, h4]
  exact ⟨m1.complete_nan _ _ h, m2.complete_nan _ _ h, m3.complete_nan _ _ h, m4.complete_nan _ _ h⟩

theorem not_finite_of_quietNaN {a : F32} (h : isQuietNaN a = true) : isNaN a = true ∧ isFinite a = false := by
  simp only [isQuietNaN, isNaN, isFinite, Bool.and_eq_true, decide_eq_true_eq,
    decide_eq_false_iff_not] at h ⊢
  omega

end Sys2Proof
end

