-- ==== Sys2Proof/Laws/State.lean ====
section
/-! SUPPORT. One lemma per field per named update of the state, so that no proof unfolds an update. -/

namespace Sys2Proof.Machine

variable (s : State) (b : Bool) (c : Context) (ws : List Word)


/-! ## flagIllegal -/

@[simp] theorem State.flagIllegal_sin : s.flagIllegal.sin = s.sin := rfl
@[simp] theorem State.flagIllegal_fm : s.flagIllegal.fm = s.fm := rfl
@[simp] theorem State.flagIllegal_bq : s.flagIllegal.bq = s.bq := rfl
@[simp] theorem State.flagIllegal_env : s.flagIllegal.env = s.env := rfl
@[simp] theorem State.flagIllegal_v : s.flagIllegal.v = s.v := rfl
@[simp] theorem State.flagIllegal_rev : s.flagIllegal.rev = s.rev := rfl
@[simp] theorem State.flagIllegal_t : s.flagIllegal.t = s.t := rfl
@[simp] theorem State.flagIllegal_chP : s.flagIllegal.chP = s.chP := rfl
@[simp] theorem State.flagIllegal_chS : s.flagIllegal.chS = s.chS := rfl
@[simp] theorem State.flagIllegal_fault : s.flagIllegal.fault = { s.fault with illegal := true } := rfl
@[simp] theorem State.flagIllegal_tickPhase : s.flagIllegal.tickPhase = s.tickPhase := rfl
@[simp] theorem State.flagIllegal_portA : s.flagIllegal.portA = s.portA := rfl
@[simp] theorem State.flagIllegal_portC : s.flagIllegal.portC = s.portC := rfl
@[simp] theorem State.flagIllegal_resA : s.flagIllegal.resA = s.resA := rfl
@[simp] theorem State.flagIllegal_resC : s.flagIllegal.resC = s.resC := rfl
@[simp] theorem State.flagIllegal_audioOut : s.flagIllegal.audioOut = s.audioOut := rfl
@[simp] theorem State.flagIllegal_inputs : s.flagIllegal.inputs = s.inputs := rfl
@[simp] theorem State.flagIllegal_draws : s.flagIllegal.draws = s.draws := rfl

/-! ## flagCtx -/

@[simp] theorem State.flagCtx_sin : s.flagCtx.sin = s.sin := rfl
@[simp] theorem State.flagCtx_fm : s.flagCtx.fm = s.fm := rfl
@[simp] theorem State.flagCtx_bq : s.flagCtx.bq = s.bq := rfl
@[simp] theorem State.flagCtx_env : s.flagCtx.env = s.env := rfl
@[simp] theorem State.flagCtx_v : s.flagCtx.v = s.v := rfl
@[simp] theorem State.flagCtx_rev : s.flagCtx.rev = s.rev := rfl
@[simp] theorem State.flagCtx_t : s.flagCtx.t = s.t := rfl
@[simp] theorem State.flagCtx_chP : s.flagCtx.chP = s.chP := rfl
@[simp] theorem State.flagCtx_chS : s.flagCtx.chS = s.chS := rfl
@[simp] theorem State.flagCtx_fault : s.flagCtx.fault = { s.fault with ctx := true } := rfl
@[simp] theorem State.flagCtx_tickPhase : s.flagCtx.tickPhase = s.tickPhase := rfl
@[simp] theorem State.flagCtx_portA : s.flagCtx.portA = s.portA := rfl
@[simp] theorem State.flagCtx_portC : s.flagCtx.portC = s.portC := rfl
@[simp] theorem State.flagCtx_resA : s.flagCtx.resA = s.resA := rfl
@[simp] theorem State.flagCtx_resC : s.flagCtx.resC = s.resC := rfl
@[simp] theorem State.flagCtx_audioOut : s.flagCtx.audioOut = s.audioOut := rfl
@[simp] theorem State.flagCtx_inputs : s.flagCtx.inputs = s.inputs := rfl
@[simp] theorem State.flagCtx_draws : s.flagCtx.draws = s.draws := rfl

/-! ## flagNonfinite -/

@[simp] theorem State.flagNonfinite_sin : (s.flagNonfinite b).sin = s.sin := rfl
@[simp] theorem State.flagNonfinite_fm : (s.flagNonfinite b).fm = s.fm := rfl
@[simp] theorem State.flagNonfinite_bq : (s.flagNonfinite b).bq = s.bq := rfl
@[simp] theorem State.flagNonfinite_env : (s.flagNonfinite b).env = s.env := rfl
@[simp] theorem State.flagNonfinite_v : (s.flagNonfinite b).v = s.v := rfl
@[simp] theorem State.flagNonfinite_rev : (s.flagNonfinite b).rev = s.rev := rfl
@[simp] theorem State.flagNonfinite_t : (s.flagNonfinite b).t = s.t := rfl
@[simp] theorem State.flagNonfinite_chP : (s.flagNonfinite b).chP = s.chP := rfl
@[simp] theorem State.flagNonfinite_chS : (s.flagNonfinite b).chS = s.chS := rfl
@[simp] theorem State.flagNonfinite_fault : (s.flagNonfinite b).fault = { s.fault with nonfinite := s.fault.nonfinite || b } := rfl
@[simp] theorem State.flagNonfinite_tickPhase : (s.flagNonfinite b).tickPhase = s.tickPhase := rfl
@[simp] theorem State.flagNonfinite_portA : (s.flagNonfinite b).portA = s.portA := rfl
@[simp] theorem State.flagNonfinite_portC : (s.flagNonfinite b).portC = s.portC := rfl
@[simp] theorem State.flagNonfinite_resA : (s.flagNonfinite b).resA = s.resA := rfl
@[simp] theorem State.flagNonfinite_resC : (s.flagNonfinite b).resC = s.resC := rfl
@[simp] theorem State.flagNonfinite_audioOut : (s.flagNonfinite b).audioOut = s.audioOut := rfl
@[simp] theorem State.flagNonfinite_inputs : (s.flagNonfinite b).inputs = s.inputs := rfl
@[simp] theorem State.flagNonfinite_draws : (s.flagNonfinite b).draws = s.draws := rfl

/-! ## flagGuard -/

@[simp] theorem State.flagGuard_sin : (s.flagGuard b).sin = s.sin := rfl
@[simp] theorem State.flagGuard_fm : (s.flagGuard b).fm = s.fm := rfl
@[simp] theorem State.flagGuard_bq : (s.flagGuard b).bq = s.bq := rfl
@[simp] theorem State.flagGuard_env : (s.flagGuard b).env = s.env := rfl
@[simp] theorem State.flagGuard_v : (s.flagGuard b).v = s.v := rfl
@[simp] theorem State.flagGuard_rev : (s.flagGuard b).rev = s.rev := rfl
@[simp] theorem State.flagGuard_t : (s.flagGuard b).t = s.t := rfl
@[simp] theorem State.flagGuard_chP : (s.flagGuard b).chP = s.chP := rfl
@[simp] theorem State.flagGuard_chS : (s.flagGuard b).chS = s.chS := rfl
@[simp] theorem State.flagGuard_fault : (s.flagGuard b).fault = { s.fault with guard := s.fault.guard || b } := rfl
@[simp] theorem State.flagGuard_tickPhase : (s.flagGuard b).tickPhase = s.tickPhase := rfl
@[simp] theorem State.flagGuard_portA : (s.flagGuard b).portA = s.portA := rfl
@[simp] theorem State.flagGuard_portC : (s.flagGuard b).portC = s.portC := rfl
@[simp] theorem State.flagGuard_resA : (s.flagGuard b).resA = s.resA := rfl
@[simp] theorem State.flagGuard_resC : (s.flagGuard b).resC = s.resC := rfl
@[simp] theorem State.flagGuard_audioOut : (s.flagGuard b).audioOut = s.audioOut := rfl
@[simp] theorem State.flagGuard_inputs : (s.flagGuard b).inputs = s.inputs := rfl
@[simp] theorem State.flagGuard_draws : (s.flagGuard b).draws = s.draws := rfl

/-! ## nextInputs -/

@[simp] theorem State.nextInputs_sin : s.nextInputs.sin = s.sin := rfl
@[simp] theorem State.nextInputs_fm : s.nextInputs.fm = s.fm := rfl
@[simp] theorem State.nextInputs_bq : s.nextInputs.bq = s.bq := rfl
@[simp] theorem State.nextInputs_env : s.nextInputs.env = s.env := rfl
@[simp] theorem State.nextInputs_v : s.nextInputs.v = s.v := rfl
@[simp] theorem State.nextInputs_rev : s.nextInputs.rev = s.rev := rfl
@[simp] theorem State.nextInputs_t : s.nextInputs.t = s.t := rfl
@[simp] theorem State.nextInputs_chP : s.nextInputs.chP = s.chP := rfl
@[simp] theorem State.nextInputs_chS : s.nextInputs.chS = s.chS := rfl
@[simp] theorem State.nextInputs_fault : s.nextInputs.fault = s.fault := rfl
@[simp] theorem State.nextInputs_tickPhase : s.nextInputs.tickPhase = s.tickPhase := rfl
@[simp] theorem State.nextInputs_portA : s.nextInputs.portA = s.portA ++ (Config.arrivals s.draws).1 := rfl
@[simp] theorem State.nextInputs_portC : s.nextInputs.portC = s.portC ++ (Config.arrivals s.draws).2 := rfl
@[simp] theorem State.nextInputs_resA : s.nextInputs.resA = s.resA := rfl
@[simp] theorem State.nextInputs_resC : s.nextInputs.resC = s.resC := rfl
@[simp] theorem State.nextInputs_audioOut : s.nextInputs.audioOut = s.audioOut := rfl
@[simp] theorem State.nextInputs_inputs : s.nextInputs.inputs = Config.inputs s.draws := rfl
@[simp] theorem State.nextInputs_draws : s.nextInputs.draws = s.draws + 1 := rfl

/-! ## onPort -/

@[simp] theorem State.onPort_sin : (s.onPort c).sin = s.sin := rfl
@[simp] theorem State.onPort_fm : (s.onPort c).fm = s.fm := rfl
@[simp] theorem State.onPort_bq : (s.onPort c).bq = s.bq := rfl
@[simp] theorem State.onPort_env : (s.onPort c).env = s.env := rfl
@[simp] theorem State.onPort_v : (s.onPort c).v = s.v := rfl
@[simp] theorem State.onPort_rev : (s.onPort c).rev = s.rev := rfl
@[simp] theorem State.onPort_t : (s.onPort c).t = s.t := rfl
@[simp] theorem State.onPort_chP : (s.onPort c).chP = s.chP := rfl
@[simp] theorem State.onPort_chS : (s.onPort c).chS = s.chS := rfl
@[simp] theorem State.onPort_fault : (s.onPort c).fault = s.fault := rfl
@[simp] theorem State.onPort_tickPhase : (s.onPort c).tickPhase = s.tickPhase := rfl
@[simp] theorem State.onPort_portA : (s.onPort c).portA = s.portA := rfl
@[simp] theorem State.onPort_portC : (s.onPort c).portC = s.portC := rfl
@[simp] theorem State.onPort_resA : (s.onPort c).resA = s.resA := rfl
@[simp] theorem State.onPort_resC : (s.onPort c).resC = s.resC := rfl
@[simp] theorem State.onPort_audioOut : (s.onPort c).audioOut = s.audioOut := rfl
@[simp] theorem State.onPort_inputs : (s.onPort c).inputs = { s.inputs with turn := c } := rfl
@[simp] theorem State.onPort_draws : (s.onPort c).draws = s.draws := rfl

/-! ## result and setPort, by the context -/

@[simp] theorem State.result_sin : (s.result c ws).sin = s.sin := by cases c <;> rfl
@[simp] theorem State.result_fm : (s.result c ws).fm = s.fm := by cases c <;> rfl
@[simp] theorem State.result_bq : (s.result c ws).bq = s.bq := by cases c <;> rfl
@[simp] theorem State.result_env : (s.result c ws).env = s.env := by cases c <;> rfl
@[simp] theorem State.result_v : (s.result c ws).v = s.v := by cases c <;> rfl
@[simp] theorem State.result_rev : (s.result c ws).rev = s.rev := by cases c <;> rfl
@[simp] theorem State.result_t : (s.result c ws).t = s.t := by cases c <;> rfl
@[simp] theorem State.result_chP : (s.result c ws).chP = s.chP := by cases c <;> rfl
@[simp] theorem State.result_chS : (s.result c ws).chS = s.chS := by cases c <;> rfl
@[simp] theorem State.result_fault : (s.result c ws).fault = s.fault := by cases c <;> rfl
@[simp] theorem State.result_tickPhase : (s.result c ws).tickPhase = s.tickPhase := by cases c <;> rfl
@[simp] theorem State.result_portA : (s.result c ws).portA = s.portA := by cases c <;> rfl
@[simp] theorem State.result_portC : (s.result c ws).portC = s.portC := by cases c <;> rfl
@[simp] theorem State.result_audioOut : (s.result c ws).audioOut = s.audioOut := by cases c <;> rfl
@[simp] theorem State.result_inputs : (s.result c ws).inputs = s.inputs := by cases c <;> rfl
@[simp] theorem State.result_draws : (s.result c ws).draws = s.draws := by cases c <;> rfl
@[simp] theorem State.result_audio_resA : (s.result .audio ws).resA = s.resA ++ ws := rfl
@[simp] theorem State.result_audio_resC : (s.result .audio ws).resC = s.resC := rfl
@[simp] theorem State.result_control_resA : (s.result .control ws).resA = s.resA := rfl
@[simp] theorem State.result_control_resC : (s.result .control ws).resC = s.resC ++ ws := rfl
@[simp] theorem State.setPort_sin : (s.setPort c ws).sin = s.sin := by cases c <;> rfl
@[simp] theorem State.setPort_fm : (s.setPort c ws).fm = s.fm := by cases c <;> rfl
@[simp] theorem State.setPort_bq : (s.setPort c ws).bq = s.bq := by cases c <;> rfl
@[simp] theorem State.setPort_env : (s.setPort c ws).env = s.env := by cases c <;> rfl
@[simp] theorem State.setPort_v : (s.setPort c ws).v = s.v := by cases c <;> rfl
@[simp] theorem State.setPort_rev : (s.setPort c ws).rev = s.rev := by cases c <;> rfl
@[simp] theorem State.setPort_t : (s.setPort c ws).t = s.t := by cases c <;> rfl
@[simp] theorem State.setPort_chP : (s.setPort c ws).chP = s.chP := by cases c <;> rfl
@[simp] theorem State.setPort_chS : (s.setPort c ws).chS = s.chS := by cases c <;> rfl
@[simp] theorem State.setPort_fault : (s.setPort c ws).fault = s.fault := by cases c <;> rfl
@[simp] theorem State.setPort_tickPhase : (s.setPort c ws).tickPhase = s.tickPhase := by cases c <;> rfl
@[simp] theorem State.setPort_resA : (s.setPort c ws).resA = s.resA := by cases c <;> rfl
@[simp] theorem State.setPort_resC : (s.setPort c ws).resC = s.resC := by cases c <;> rfl
@[simp] theorem State.setPort_audioOut : (s.setPort c ws).audioOut = s.audioOut := by cases c <;> rfl
@[simp] theorem State.setPort_inputs : (s.setPort c ws).inputs = s.inputs := by cases c <;> rfl
@[simp] theorem State.setPort_draws : (s.setPort c ws).draws = s.draws := by cases c <;> rfl
@[simp] theorem State.setPort_audio_portA : (s.setPort .audio ws).portA = ws := rfl
@[simp] theorem State.setPort_audio_portC : (s.setPort .audio ws).portC = s.portC := rfl
@[simp] theorem State.setPort_control_portA : (s.setPort .control ws).portA = s.portA := rfl
@[simp] theorem State.setPort_control_portC : (s.setPort .control ws).portC = ws := rfl

/-! ## port -/

@[simp] theorem State.port_audio : s.port .audio = s.portA := rfl
@[simp] theorem State.port_control : s.port .control = s.portC := rfl
@[simp] theorem State.onPort_self : s.onPort s.inputs.turn = s := rfl

end Sys2Proof.Machine
end

