-- ==== Sys2Proof/Laws/Ops.lean ====
section
/-! SUPPORT. What each shared operation can do, said once: issuing, the channels, the clamps, the phase
wrap, draws and a step of the machine. -/

namespace Sys2Proof.Machine

/-! ## Issuing an operation -/

theorem issue_perform {right : Context} {s : State} {f : State → State} (h : s.inputs.turn = right) :
    issue true right s f = .next (f s) := by
  simp [issue, h]

theorem issue_wrong_port {right : Context} {s : State} {f : State → State}
    (h : s.inputs.turn ≠ right) : issue true right s f = .next s.flagCtx := by
  simp [issue, h]

theorem issue_illegal (right : Context) (s : State) (f : State → State) :
    issue false right s f = .next s.flagIllegal := rfl

/-- Issuing answers a next state, and it is one of the three responses. -/
theorem issue_cases (legal : Bool) (right : Context) (s : State) (f : State → State) :
    (legal = false ∧ issue legal right s f = .next s.flagIllegal) ∨
      (legal = true ∧ s.inputs.turn = right ∧ issue legal right s f = .next (f s)) ∨
      (legal = true ∧ s.inputs.turn ≠ right ∧ issue legal right s f = .next s.flagCtx) := by
  cases legal
  · exact .inl ⟨rfl, rfl⟩
  · by_cases h : s.inputs.turn = right
    · exact .inr (.inl ⟨rfl, h, issue_perform h⟩)
    · exact .inr (.inr ⟨rfl, h, issue_wrong_port h⟩)

/-! ## Channels (20_memory R84, R85) -/

@[simp] theorem chanWrite_slot {α : Type} (c : Channel α) (v : α) : (chanWrite c v).slot = v := rfl
@[simp] theorem chanWrite_fresh {α : Type} (c : Channel α) (v : α) : (chanWrite c v).fresh = true := rfl
@[simp] theorem chanRead_value {α : Type} (c : Channel α) : (chanRead c).1 = (c.fresh, c.slot) := rfl
@[simp] theorem chanRead_slot {α : Type} (c : Channel α) : (chanRead c).2.slot = c.slot := rfl
@[simp] theorem chanRead_fresh {α : Type} (c : Channel α) : (chanRead c).2.fresh = false := rfl

/-! ## Clamps and phases (00_scope R14, R15) -/

theorem fle_total {a b : F32} (ha : isNaN a = false) (hb : isNaN b = false)
    (h : fle a b = false) : fle b a = true := by
  simp only [fle, ha, hb] at *
  simp at *
  omega

theorem fle_not_nan {a b : F32} (h : fle a b = true) : isNaN a = false ∧ isNaN b = false := by
  simp only [fle, Bool.and_eq_true, Bool.not_eq_true'] at h
  exact h.1

theorem fle_trans {a b c : F32} (h : fle a b = true) (h' : fle b c = true) : fle a c = true := by
  simp only [fle, Bool.and_eq_true, Bool.not_eq_true', decide_eq_true_eq] at *
  exact ⟨⟨h.1.1, h'.1.2⟩, h.2.trans h'.2⟩

theorem fle_refl {a : F32} (h : isNaN a = false) : fle a a = true := by
  simp [fle, h]

/-- A clamp between ordered bounds answers a value between them, whatever its operand. -/
theorem clamp_range {x lo hi : F32} (h : fle lo hi = true) :
    fle lo (clamp x lo hi) = true ∧ fle (clamp x lo hi) hi = true := by
  have hn := fle_not_nan h
  unfold clamp
  split
  · exact ⟨fle_refl hn.1, h⟩
  · split
    · exact ⟨h, fle_refl hn.2⟩
    · exact ⟨by simp_all, by simp_all⟩

theorem clamp01_range (x : F32) : unitRange (clamp01 x) := clamp_range (by decide)

/-! ## The machine's step -/

@[simp] theorem mapNext_next (f : State → State) (s : State) :
    Outcome.mapNext f (.next s) = .next (f s) := rfl

theorem mapNext_eq_next {f : State → State} {o : Host.Outcome State Fault Refusal} {t : State}
    (h : Outcome.mapNext f o = .next t) : ∃ u, o = .next u ∧ t = f u := by
  cases o with
  | next u => exact ⟨u, rfl, by cases h; rfl⟩
  | fault r => cases h
  | refused r => cases h

/-- What one step can be: a reset, a further sub-step of TICK, a wait, an illegal operation consumed,
or an operation handed to `run`. -/
theorem stepWith_cases {c : Cfg} {run : Instr → State → Host.Outcome State Fault Refusal} {s t : State}
    (h : stepWith c run s = .next t) :
    (s.inputs.resetIn = true ∧ t = (s.resetNow c).nextInputs) ∨
      (s.inputs.resetIn = false ∧ ∃ u, t = u.nextInputs ∧
        ((s.inputs.turn = .audio ∧ s.tickPhase ≠ .first ∧ run .tick s = .next u) ∨
          (¬(s.inputs.turn = .audio ∧ s.tickPhase ≠ .first) ∧
            ((decodeOp (s.port s.inputs.turn) = .incomplete ∧ u = s) ∨
              (∃ why rest, decodeOp (s.port s.inputs.turn) = .illegal why rest ∧
                u = (s.setPort s.inputs.turn rest).flagIllegal) ∨
              ∃ i rest, decodeOp (s.port s.inputs.turn) = .op i rest ∧
                run i (s.setPort s.inputs.turn rest) = .next u)))) := by
  unfold stepWith at h
  split at h
  · rename_i hr
    exact .inl ⟨hr, by cases h; rfl⟩
  · rename_i hr
    obtain ⟨u, hu, rfl⟩ := mapNext_eq_next h
    refine .inr ⟨by simpa using hr, u, rfl, ?_⟩
    unfold atomicStep at hu
    split at hu
    · rename_i ht
      exact .inl ⟨ht.1, ht.2, hu⟩
    · rename_i ht
      refine .inr ⟨ht, ?_⟩
      unfold fetchAndRun at hu
      split at hu
      · rename_i hd
        exact .inl ⟨hd, by cases hu; rfl⟩
      · rename_i why rest hd
        exact .inr (.inl ⟨why, rest, hd, by cases hu; rfl⟩)
      · rename_i i rest hd
        exact .inr (.inr ⟨i, rest, hd, hu⟩)

/-- What one step of the machine can be. -/
theorem step_cases {s t : State} (h : step s = .next t) :
    (s.inputs.resetIn = true ∧ t = (s.resetNow Config.cfg).nextInputs) ∨
      (s.inputs.resetIn = false ∧ ∃ u, t = u.nextInputs ∧
        ((s.inputs.turn = .audio ∧ s.tickPhase ≠ .first ∧ exec .tick s = .next u) ∨
          (¬(s.inputs.turn = .audio ∧ s.tickPhase ≠ .first) ∧
            ((decodeOp (s.port s.inputs.turn) = .incomplete ∧ u = s) ∨
              (∃ why rest, decodeOp (s.port s.inputs.turn) = .illegal why rest ∧
                u = (s.setPort s.inputs.turn rest).flagIllegal) ∨
              ∃ i rest, decodeOp (s.port s.inputs.turn) = .op i rest ∧
                exec i (s.setPort s.inputs.turn rest) = .next u)))) :=
  stepWith_cases h

end Sys2Proof.Machine
end

