-- ==== Sys2Proof/Laws/Bounds.lean ====
section
/-! SUPPORT. Bounds that the rules lean on: comparisons through magnitudes, products of signals, the
phase wrap, quotients of ordered ends, products with a factor of at least 1.0, and the FM unit's exponent
(00_scope R13 to R16). -/

namespace Sys2Proof.Machine

/-! ## Comparisons through magnitudes -/

theorem flt_iff {a b : F32} (ha : isNaN a = false) (hb : isNaN b = false) :
    flt a b = true ↔ fle b a = false := by
  simp [flt, fle, ha, hb]

theorem fle_of_nan {a b : F32} (h : isNaN b = true) : fle a b = false := by simp [fle, h]

theorem fle_iff {a b : F32} :
    fle a b = true ↔ isNaN a = false ∧ isNaN b = false ∧ fkey a ≤ fkey b := by
  simp only [fle, Bool.and_eq_true, Bool.not_eq_true', decide_eq_true_eq, and_assoc]

theorem fkey_zero : fkey fZero = 0 := by decide

/-- The key of a datum by its sign. -/
theorem fkey_cases (a : F32) :
    (fsign a = true ∧ fkey a = -(fmag a : Int)) ∨ (fsign a = false ∧ fkey a = (fmag a : Int)) := by
  unfold fkey
  cases h : fsign a
  · exact .inr ⟨rfl, if_neg Bool.false_ne_true⟩
  · exact .inl ⟨rfl, if_pos rfl⟩

/-- At least zero: not a NaN, and positive or a zero. -/
theorem fle_zero_iff {a : F32} :
    fle fZero a = true ↔ isNaN a = false ∧ (fsign a = false ∨ fmag a = 0) := by
  rw [fle_iff, fkey_zero]
  have h0 : isNaN fZero = false := by decide
  rcases fkey_cases a with ⟨hs, hk⟩ | ⟨hs, hk⟩ <;> rw [hs, hk]
  · exact ⟨fun h => ⟨h.2.1, .inr (by omega)⟩,
      fun h => ⟨h0, h.1, by rcases h.2 with h | h; (· cases h); omega⟩⟩
  · exact ⟨fun h => ⟨h.2.1, .inl rfl⟩, fun h => ⟨h0, h.1, by omega⟩⟩

/-- At most zero: not a NaN, and negative or a zero. -/
theorem le_fZero_iff {a : F32} :
    fle a fZero = true ↔ isNaN a = false ∧ (fsign a = true ∨ fmag a = 0) := by
  rw [fle_iff, fkey_zero]
  have h0 : isNaN fZero = false := by decide
  rcases fkey_cases a with ⟨hs, hk⟩ | ⟨hs, hk⟩ <;> rw [hs, hk]
  · exact ⟨fun h => ⟨h.1, .inl rfl⟩, fun h => ⟨h.1, h0, by omega⟩⟩
  · exact ⟨fun h => ⟨h.1, .inr (by omega)⟩,
      fun h => ⟨h.1, h0, by rcases h.2 with h | h; (· cases h); omega⟩⟩

theorem fle_of_mag {a b : F32} (ha : isNaN a = false) (h0 : fle fZero b = true)
    (h : fmag a ≤ fmag b) : fle a b = true := by
  have hb := fle_iff.1 h0
  rw [fkey_zero] at hb
  refine fle_iff.2 ⟨ha, hb.2.1, ?_⟩
  have h3 := hb.2.2
  rcases fkey_cases a with ⟨-, hk⟩ | ⟨-, hk⟩ <;> rcases fkey_cases b with ⟨-, hk'⟩ | ⟨-, hk'⟩ <;>
    omega

theorem mag_of_fle {a b : F32} (h0 : fle fZero a = true) (h : fle a b = true) : fmag a ≤ fmag b := by
  have h1 := (fle_iff.1 h0).2.2
  have h2 := (fle_iff.1 h).2.2
  rw [fkey_zero] at h1
  rcases fkey_cases a with ⟨-, hk⟩ | ⟨-, hk⟩ <;> rcases fkey_cases b with ⟨-, hk'⟩ | ⟨-, hk'⟩ <;>
    omega

theorem inSignal_iff {a : F32} : inSignal a ↔ fmag a ≤ 0x3F800000 :=
  fle_fabs_iff (b := fOne) (by decide) (by decide)

theorem inSignal_finite {a : F32} (h : inSignal a) : isFinite a = true := by
  have := inSignal_iff.1 h
  simp only [isFinite, decide_eq_true_eq]
  omega

theorem unitRange_signal {a : F32} (h : unitRange a) : inSignal a :=
  inSignal_iff.2 (mag_of_fle h.1 h.2)

theorem inPhase_unitRange {a : F32} (h : inPhase a) : unitRange a := by
  refine ⟨h.1, ?_⟩
  have h2 := h.2
  simp only [flt, fle, Bool.and_eq_true, decide_eq_true_eq] at h2 ⊢
  exact ⟨h2.1, by omega⟩

theorem clamp_of_range {x lo hi : F32} (h : fle lo x = true) (h' : fle x hi = true) :
    clamp x lo hi = x := by
  simp [clamp, h, h']

theorem clamp01_idem (x : F32) : clamp01 (clamp01 x) = clamp01 x :=
  clamp_of_range (clamp01_range x).1 (clamp01_range x).2

/-! ## Products and the phase wrap -/

theorem fmul_signal (c : Cfg) {a b : F32} (ha : inSignal a) (hb : inSignal b) :
    inSignal (c.num.fmul a b) := by
  obtain ⟨n, -, hn⟩ := c.num.fmul_rounds a b
  rw [hn]
  exact inSignal_iff.2 ((n.fmul_mag_le (inSignal_finite ha) hb).2.trans (inSignal_iff.1 ha))

/-- 2π times a phase is finite. -/
theorem twoPi_phase_finite (c : Cfg) {a : F32} (h : inPhase a) :
    isFinite (c.num.fmul twoPi a) = true := by
  obtain ⟨n, -, hn⟩ := c.num.fmul_rounds twoPi a
  have h1 := (n.fmul_mag_le (a := twoPi) (by decide) (unitRange_signal (inPhase_unitRange h))).2
  have h2 : fmag twoPi = 0x40C90FDB := by decide
  rw [hn]
  simp only [isFinite, decide_eq_true_eq]
  omega

/-- NYQ is not below 0.0 (00_scope R8). -/
theorem nyq_nonneg (c : Cfg) : fle fZero c.nyq = true := by
  unfold Cfg.nyq
  obtain ⟨n, -, hn⟩ := c.num.fmul_rounds c.sampleRate fHalf
  have hs : fsign c.sampleRate = false := by
    have h := c.sampleRate_pos.2
    have h1 := fkey_cases c.sampleRate
    simp only [flt, Bool.and_eq_true, decide_eq_true_eq, fkey_zero] at h
    rcases h1 with ⟨-, hk⟩ | ⟨hs, -⟩
    · omega
    · exact hs
  obtain ⟨h1, h2, -⟩ := n.fmul_finite (b := fHalf) c.sampleRate_pos.1 (by decide)
  rw [hn]
  exact fle_zero_iff.2 ⟨h1, h2.imp_left fun h => by rw [h, hs]; decide⟩

/-- The phase wrap always answers a phase (00_scope R15). -/
theorem wrap_inPhase (c : Cfg) (p : F32) : inPhase (wrap c p) := by
  have z : inPhase fZero := by constructor <;> decide
  unfold wrap
  split
  · exact z
  · rename_i h
    simp only [Bool.not_eq_false] at h
    obtain ⟨m, -, hm⟩ := c.num.fsub_rounds p (ffloor p)
    have hq := m.fsub_not_nan h (ffloor_finite h)
    rw [← hm] at hq
    dsimp only
    generalize c.num.fsub p (ffloor p) = q at hq ⊢
    split
    · exact z
    · rename_i hh
      simp only [Bool.or_eq_true, not_or, Bool.not_eq_true] at hh
      refine ⟨?_, (flt_iff hq (by decide)).2 hh.1⟩
      by_contra h2
      have := (flt_iff hq (show isNaN fZero = false by decide)).2 (by simpa using h2)
      rw [hh.2] at this
      cases this

/-! ## Operations on data that are seen as they are -/

theorem operand_of_one_le (n : Arithmetic) {b : F32} (h : fle fOne b = true) : n.operand b = b := by
  have h1 := mag_of_fle (by decide) h
  have h2 : fmag fOne = 0x3F800000 := by decide
  unfold Arithmetic.operand
  exact if_neg (by omega)

theorem quotient?_eq (n : Arithmetic) {a b : F32} (ha : isFinite a = true) (hb : isFinite b = true) :
    n.quotient? a b = if isZero b then
        (if isZero a then none else some (fpack (fsign a != fsign b) 0x7F800000))
      else if isZero a then some (fpack (fsign a != fsign b) 0)
      else some (roundPack n.rounding n.results (fsign a != fsign b) (funits a * 2 ^ 149)
        (funits b)) := by
  unfold Arithmetic.quotient?
  simp only [isInf_of_isFinite ha, isInf_of_isFinite hb, Bool.false_eq_true, if_false]

theorem sum?_eq (n : Arithmetic) {a b : F32} (ha : isFinite a = true) (hb : isFinite b = true) :
    n.sum? a b = if fvalue a + fvalue b = 0 then some (n.zeroSum (fsign a) (fsign b))
      else some (roundPack n.rounding n.results (decide (fvalue a + fvalue b < 0))
        (fvalue a + fvalue b).natAbs 1) := by
  unfold Arithmetic.sum?
  simp only [isInf_of_isFinite ha, isInf_of_isFinite hb, Bool.false_eq_true, if_false]

theorem fmul_eq (n : Arithmetic) {a b : F32} (ha : isFinite a = true) (hb : isFinite b = true) :
    n.fmul a b = (n.product? (n.operand a) (n.operand b)).getD (n.nan .mul a b) := by
  unfold Arithmetic.fmul Arithmetic.complete
  rw [isNaN_of_isFinite ha, isNaN_of_isFinite hb]
  rfl

/-- A positive quantity of at least 1.0, rounded, is at least 1.0. -/
theorem one_le_roundPack (mode : Rounding) (f : Subnormals) {num den : Nat} (hden : 0 < den)
    (h : funits fOne * den ≤ num) : fle fOne (roundPack mode f false num den) = true := by
  have hr := le_roundedMag mode false fOne hden h
  have e1 : fmag fOne = 0x3F800000 := by decide
  refine fle_of_mag (by decide)
    (fle_zero_iff.2 ⟨roundPack_not_nan _ _ _ _ _, roundPack_sign _ _ _ _ _⟩) ?_
  have e2 : 2 ^ 23 ≤ funits fOne := by decide
  have h2 : 2 ^ 23 * den ≤ num := (Nat.mul_le_mul_right _ e2).trans h
  unfold roundPack finishRound
  generalize roundedMag mode false num den = m at hr ⊢
  dsimp only
  rw [Subnormals.replaces_eq_false (.inr ⟨h2, by omega⟩)]
  split
  · split <;> rw [fmag_fpack _ (by decide)] <;> omega
  · rw [if_neg (by decide), fmag_fpack _ (by omega)]; omega

theorem funits_pos {a : F32} (h : fmag a ≠ 0) : 0 < funits a := by
  by_contra h0
  have h1 := roundedMag_funits .nearestEven false a (den := 1) (by decide)
  rw [show funits a = 0 by omega] at h1
  have h2 : roundedMag .nearestEven false (0 * 1) 1 = 0 := by decide
  omega

theorem posFinite_iff {a : F32} : posFinite a ↔ isFinite a = true ∧ fsign a = false ∧ fmag a ≠ 0 := by
  unfold posFinite
  refine and_congr_right fun hf => ?_
  have h0 : isNaN fZero = false := by decide
  simp only [flt, isNaN_of_isFinite hf, h0, fkey_zero, Bool.not_false, Bool.true_and,
    decide_eq_true_eq]
  rcases fkey_cases a with ⟨hs, hk⟩ | ⟨hs, hk⟩ <;> rw [hs, hk]
  · simp
  · simp; omega

theorem fle_of_flt {a b : F32} (h : flt a b = true) : fle a b = true := by
  simp only [flt, fle, Bool.and_eq_true, decide_eq_true_eq] at h ⊢
  exact ⟨h.1, by omega⟩

/-- The quotient of ordered positive ends, finite or not, is at least 1.0 where it is no NaN. -/
theorem one_le_fdiv (n : Arithmetic) {lo hi : F32} (hlo : posFinite lo) (hhi : isFinite hi = true)
    (h : fle lo hi = true) (hf : isNaN (n.fdiv hi lo) = false) : fle fOne (n.fdiv hi lo) = true := by
  have p0 : fle fZero lo = true := fle_of_flt hlo.2
  have hm := mag_of_fle p0 h
  obtain ⟨hlf, slo, hne⟩ := posFinite_iff.1 hlo
  have shi : fsign hi = false := (fle_zero_iff.1 (fle_trans p0 h)).2.resolve_right (by omega)
  have key : n.fdiv hi lo = (n.quotient? (n.operand hi) (n.operand lo)).getD (n.nan .div hi lo) := by
    unfold Arithmetic.fdiv Arithmetic.complete
    rw [isNaN_of_isFinite hhi, isNaN_of_isFinite hlf]
    rfl
  have hnan := (not_finite_of_quietNaN (n.nan_quiet .div hi lo)).1
  rw [key, quotient?_eq n (n.operand_finite hhi) (n.operand_finite hlf), n.operand_positive slo,
    n.operand_positive shi] at hf ⊢
  by_cases hz : isZero (n.operand lo) = true
  · rw [if_pos hz] at hf ⊢
    split
    · rename_i hx
      rw [if_pos hx, Option.getD_none, hnan] at hf
      cases hf
    · exact (show fle fOne (fpack false 0x7F800000) = true by decide)
  · have hlo' : n.operand lo = lo := by
      unfold Arithmetic.operand at hz ⊢
      split
      · rename_i hc
        rw [if_pos hc] at hz
        simp [isZero] at hz
      · rfl
    have hhi' : n.operand hi = hi := by
      unfold Arithmetic.operand at hlo' ⊢
      split
      · rename_i hc
        rw [if_pos ⟨hc.1, hne, by omega⟩] at hlo'
        have := congrArg fmag hlo'
        rw [fmag_fpack _ (by decide)] at this
        omega
      · rfl
    have hz' : ¬ isZero hi = true := by simp only [isZero, decide_eq_true_eq]; omega
    rw [if_neg hz, hhi', if_neg hz', hlo', Option.getD_some]
    refine one_le_roundPack _ _ (funits_pos hne) ?_
    have e : funits fOne = 2 ^ 149 := by decide
    rw [e, Nat.mul_comm]
    exact Nat.mul_le_mul_right _ (funits_le_of_fmag_le hm)

/-- The quotient of positive finite ends is no NaN where the lower one is seen as it is. -/
theorem fdiv_not_nan (n : Arithmetic) {lo hi : F32} (hlo : posFinite lo) (hhi : isFinite hi = true)
    (ho : n.operand lo = lo) : isNaN (n.fdiv hi lo) = false := by
  obtain ⟨hlf, -, hne⟩ := posFinite_iff.1 hlo
  have hz : ¬ isZero lo = true := by simp only [isZero, decide_eq_true_eq]; exact hne
  unfold Arithmetic.fdiv Arithmetic.complete
  rw [isNaN_of_isFinite hhi, isNaN_of_isFinite hlf, Bool.or_self, if_neg (by decide), ho,
    quotient?_eq n (n.operand_finite hhi) hlf, if_neg hz]
  split
  · rw [Option.getD_some]; unfold isNaN; rw [fmag_fpack _ (by decide)]; decide
  · rw [Option.getD_some]; exact roundPack_not_nan _ _ _ _ _

/-! ## Exact results -/

/-- A pattern is its sign and its magnitude bits. -/
theorem fpack_self (a : F32) : fpack (fsign a) (fmag a) = a := by
  apply BitVec.eq_of_toNat_eq
  rw [fpack_toNat _ (fmag_lt a), fsign_eq]
  have h := a.isLt
  simp only [fmag]
  by_cases hs : 2 ^ 31 ≤ a.toNat
  · simp only [hs, decide_true, if_true]; omega
  · simp only [hs, decide_false, Bool.false_eq_true, if_false]; omega

/-- An exactly representable finite value rounds to its own pattern. -/
theorem roundPack_self (mode : Rounding) {f : Subnormals} {a : F32} {den : Nat} (hden : 0 < den)
    (ha : isFinite a = true) (hf : f = .kept ∨ 2 ^ 23 ≤ fmag a) :
    roundPack mode f (fsign a) (funits a * den) den = a := by
  simp only [isFinite, decide_eq_true_eq] at ha
  have e : funits 0x00800000#32 = 2 ^ 23 ∧ fmag 0x00800000#32 = 2 ^ 23 := by decide
  unfold roundPack finishRound
  dsimp only
  rw [roundedMag_funits mode _ a hden, if_neg (by omega), Subnormals.replaces_eq_false, if_neg (by decide),
    fpack_self]
  exact hf.imp_right fun h =>
    ⟨Nat.mul_le_mul_right _ (e.1 ▸ funits_le_of_fmag_le (e.2.le.trans h)), h⟩

/-- An operand that is not flushed is seen as it is. -/
theorem operand_keeps (n : Arithmetic) {a : F32} (h : n.operands = .kept ∨ 2 ^ 23 ≤ fmag a) :
    n.operand a = a := by
  unfold Arithmetic.operand
  rw [if_neg]
  rintro ⟨h1, -, h2⟩
  exact h.elim h1 (by omega)

/-- A product with 1.0 is the other factor, where that is not a subnormal or subnormals are kept. -/
theorem fmul_one (n : Arithmetic) {a : F32} (ha : isFinite a = true)
    (h : n.KeepsSubnormals ∨ fmag a = 0 ∨ 2 ^ 23 ≤ fmag a) : n.fmul a fOne = a := by
  have ho : n.operand a = a := by
    rcases h with h | h | h
    · exact operand_keeps n (.inl h.1)
    · exact n.operand_zero h
    · exact operand_keeps n (.inr h)
  have o1 : n.operand fOne = fOne := operand_of_one_le n (by decide)
  rw [fmul_eq n ha (by decide), ho, o1, n.product?_finite ha (by decide), Option.getD_some]
  have s1 : fsign fOne = false := by decide
  have z1 : isZero fOne = false := by decide
  rw [s1, z1, Bool.or_false]
  have hx : (fsign a != false) = fsign a := by cases fsign a <;> rfl
  rw [hx]
  split
  · rename_i hz
    simp only [isZero, decide_eq_true_eq] at hz
    have := fpack_self a
    rwa [hz] at this
  · rename_i hz
    simp only [isZero, decide_eq_true_eq] at hz
    have e : funits fOne = 2 ^ 149 := by decide
    rw [e]
    exact roundPack_self _ (by positivity) ha (h.imp (·.2) (·.resolve_left hz))

/-- A finite datum with a clear sign times +0.0 is +0.0. -/
theorem fmul_posZero (n : Arithmetic) {a : F32} (ha : isFinite a = true) (hs : fsign a = false) :
    n.fmul a fZero = fZero := by
  have s0 : fsign fZero = false := by decide
  have z0 : isZero fZero = true := by decide
  rw [fmul_eq n ha (by decide), n.operand_zero (a := fZero) (by decide),
    n.product?_finite (n.operand_finite ha) (by decide), Option.getD_some, n.operand_positive hs, s0, z0,
    Bool.or_true, if_pos rfl]
  decide

/-- A finite product with a zero is a zero. -/
theorem fmul_zero_mag (n : Arithmetic) {a b : F32} (ha : isFinite a = true) (hb : isFinite b = true)
    (h : fmag a = 0 ∨ fmag b = 0) : fmag (n.fmul a b) = 0 := by
  have h3 := (n.fmul_finite ha hb).2.2
  have hz : funits a * funits b = 0 := by
    have e : funits fZero = 0 := by decide
    have : ∀ x : F32, fmag x = 0 → funits x = 0 := fun x hx => by
      have := funits_le_of_fmag_le (a := x) (b := fZero) (by omega); omega
    rcases h with h | h
    · rw [this _ h, Nat.zero_mul]
    · rw [this _ h, Nat.mul_zero]
  rw [hz] at h3
  have := roundedMag_le n.rounding (fsign a != fsign b) fZero (num := 0) (den := 2 ^ 149)
    (by positivity) (Nat.zero_le _)
  have e : fmag fZero = 0 := by decide
  omega

/-- A sum with a zero is the other summand, where it is a normal number. -/
theorem fadd_zero (n : Arithmetic) {a b : F32} (ha : isFinite a = true) (h : 2 ^ 23 ≤ fmag a)
    (hb : fmag b = 0) : n.fadd a b = a := by
  have hbf : isFinite b = true := by simp [isFinite, hb]
  have ho : n.operand a = a := operand_keeps n (.inr h)
  have hbo : fmag (n.operand b) = 0 := by have := n.operand_mag_le b; omega
  unfold Arithmetic.fadd Arithmetic.complete
  rw [isNaN_of_isFinite ha, isNaN_of_isFinite hbf, ho]
  rw [if_neg (by decide), sum?_eq n ha (n.operand_finite hbf)]
  have hu : funits (n.operand b) = 0 := by
    have e : funits fZero = 0 := by decide
    have := funits_le_of_fmag_le (a := n.operand b) (b := fZero) (by omega); omega
  have hv : fvalue (n.operand b) = 0 := by unfold fvalue; rw [hu]; split <;> rfl
  have hp := funits_pos (a := a) (by omega)
  have hne : fvalue a ≠ 0 := by unfold fvalue; split <;> omega
  have hab : (fvalue a).natAbs = funits a := by unfold fvalue; split <;> omega
  have hs : decide (fvalue a < 0) = fsign a := by
    unfold fvalue; cases fsign a
    · simp
    · simp; omega
  rw [hv, Int.add_zero, if_neg hne, Option.getD_some, hab, hs]
  have := roundPack_self n.rounding (f := n.results) (den := 1) (by decide) ha (.inr h)
  rwa [Nat.mul_one] at this

/-! ## Products with a factor of at least 1.0 -/

/-- A positive finite datum that is normal, or that an arithmetic keeping subnormals takes, times a factor of
at least 1.0: infinity where the factor is, else the exact product rounded, with nothing flushed. -/
theorem fmul_of_one_le (n : Arithmetic) {a b : F32} (ha : posFinite a)
    (hk : n.KeepsSubnormals ∨ 2 ^ 23 ≤ fmag a) (hb : fle fOne b = true) :
    n.fmul a b = if isInf b then fpack false 0x7F800000 else
      finishRound n.rounding n.results false false
        (roundedMag n.rounding false (funits a * funits b) (2 ^ 149)) := by
  obtain ⟨haf, hs, hne⟩ := posFinite_iff.1 ha
  have oa : n.operand a = a := operand_keeps n (hk.imp_left And.left)
  have ob := operand_of_one_le n hb
  have hm := mag_of_fle (by decide) hb
  have e1 : fmag fOne = 0x3F800000 := by decide
  have hsb : fsign b = false := (fle_zero_iff.1 (fle_trans (by decide) hb)).2.resolve_right (by omega)
  have za : isZero a = false := by simp only [isZero, decide_eq_false_iff_not]; exact hne
  have zb : isZero b = false := by simp only [isZero, decide_eq_false_iff_not]; omega
  have hu : funits a * funits fOne ≤ funits a * funits b :=
    Nat.mul_le_mul_left _ (funits_le_of_fmag_le hm)
  rw [show funits fOne = 2 ^ 149 by decide] at hu
  have hden : 0 < 2 ^ 149 := by positivity
  generalize hd : 2 ^ 149 = den at hu hden ⊢
  have hr : n.results.replaces (funits a * funits b) den
      (roundedMag n.rounding false (funits a * funits b) den) = false := by
    refine Subnormals.replaces_eq_false (hk.imp And.right fun h => ⟨?_, ?_⟩)
    · have e2 : funits 0x00800000#32 = 2 ^ 23 ∧ fmag 0x00800000#32 = 2 ^ 23 := by decide
      have h2 := funits_le_of_fmag_le (e2.2.le.trans h)
      rw [e2.1] at h2
      exact (Nat.mul_le_mul_right _ h2).trans hu
    · exact h.trans (le_roundedMag _ _ a hden hu)
  unfold Arithmetic.fmul Arithmetic.complete Arithmetic.product? roundPack
  rw [hd, isNaN_of_isFinite haf, (fle_iff.1 hb).2.1, Bool.or_self, if_neg (by decide), oa, ob, hs, hsb,
    isInf_of_isFinite haf, za, zb, Bool.false_or, Bool.or_self, bne_self_eq_false]
  dsimp only
  rw [hr]
  simp only [Bool.false_eq_true, if_false]
  split <;> rw [Option.getD_some]

/-- The product with a factor of at least 1.0 grows with the factor, in one rounding direction. -/
theorem fmul_mono_of_one_le (n m : Arithmetic) (hr : n.rounding = m.rounding) {a b b' : F32}
    (ha : posFinite a) (hn : n.KeepsSubnormals ∨ 2 ^ 23 ≤ fmag a)
    (hm : m.KeepsSubnormals ∨ 2 ^ 23 ≤ fmag a) (hb : fle fOne b = true) (h : fle b b' = true) :
    fle (n.fmul a b) (m.fmul a b') = true := by
  have hb' := fle_trans hb h
  have hmag := mag_of_fle (fle_trans (by decide) hb) h
  have hN := (fle_iff.1 hb').2.1
  have hp := roundedMag_mono m.rounding false (2 ^ 149)
    (Nat.mul_le_mul_left (funits a) (funits_le_of_fmag_le hmag))
  rw [fmul_of_one_le n ha hn hb, fmul_of_one_le m ha hm hb', hr]
  generalize roundedMag m.rounding false (funits a * funits b) (2 ^ 149) = x at hp ⊢
  generalize roundedMag m.rounding false (funits a * funits b') (2 ^ 149) = y at hp ⊢
  have hx := finishRound_mag_le m.rounding n.results false false x
  have key : ∀ z : F32, isNaN z = false → fmag z ≤ 0x7F800000 →
      fle z (fpack false 0x7F800000) = true := fun z h1 h2 => fle_of_mag h1 (by decide)
        (h2.trans (by decide))
  by_cases hi : isInf b' = true
  · rw [if_pos hi]
    split
    · decide
    · exact key _ (finishRound_not_nan _ _ _ _ _) hx.1
  · have hi2 : ¬ isInf b = true := by
      simp only [isInf, isNaN, decide_eq_true_eq, decide_eq_false_iff_not] at hi hN ⊢
      omega
    rw [if_neg hi, if_neg hi2]
    refine fle_of_mag (finishRound_not_nan _ _ _ _ _)
      (fle_zero_iff.2 ⟨finishRound_not_nan _ _ _ _ _, finishRound_sign _ _ _ _ _⟩) ?_
    unfold finishRound at hx ⊢
    simp only [Bool.false_eq_true, if_false] at hx ⊢
    by_cases h1 : 0x7F800000 ≤ x
    · rw [if_pos h1, if_pos (h1.trans hp)]
    · by_cases h2 : 0x7F800000 ≤ y
      · rw [if_neg h1, if_pos h2, fmag_fpack _ (by omega), fmag_fpack _ (by split <;> decide)]
        split <;> omega
      · rw [if_neg h1, if_neg h2, fmag_fpack _ (by omega), fmag_fpack _ (by omega)]
        exact hp

/-! ## The FM unit's exponent (41_fm_modulator R185) -/

/-- A signal less 1.0 is finite and at most zero. -/
theorem fsub_one_le_zero (n : Arithmetic) {m : F32} (h : inSignal m) :
    isFinite (n.fsub m fOne) = true ∧ fle (n.fsub m fOne) fZero = true := by
  have hm := inSignal_iff.1 h
  have hf := inSignal_finite h
  have o1 : n.operand fOne = fOne := operand_of_one_le n (by decide)
  have hu : funits (n.operand m) ≤ 2 ^ 149 := by
    have e : funits fOne = 2 ^ 149 := by decide
    rw [← e]
    exact funits_le_of_fmag_le ((n.operand_mag_le m).trans hm)
  have hv : fvalue (n.operand m) ≤ 2 ^ 149 ∧ -(2 ^ 149) ≤ fvalue (n.operand m) := by
    have : (funits (n.operand m) : Int) ≤ 2 ^ 149 := by exact_mod_cast hu
    unfold fvalue
    split <;> omega
  have e2 : fvalue (fneg fOne) = -(2 ^ 149) := by decide
  have key : n.fsub m fOne = (n.sum? (n.operand m) (fneg fOne)).getD (n.nan .sub m fOne) := by
    unfold Arithmetic.fsub Arithmetic.complete
    rw [isNaN_of_isFinite hf]
    simp [o1, show isNaN fOne = false by decide]
  have hs := sum?_eq n (n.operand_finite hf) (show isFinite (fneg fOne) = true by decide)
  rw [key, hs, e2]
  have hr : fvalue (n.operand m) + -(2 ^ 149) ≤ 0 ∧ -(2 ^ 150) ≤ fvalue (n.operand m) + -(2 ^ 149) := by
    omega
  generalize fvalue (n.operand m) + -(2 ^ 149) = v at hr ⊢
  split
  · rw [Option.getD_some]
    unfold Arithmetic.zeroSum
    exact ⟨by simp [isFinite], le_fZero_iff.2 ⟨by simp [isNaN], .inr (by simp)⟩⟩
  · rename_i hne
    rw [Option.getD_some, decide_eq_true (show v < 0 by omega)]
    refine ⟨?_, le_fZero_iff.2 ⟨roundPack_not_nan _ _ _ _ _, roundPack_sign _ _ _ _ _⟩⟩
    have h2 := (roundPack_mag_le n.rounding n.results true v.natAbs 1).trans
      (roundedMag_le n.rounding true fTwo (den := 1) (by decide) (by
        have e : funits fTwo = 2 ^ 150 := by decide
        rw [e]
        omega))
    have e : fmag fTwo = 0x40000000 := by decide
    simp only [isFinite, decide_eq_true_eq]
    omega

/-- A datum at least zero, infinity too, times a finite one at most zero is at most zero unless it is a NaN. -/
theorem fmul_le_zero (n : Arithmetic) {a b : F32} (h0 : fle fZero a = true) (hb : isFinite b = true)
    (h : fle b fZero = true) (hn : isNaN (n.fmul a b) = false) : fle (n.fmul a b) fZero = true := by
  refine le_fZero_iff.2 ⟨hn, ?_⟩
  obtain ⟨hna, h3⟩ := fle_zero_iff.1 h0
  by_cases ha : isFinite a = true
  · have hz := fmul_zero_mag n ha hb
    rcases h3 with h3 | h3
    · rcases (le_fZero_iff.1 h).2 with h4 | h4
      · exact (n.fmul_finite ha hb).2.1.imp_left fun h5 => by rw [h5, h3, h4]; rfl
      · exact .inr (hz (.inr h4))
    · exact .inr (hz (.inl h3))
  · have hi : fmag a = 0x7F800000 := by
      simp only [isFinite, isNaN, decide_eq_true_eq, decide_eq_false_iff_not] at ha hna
      omega
    have hs : fsign a = false := h3.resolve_right (by omega)
    have zi : isInf a = true ∧ isZero a = false := by simp [isInf, isZero, hi]
    unfold Arithmetic.fmul Arithmetic.complete Arithmetic.product? at hn ⊢
    rw [hna, isNaN_of_isFinite hb, Bool.or_self, if_neg (by decide),
      operand_keeps n (.inr (by omega)), zi.1, zi.2, hs, Bool.true_or, Bool.false_or, if_pos rfl] at hn ⊢
    split at hn
    · exact absurd hn (by rw [Option.getD_none, (not_finite_of_quietNaN (n.nan_quiet _ _ _)).1]; decide)
    · rename_i hz
      simp only [isZero, decide_eq_true_eq] at hz
      have hob := (n.operand_sign b).resolve_right hz
      have hbz : fmag b ≠ 0 := by have := n.operand_mag_le b; omega
      rw [if_neg (by simpa [isZero] using hz), Option.getD_some, hob,
        (le_fZero_iff.1 h).2.resolve_right hbz]
      exact .inl (by decide)

/-- The exponent of `g`: no NaN where the index is finite, and at most zero where the index is at least zero
and the exponent is no NaN (R185). -/
theorem fmExponent_le_zero (c : Cfg) {index mphase : F32} (hm : inPhase mphase) :
    (isFinite index = true → isNaN (fmExponent c index mphase) = false) ∧
    (fle fZero index = true → isNaN (fmExponent c index mphase) = false →
      fle (fmExponent c index mphase) fZero = true) := by
  unfold fmExponent
  have hc := c.num.cos_bound _ (twoPi_phase_finite c hm)
  generalize c.num.cos (c.num.fmul twoPi mphase) = m at hc ⊢
  obtain ⟨n1, -, e1⟩ := c.num.fsub_rounds m fOne
  obtain ⟨n2, -, e2⟩ := c.num.fmul_rounds index (c.num.fsub m fOne)
  obtain ⟨k1, k2⟩ := fsub_one_le_zero n1 hc
  rw [← e1] at k1 k2
  rw [e2]
  exact ⟨fun hi => (n2.fmul_finite hi k1).1, fun h0 => fmul_le_zero n2 h0 k1 k2⟩

/-- There `g` is `EXP` of it, as R183 writes it. -/
theorem fmGain_eq (c : Cfg) {index mphase : F32} (h : fle (fmExponent c index mphase) fZero = true) :
    fmGain c index mphase = c.num.exp (fmExponent c index mphase) := if_pos h

/-- `g` lies in [0, 1], whatever the index and the phase (R183). -/
theorem fmGain_range (c : Cfg) (index mphase : F32) : unitRange (fmGain c index mphase) := by
  unfold fmGain
  dsimp only
  split
  · rename_i h
    exact c.num.exp_range _ h
  · exact clamp01_range _

/-- Both samples of a unit whose carrier phase is a phase are signals (R185). -/
theorem fmSamples_signal (c : Cfg) {u : FmUnit} (p1 : F32) (h : inPhase u.cphase) :
    inSignal (fmSamples c u p1).1 ∧ inSignal (fmSamples c u p1).2 := by
  have hg := unitRange_signal (fmGain_range c (fmIndex c p1) u.mphase)
  have ha := twoPi_phase_finite c h
  exact ⟨fmul_signal c hg (c.num.cos_bound _ ha), fmul_signal c hg (c.num.sin_bound _ ha)⟩

end Sys2Proof.Machine
end

