-- ==== Sys2Proof/Laws/PerInstr.lean ====
section
/-! SUPPORT. The encoding, one lemma per operation: the header of its words holds its fields, the opcode
map has its row, and the row's operation built from its own fields is it (30_encoding R111 to R116). -/

namespace Sys2Proof.Laws

/-- What the encoding says of one operation: the header of `encode i` holds its opcode, its `sel`, zeros
and the number of its operand words; the opcode map has a row for it with that number and, where the
operation is well-formed, a range that takes its `sel`; and the operation the row spells is `i`. -/
def Header.Statement (i : Instr) : Prop :=
  (headerOpcode (headerWord i.opcode i.sel i.operands.length) = i.opcode ∧
    headerSel (headerWord i.opcode i.sel i.operands.length) = i.sel ∧
    headerZero (headerWord i.opcode i.sel i.operands.length) = 0 ∧
    headerNops (headerWord i.opcode i.sel i.operands.length) = i.operands.length) ∧
  (∃ r, findRow i.opcode = some r ∧ r.format.nops = i.operands.length ∧
    (i.wellFormed = true ↔ i.sel.toNat ≤ r.selMax)) ∧
  buildOp i.opcode i.sel (fun k => i.operands.getD k 0) = some i

theorem headerOpcode_word (o s : U8) (n : Nat) : headerOpcode (headerWord o s n) = o := by
  ext k hk
  simp [headerOpcode, headerWord]
  rw [BitVec.getLsbD_append, BitVec.getLsbD_append, BitVec.getLsbD_append]
  simp [show ¬ 24 + k < 8 by omega, show ¬ 24 + k - 8 < 8 by omega,
    show ¬ 24 + k - 8 - 8 < 8 by omega, show 24 + k - 8 - 8 - 8 = k by omega, hk]

theorem headerSel_word (o s : U8) (n : Nat) : headerSel (headerWord o s n) = s := by
  ext k hk
  simp [headerSel, headerWord]
  rw [BitVec.getLsbD_append, BitVec.getLsbD_append, BitVec.getLsbD_append]
  simp [show ¬ 16 + k < 8 by omega, show ¬ 16 + k - 8 < 8 by omega, show 16 + k - 8 - 8 = k by omega, hk]

theorem headerZero_word (o s : U8) (n : Nat) : headerZero (headerWord o s n) = 0 := by
  ext k hk
  simp [headerZero, headerWord]
  rw [BitVec.getLsbD_append, BitVec.getLsbD_append]
  simp [show ¬ 8 + k < 8 by omega, hk]

theorem headerNops_word (o s : U8) {n : Nat} (h : n < 256) : headerNops (headerWord o s n) = n := by
  have e : (headerWord o s n).extractLsb' 0 8 = BitVec.ofNat 8 n := by
    ext k hk
    simp [headerWord]
    rw [BitVec.getLsbD_append]
    simp [hk]
  simp [headerNops, e, Nat.mod_eq_of_lt h]

theorem operands_length (i : Instr) : i.operands.length < 256 := by
  cases i <;> simp [Instr.operands]

/-- An immediate with a range. -/
theorem sel_range (x : U8) (n : Nat) : (decide (x.toNat < n + 1) = true) ↔ x.toNat ≤ n := by
  rw [decide_eq_true_eq]
  omega

/-- An immediate that takes all its values (R114). -/
theorem sel_any (x : U8) : true = true ↔ x.toNat ≤ 255 := by
  simp only [true_iff]
  omega

/-- The absent immediate (R113). -/
theorem sel_none : true = true ↔ (0 : U8).toNat ≤ 0 := by simp

/-- Of every operation, once its row and its building are shown. -/
theorem header_of (i : Instr) (r : OpRow) (h : findRow i.opcode = some r)
    (h' : r.format.nops = i.operands.length)
    (hw : i.wellFormed = true ↔ i.sel.toNat ≤ r.selMax)
    (hb : buildOp i.opcode i.sel (fun k => i.operands.getD k 0) = some i) : Header.Statement i :=
  ⟨⟨headerOpcode_word _ _ _, headerSel_word _ _ _, headerZero_word _ _ _,
    headerNops_word _ _ (operands_length i)⟩, ⟨r, h, h', hw⟩, hb⟩

theorem Header.sinReset : ∀ x0, Header.Statement (.sinReset x0) :=
  fun x0 => header_of _ _ rfl rfl (sel_range x0 1) rfl

theorem Header.sinStep : ∀ x0 x1, Header.Statement (.sinStep x0 x1) :=
  fun x0 _ => header_of _ _ rfl rfl (sel_range x0 1) rfl

theorem Header.oscReset : Header.Statement .oscReset :=
  header_of _ _ rfl rfl sel_none rfl

theorem Header.oscProc : ∀ x0 x1 x2 x3 x4, Header.Statement (.oscProc x0 x1 x2 x3 x4) :=
  fun x0 _ _ _ _ => header_of _ _ rfl rfl (sel_any x0) rfl

theorem Header.fmReset : Header.Statement .fmReset :=
  header_of _ _ rfl rfl sel_none rfl

theorem Header.fmStep : ∀ x0 x1 x2 x3 x4, Header.Statement (.fmStep x0 x1 x2 x3 x4) :=
  fun x0 _ _ _ _ => header_of _ _ rfl rfl (sel_range x0 1) rfl

theorem Header.wfFold : ∀ x0 x1, Header.Statement (.wfFold x0 x1) :=
  fun _ _ => header_of _ _ rfl rfl sel_none rfl

theorem Header.bqReset : Header.Statement .bqReset :=
  header_of _ _ rfl rfl sel_none rfl

theorem Header.bqSetc : ∀ x0 x1, Header.Statement (.bqSetc x0 x1) :=
  fun x0 _ => header_of _ _ rfl rfl (sel_range x0 4) rfl

theorem Header.bqStep : ∀ x0, Header.Statement (.bqStep x0) :=
  fun _ => header_of _ _ rfl rfl sel_none rfl

theorem Header.envReset : Header.Statement .envReset :=
  header_of _ _ rfl rfl sel_none rfl

theorem Header.envGate : ∀ x0, Header.Statement (.envGate x0) :=
  fun x0 => header_of _ _ rfl rfl (sel_range x0 1) rfl

theorem Header.envSeta : ∀ x0, Header.Statement (.envSeta x0) :=
  fun _ => header_of _ _ rfl rfl sel_none rfl

theorem Header.envSetr : ∀ x0, Header.Statement (.envSetr x0) :=
  fun _ => header_of _ _ rfl rfl sel_none rfl

theorem Header.envStep : Header.Statement .envStep :=
  header_of _ _ rfl rfl sel_none rfl

theorem Header.vNoteon : ∀ x0 x1, Header.Statement (.vNoteon x0 x1) :=
  fun _ _ => header_of _ _ rfl rfl sel_none rfl

theorem Header.vNoteoff : Header.Statement .vNoteoff :=
  header_of _ _ rfl rfl sel_none rfl

theorem Header.vProc : Header.Statement .vProc :=
  header_of _ _ rfl rfl sel_none rfl

theorem Header.vIsplay : Header.Statement .vIsplay :=
  header_of _ _ rfl rfl sel_none rfl

theorem Header.vSetalg : ∀ x0, Header.Statement (.vSetalg x0) :=
  fun x0 => header_of _ _ rfl rfl (sel_any x0) rfl

theorem Header.vSetp1 : ∀ x0, Header.Statement (.vSetp1 x0) :=
  fun _ => header_of _ _ rfl rfl sel_none rfl

theorem Header.vSetp2 : ∀ x0, Header.Statement (.vSetp2 x0) :=
  fun _ => header_of _ _ rfl rfl sel_none rfl

theorem Header.vSetwf : ∀ x0, Header.Statement (.vSetwf x0) :=
  fun _ => header_of _ _ rfl rfl sel_none rfl

theorem Header.vSetatk : ∀ x0, Header.Statement (.vSetatk x0) :=
  fun _ => header_of _ _ rfl rfl sel_none rfl

theorem Header.vSetrel : ∀ x0, Header.Statement (.vSetrel x0) :=
  fun _ => header_of _ _ rfl rfl sel_none rfl

theorem Header.vSetrvs : ∀ x0, Header.Statement (.vSetrvs x0) :=
  fun _ => header_of _ _ rfl rfl sel_none rfl

theorem Header.vSetrvl : ∀ x0, Header.Statement (.vSetrvl x0) :=
  fun _ => header_of _ _ rfl rfl sel_none rfl

theorem Header.vSetmg : ∀ x0, Header.Statement (.vSetmg x0) :=
  fun _ => header_of _ _ rfl rfl sel_none rfl

theorem Header.vSetfreq : ∀ x0, Header.Statement (.vSetfreq x0) :=
  fun _ => header_of _ _ rfl rfl sel_none rfl

theorem Header.chPwr : ∀ x0, Header.Statement (.chPwr x0) :=
  fun x0 => header_of _ _ rfl rfl (sel_any x0.algorithm) rfl

theorem Header.chPrd : Header.Statement .chPrd :=
  header_of _ _ rfl rfl sel_none rfl

theorem Header.chSwr : ∀ x0 x1, Header.Statement (.chSwr x0 x1) :=
  fun x0 _ => header_of _ _ rfl rfl (sel_range x0 1) rfl

theorem Header.chSrd : Header.Statement .chSrd :=
  header_of _ _ rfl rfl sel_none rfl

theorem Header.tick : Header.Statement .tick :=
  header_of _ _ rfl rfl sel_none rfl

end Sys2Proof.Laws
end

