-- ==== Sys2Proof/Laws/Encoding.lean ====
section
/-! SUPPORT. The decoder's parts said once: the header of every operation, a header split into its fields,
and what an assigned opcode builds (30_encoding R111 to R116). -/

namespace Sys2Proof.Laws

/-- `Header.Statement` holds of every operation. -/
theorem header_statement (i : Instr) : Header.Statement i := by
  cases i
  · exact Header.sinReset _
  · exact Header.sinStep _ _
  · exact Header.oscReset
  · exact Header.oscProc _ _ _ _ _
  · exact Header.fmReset
  · exact Header.fmStep _ _ _ _ _
  · exact Header.wfFold _ _
  · exact Header.bqReset
  · exact Header.bqSetc _ _
  · exact Header.bqStep _
  · exact Header.envReset
  · exact Header.envGate _
  · exact Header.envSeta _
  · exact Header.envSetr _
  · exact Header.envStep
  · exact Header.vNoteon _ _
  · exact Header.vNoteoff
  · exact Header.vProc
  · exact Header.vIsplay
  · exact Header.vSetalg _
  · exact Header.vSetp1 _
  · exact Header.vSetp2 _
  · exact Header.vSetwf _
  · exact Header.vSetatk _
  · exact Header.vSetrel _
  · exact Header.vSetrvs _
  · exact Header.vSetrvl _
  · exact Header.vSetmg _
  · exact Header.vSetfreq _
  · exact Header.chPwr _
  · exact Header.chPrd
  · exact Header.chSwr _ _
  · exact Header.chSrd
  · exact Header.tick

/-- A header word is its four fields, high to low (R111). -/
theorem header_split (h : Word) :
    h = headerOpcode h ++ headerSel h ++ headerZero h ++ BitVec.ofNat 8 (headerNops h) := by
  simp only [headerOpcode, headerSel, headerZero, headerNops, BitVec.ofNat_toNat, BitVec.setWidth_eq]
  apply BitVec.eq_of_getLsbD_eq; intro i hi
  rw [BitVec.getLsbD_append, BitVec.getLsbD_append, BitVec.getLsbD_append]
  simp only [BitVec.getLsbD_extractLsb']
  by_cases h1 : i < 8
  · simp [h1]
  · by_cases h2 : i - 8 < 8
    · simp [h1, h2]; congr 1; omega
    · by_cases h3 : i - 8 - 8 < 8
      · simp [h1, h2, h3]; congr 1; omega
      · simp [h1, h2, h3, show i - 8 - 8 - 8 < 8 by omega]; congr 1; omega

/-- Words lists of one length that agree at every place are equal. -/
theorem eq_of_getD {l l' : List Word} (hl : l.length = l'.length)
    (h : ∀ k, k < l.length → l.getD k 0 = l'.getD k 0) : l = l' := by
  apply List.ext_getElem hl
  intro n h1 h2
  have := h n h1
  simpa [List.getD, h1, h2] using this

/-- What `buildOp` answers is of the opcode given, of the operand count of its row, and made of the `sel`
(where the row has one) and of the operand words given. -/
theorem buildOp_fields {o sel : U8} {w : Nat → Word} {i : Instr} (h : buildOp o sel w = some i) :
    i.opcode = o ∧
    (∀ r, findRow o = some r →
      i.operands.length = r.format.nops ∧ (i.sel = sel ∨ (i.sel = 0 ∧ r.selMax = 0))) ∧
    ∀ k, k < i.operands.length → i.operands.getD k 0 = w k := by
  unfold buildOp at h
  split at h <;> cases h <;> rename_i ho
  all_goals
    refine ⟨?_, ?_, ?_⟩
    · exact BitVec.eq_of_toNat_eq (by rw [ho]; rfl)
    · intro r hr
      have ho' : o = BitVec.ofNat 8 o.toNat := by simp
      rw [ho] at ho'
      subst ho'
      cases (show findRow _ = some _ from rfl).symm.trans hr
      simp [Instr.operands, Format.nops, Instr.sel]
    · intro k hk
      simp only [Instr.operands, List.length] at hk ⊢
      interval_cases k <;> rfl

end Sys2Proof.Laws
end

