-- ==== Sys2Proof/Laws/Units.lean ====
section
/-! SUPPORT. What each unit operation can do to the state, said once, so that no proof unfolds the
chain: the fields it may change, and that the rest stay. -/

namespace Sys2Proof.Machine

/-! ## Generators -/

@[simp] theorem setPhase_zero (u : SineUnit) (ph : F32) :
    u.setPhase 0#8 ph = { u with phase0 := ph } := rfl

@[simp] theorem setPhase_one (u : SineUnit) (ph : F32) :
    u.setPhase 1#8 ph = { u with phase1 := ph } := rfl

@[simp] theorem phase_zero (u : SineUnit) : u.phase 0#8 = u.phase0 := rfl
@[simp] theorem phase_one (u : SineUnit) : u.phase 1#8 = u.phase1 := rfl

/-- OSC.RESET writes `sin.phase[0]` and the FM unit only (40_sine_osc R156). -/
@[simp] theorem oscReset_eq (s : State) :
    oscReset s = { s with sin := { s.sin with phase0 := fZero }, fm := fmZero } := rfl

/-- A step of the dispatcher may change `sin.phase[0]`, the FM unit, `fault.nonfinite` and the draw
index, and nothing else (40_sine_osc R157). -/
theorem oscProc_state (c : Cfg) (idx : U8) (pitch p1 p2 p3 : F32) (s : State) :
    ∃ ph u b d, (oscProc c idx pitch p1 p2 p3 s).2 =
      { s with sin := { s.sin with phase0 := ph }, fm := u, draws := d
               fault := { s.fault with nonfinite := s.fault.nonfinite || b } } := by
  unfold oscProc
  split
  · exact ⟨_, s.fm, _, s.draws, rfl⟩
  · split
    · exact ⟨s.sin.phase0, _, _, s.draws, rfl⟩
    · exact ⟨s.sin.phase0, _, _, s.draws, rfl⟩
    · exact ⟨s.sin.phase0, s.fm, false, s.draws + 1, by simp [externalPair]⟩

/-! ## The voice chain -/

theorem voiceFolded_state (c : Cfg) (s : State) :
    ∃ ph u b d, (voiceFolded c s).2 =
      { s with sin := { s.sin with phase0 := ph }, fm := u, draws := d
               fault := { s.fault with nonfinite := s.fault.nonfinite || b } } := by
  unfold voiceFolded
  obtain ⟨ph, u, b, d, h⟩ := oscProc_state c s.v.alg s.v.freq
    (usedParam (c.algInfo s.v.alg).p1Unused s.v.p1) (usedParam (c.algInfo s.v.alg).p2Unused s.v.p2)
    s.v.p3 s
  simp only [h]
  exact ⟨ph, u, _, d, by simp [wfFold, State.flagNonfinite, Bool.or_assoc]; rfl⟩

/-- One V.PROC may change `sin.phase[0]`, the FM unit, the envelope's level and report, the reverb
states, `v.playing`, `fault.nonfinite` and the draw index, and nothing else (45_voice_engine R283). -/
theorem vProc_state (c : Cfg) (s : State) :
    ∃ ph u lvl act rv pl b d, (vProc c s).2 =
      { s with sin := { s.sin with phase0 := ph }, fm := u, rev := rv, draws := d
               env := { s.env with level := lvl, active := act }
               v := { s.v with playing := pl }
               fault := { s.fault with nonfinite := s.fault.nonfinite || b } } := by
  unfold vProc
  split
  · unfold voiceFrame
    obtain ⟨ph, u, b, d, h⟩ := voiceFolded_state c s
    simp only [h]
    exact ⟨ph, u, _, _, _, _, b, d, rfl⟩
  · exact ⟨s.sin.phase0, s.fm, s.env.level, s.env.active, s.rev, s.v.playing, false, s.draws,
      by simp⟩

/-- The envelope after a V.PROC that is `Playing`, and the playing state (45_voice_engine R283, R297). -/
theorem voiceFrame_env (c : Cfg) (s : State) :
    (voiceFrame c s).2.env =
      { s.env with level := envLevel c s.env, active := s.env.gate || fle c.envFloor (envLevel c s.env) } := by
  unfold voiceFrame
  obtain ⟨ph, u, b, d, h⟩ := voiceFolded_state c s
  simp only [h]
  rfl

theorem voiceFrame_playing (c : Cfg) (s : State) :
    (voiceFrame c s).2.v.playing =
      (s.v.playing && !autoStops c (s.env.gate || fle c.envFloor (envLevel c s.env))
        (voiceFrame c s).1.1 (voiceFrame c s).1.2) := by
  unfold voiceFrame
  obtain ⟨ph, u, b, d, h⟩ := voiceFolded_state c s
  simp only [h]
  rfl

/-! ## The tick -/

/-- One frame of the tick may change the phases, the FM unit, the envelope's level and report, the
reverb states, `v.playing`, `t.sqPhase`, two flags and the draw index, and nothing else
(46_task_scheduler_fifo R352). -/
theorem tickFrame_state (c : Cfg) (s : State) :
    ∃ sn u lvl act rv pl sq b g d, (tickFrame c s).2 =
      { s with sin := sn, fm := u, rev := rv, draws := d
               env := { s.env with level := lvl, active := act }
               v := { s.v with playing := pl }
               t := { s.t with sqPhase := sq }
               fault := { s.fault with nonfinite := s.fault.nonfinite || b, guard := s.fault.guard || g } } := by
  unfold tickFrame
  split
  · exact ⟨s.sin, s.fm, s.env.level, s.env.active, s.rev, s.v.playing, _, _, false, s.draws, by
      simp [selftestFrame, State.flagNonfinite]; exact ⟨rfl, rfl⟩⟩
  · split
    · exact ⟨_, s.fm, s.env.level, s.env.active, s.rev, s.v.playing, s.t.sqPhase, _, false, s.draws, by
        simp [caltoneFrame, sinStep, State.flagNonfinite]; exact ⟨rfl, rfl⟩⟩
    · obtain ⟨ph, u, lvl, act, rv, pl, b, d, h⟩ := vProc_state c s
      refine ⟨{ s.sin with phase0 := ph }, u, lvl, act, rv, pl, s.t.sqPhase, b,
        !withinGuard c (vProc c s).1.1 || !withinGuard c (vProc c s).1.2, d, ?_⟩
      simp only [normalFrame, h, State.flagGuard]

/-- The frame loop: as many frames as asked, and the changes of one frame. -/
theorem tickFrames_state (c : Cfg) (n : Nat) (s : State) :
    (tickFrames c n s).1.length = n ∧
    ∃ sn u lvl act rv pl sq b g d, (tickFrames c n s).2 =
      { s with sin := sn, fm := u, rev := rv, draws := d
               env := { s.env with level := lvl, active := act }
               v := { s.v with playing := pl }
               t := { s.t with sqPhase := sq }
               fault := { s.fault with nonfinite := s.fault.nonfinite || b, guard := s.fault.guard || g } } := by
  induction n generalizing s with
  | zero =>
    exact ⟨rfl, s.sin, s.fm, s.env.level, s.env.active, s.rev, s.v.playing, s.t.sqPhase, false, false,
      s.draws, by simp [tickFrames]⟩
  | succ n ih =>
    obtain ⟨hl, sn, u, lvl, act, rv, pl, sq, b, g, d, h⟩ := ih (tickFrame c s).2
    obtain ⟨sn', u', lvl', act', rv', pl', sq', b', g', d', h'⟩ := tickFrame_state c s
    refine ⟨by simp [tickFrames, hl], sn, u, lvl, act, rv, pl, sq, b' || b, g' || g, d, ?_⟩
    show (tickFrames c n (tickFrame c s).2).2 = _
    rw [h]
    simp only [h', Bool.or_assoc]

/-- Anything every frame keeps, the frame loop keeps. -/
theorem tickFrames_keeps (c : Cfg) (P : State → Prop)
    (h : ∀ s, P s → P (tickFrame c s).2) (n : Nat) (s : State) (hs : P s) :
    P (tickFrames c n s).2 := by
  induction n generalizing s with
  | zero => exact hs
  | succ n ih => exact ih _ (h s hs)

/-- Is the index valid and not the selected one (45_voice_engine R285)? -/
def Switches (c : Cfg) (idx : U8) (s : State) : Prop := idx.toNat < c.nAlg ∧ idx ≠ s.v.alg

/-- How V.SETALG leaves the dispatcher's generators: zeroed by a switch, else as they were. -/
def GeneratorsKeptOrZeroed (c : Cfg) (idx : U8) (s : State) (ph : F32) (u : FmUnit) : Prop :=
  (Switches c idx s → ph = fZero ∧ u = fmZero) ∧ (¬Switches c idx s → ph = s.sin.phase0 ∧ u = s.fm)

/-- V.SETALG may change `v.alg`, `sin.phase[0]` and the FM unit only (45_voice_engine R285). -/
theorem vSetalg_eq (c : Cfg) (idx : U8) (s : State) :
    ∃ ph u, GeneratorsKeptOrZeroed c idx s ph u ∧ vSetalg c idx s =
      { s with sin := { s.sin with phase0 := ph }, fm := u
               v := { s.v with alg := if idx.toNat < c.nAlg then idx else s.v.alg } } := by
  unfold vSetalg
  split
  · rename_i h
    exact ⟨fZero, fmZero, ⟨fun _ => ⟨rfl, rfl⟩, fun h' => absurd h h'⟩, by simp only [if_pos h.1]; rfl⟩
  · rename_i h
    refine ⟨s.sin.phase0, s.fm, ⟨fun h' => absurd h' h, fun _ => ⟨rfl, rfl⟩⟩, ?_⟩
    by_cases h1 : idx.toNat < c.nAlg
    · have h2 : idx = s.v.alg := by
        by_contra h2; exact h ⟨h1, h2⟩
      simp only [h2, ite_self]
    · simp only [if_neg h1]

/-- What the setters of step 6 leave (46_task_scheduler_fifo R350). -/
theorem pushSetters_state (c : Cfg) (p1e p2e freq : F32) (s : State) :
    ∃ ph u, GeneratorsKeptOrZeroed c s.t.cur.algorithm s ph u ∧ pushSetters c p1e p2e freq s =
      { s with
        sin := { s.sin with phase0 := ph }
        fm := u
        v := { s.v with
          alg := if s.t.cur.algorithm.toNat < c.nAlg then s.t.cur.algorithm else s.v.alg
          p1 := clamp01 p1e, p2 := clamp01 p2e
          rvSize := clamp01 s.t.cur.reverbSize, rvLevel := clamp01 s.t.cur.reverbLevel
          mg := clamp01 s.t.cur.masterGain, freq := clamp freq fZero c.nyq }
        env := { s.env with atk := clamp01 s.t.cur.attack, rel := clamp01 s.t.cur.decay } } := by
  obtain ⟨ph, u, hg, h⟩ := vSetalg_eq c s.t.cur.algorithm s
  refine ⟨ph, u, hg, ?_⟩
  unfold pushSetters
  simp only [h]
  rfl

end Sys2Proof.Machine
end

