-- ==== Sys2Proof/Laws/Exec.lean ====
section
/-! SUPPORT. What `exec` can answer, said once: every operation is issued (60_exceptions R397)
with the effect its rule gives it, so a proof over all operations needs only those effects. -/

namespace Sys2Proof.Machine

/-- Every operation is issued: the legality of its `sel`, then its context right, then its effect. -/
theorem exec_eq_issue (i : Instr) (s : State) :
    exec i s = issue i.wellFormed i.context s (perform Config.cfg i) := by
  cases i <;> rfl

/-- The machine is the configured machine at its own configuration. -/
theorem exec_eq_execUnder : exec = execUnder Config.cfg := by
  funext i s
  exact exec_eq_issue i s

theorem step_eq_stepUnder : step = stepUnder Config.cfg := by
  funext s
  simp only [step, stepUnder, exec_eq_execUnder]

/-- A legal operation on its own port has its effect. -/
theorem execUnder_performs {c : Cfg} {i : Instr} {s : State} (hw : i.wellFormed = true)
    (h : s.inputs.turn = i.context) : execUnder c i s = .next (perform c i s) := by
  rw [execUnder, hw]
  exact issue_perform h

theorem exec_performs {i : Instr} {s : State} (hw : i.wellFormed = true)
    (h : s.inputs.turn = i.context) : exec i s = .next (perform Config.cfg i s) := by
  rw [exec_eq_execUnder]
  exact execUnder_performs hw h

/-- An operation answers a next state, one of three. -/
theorem execUnder_cases (c : Cfg) (i : Instr) (s : State) :
    (i.wellFormed = false ∧ execUnder c i s = .next s.flagIllegal) ∨
      (i.wellFormed = true ∧ s.inputs.turn = i.context ∧ execUnder c i s = .next (perform c i s)) ∨
      (i.wellFormed = true ∧ s.inputs.turn ≠ i.context ∧ execUnder c i s = .next s.flagCtx) :=
  issue_cases _ _ _ _

theorem exec_cases (i : Instr) (s : State) :
    (i.wellFormed = false ∧ exec i s = .next s.flagIllegal) ∨
      (i.wellFormed = true ∧ s.inputs.turn = i.context ∧ exec i s = .next (perform Config.cfg i s)) ∨
      (i.wellFormed = true ∧ s.inputs.turn ≠ i.context ∧ exec i s = .next s.flagCtx) := by
  rw [exec_eq_execUnder]
  exact execUnder_cases _ _ _

/-- What holds of the two refusals and of every performed effect holds of the state an operation
answers. -/
theorem execUnder_induction {P : State → Prop} {c : Cfg} {i : Instr} {s t : State}
    (h : execUnder c i s = .next t) (hi : P s.flagIllegal) (hc : P s.flagCtx)
    (hp : i.wellFormed = true → s.inputs.turn = i.context → P (perform c i s)) : P t := by
  rcases execUnder_cases c i s with ⟨_, he⟩ | ⟨hw, ht, he⟩ | ⟨_, _, he⟩ <;> rw [he] at h <;> cases h
  · exact hi
  · exact hp hw ht
  · exact hc

theorem exec_induction {P : State → Prop} {i : Instr} {s t : State} (h : exec i s = .next t)
    (hi : P s.flagIllegal) (hc : P s.flagCtx)
    (hp : i.wellFormed = true → s.inputs.turn = i.context → P (perform Config.cfg i s)) : P t := by
  rw [exec_eq_execUnder] at h
  exact execUnder_induction h hi hc hp

end Sys2Proof.Machine
end

