-- ==== Sys2Proof/Laws/Tick.lean ====
section
/-! SUPPORT. What the body of TICK can do to the state, said once: the steps before the frame loop, and
the whole of sub-step T2 (46_task_scheduler_fifo R345). -/

namespace Sys2Proof.Machine

/-- BQ.STEP may change the biquad and `fault.nonfinite` only, and neither they nor its answer depend on
more than the biquad and the flags (43_biquad_iir R234). -/
theorem bqStep_state (c : Cfg) (x : F32) (s : State) :
    ∃ bq b, ∀ r : State, r.bq = s.bq → r.fault = s.fault →
      (bqStep c x r).1 = (bqStep c x s).1 ∧
      (bqStep c x r).2 =
        { r with bq := bq, fault := { s.fault with nonfinite := s.fault.nonfinite || b } } := by
  by_cases h : isFinite (bqAcc c s.bq x) = false
  · refine ⟨s.bq.cleared, true, fun r h1 h2 => ?_⟩
    simp [bqStep, h1, h2, h, State.flagNonfinite]
  · refine ⟨{ s.bq with x2 := s.bq.x1, x1 := x, y2 := s.bq.y1, y1 := bqAcc c s.bq x }, false,
      fun r h1 h2 => ?_⟩
    simp [bqStep, h1, h, ← h2]

/-- The gate that step 6 sees as the last one (R347, R351). -/
def seenLastGate (s : State) : Bool := s.t.lastGate && decide (s.t.cur.algorithm = s.t.lastAlg)

/-- Step 3 may change `sin.phase[1]`, `t.lastGate`, `t.sqPhase` and `t.lastAlg` only (R347). -/
theorem algChange_state (s : State) :
    ∃ ph sq, algChange s =
      { s with
        sin := { s.sin with phase1 := ph }
        t := { s.t with
          lastGate := seenLastGate s
          lastAlg := s.t.cur.algorithm
          sqPhase := sq } } ∧
      if s.t.cur.algorithm = s.t.lastAlg then ph = s.sin.phase1 ∧ sq = s.t.sqPhase
      else ph = fZero ∧ sq = fZero := by
  unfold algChange seenLastGate
  by_cases h : s.t.cur.algorithm = s.t.lastAlg
  · exact ⟨s.sin.phase1, s.t.sqPhase, by simp [h], by simp [h]⟩
  · exact ⟨fZero, fZero, by simp [h], by simp [h]⟩

/-- The edges of step 6: V.NOTEON, V.NOTEOFF or neither, then `t.lastGate` (R351). -/
theorem gateEdges_state (c : Cfg) (gate : Bool) (freq : F32) (s : State) :
    gateEdges c gate freq s =
      { (if gate && !s.t.lastGate then vNoteon c freq c.velocityDefault s
          else if !gate && s.t.lastGate then vNoteoff s else s) with
        t := { s.t with lastGate := gate } } := by
  unfold gateEdges
  cases gate <;> cases s.t.lastGate <;> rfl

/-- What steps 3 to 6 leave, with `ph`, `u`, `lvl`, `act` for the fallback phase, the FM unit and the
envelope's level and report (R347 to R351). -/
def controlled (c : Cfg) (s : State) (ph : F32) (u : FmUnit) (lvl : F32) (act : Bool) : State :=
  let rising := tickGate s && !seenLastGate s
  let falling := !tickGate s && seenLastGate s
  let p := s.t.cur
  let sm := bqStep c (pitchBlend c p) s
  { s with
    sin := ⟨ph, (algChange s).sin.phase1⟩
    fm := u
    bq := sm.2.bq
    fault := sm.2.fault
    rev := if rising then ⟨c.reverb.reset, c.reverb.reset⟩ else s.rev
    t := { s.t with
      lastGate := tickGate s, lastAlg := p.algorithm, sqPhase := (algChange s).t.sqPhase }
    env :=
      { level := lvl, active := act
        gate := if rising then true else if falling then false else s.env.gate
        atk := clamp01 p.attack, rel := clamp01 p.decay }
    v := { s.v with
      alg := if p.algorithm.toNat < c.nAlg then p.algorithm else s.v.alg
      p1 := clamp01 (effectiveP1 c s), p2 := clamp01 (effectiveP2 c s)
      rvSize := clamp01 p.reverbSize, rvLevel := clamp01 p.reverbLevel
      mg := clamp01 p.masterGain
      freq := clamp (pitchMap c sm.1) fZero c.nyq
      vel := if rising then clamp01 c.velocityDefault else s.v.vel
      gate := if rising then true else if falling then false else s.v.gate
      playing := rising || s.v.playing } }

/-- Steps 3 to 6, said once. -/
theorem tickControl_state (c : Cfg) (s : State) :
    ∃ ph u lvl act, tickControl c s = controlled c s ph u lvl act ∧
      if tickGate s && !seenLastGate s then ph = fZero ∧ u = fmZero ∧ lvl = fZero ∧ act = true
      else GeneratorsKeptOrZeroed c s.t.cur.algorithm s ph u ∧ lvl = s.env.level ∧ act = s.env.active := by
  obtain ⟨bq, b, hb⟩ := bqStep_state c (pitchBlend c s.t.cur) s
  obtain ⟨a1, a2, ha, -⟩ := algChange_state s
  obtain ⟨hb1, hb2⟩ := hb (algChange s) (by rw [ha]) (by rw [ha])
  obtain ⟨-, hb3⟩ := hb s rfl rfl
  have p1 : effectiveP1 c (algChange s) = effectiveP1 c s := by rw [ha]; rfl
  have p2 : effectiveP2 c (algChange s) = effectiveP2 c s := by rw [ha]; rfl
  have p3 : (algChange s).t.cur = s.t.cur := by rw [ha]
  unfold tickControl controlled
  simp only [p1, p2, p3, hb1, hb2, hb3]
  obtain ⟨ph, u, hg, hp⟩ := pushSetters_state c (effectiveP1 c s) (effectiveP2 c s)
    (pitchMap c (bqStep c (pitchBlend c s.t.cur) s).1)
    { algChange s with bq := bq, fault := { s.fault with nonfinite := s.fault.nonfinite || b } }
  rw [hp, gateEdges_state, ha]
  rw [ha] at hg
  cases hr : tickGate s <;> cases hl : seenLastGate s <;> simp only [Bool.not_true, Bool.not_false,
    Bool.and_self, Bool.and_true, Bool.and_false, Bool.false_eq_true,
    if_true, if_false]
  · exact ⟨ph, u, s.env.level, s.env.active, rfl, hg, rfl, rfl⟩
  · exact ⟨ph, u, s.env.level, s.env.active, by simp [vNoteoff, envGate], hg, rfl, rfl⟩
  · exact ⟨fZero, fmZero, fZero, true, by simp [vNoteon, envReset, envGate], rfl, rfl, rfl, rfl⟩
  · exact ⟨ph, u, s.env.level, s.env.active, by simp, hg, rfl, rfl⟩

/-- What the frame loop leaves of a state, with the values it may change. -/
def looped (s : State) (sn : SineUnit) (u : FmUnit) (lvl : F32) (act : Bool) (rv : ReverbPair)
    (pl : Bool) (sq : F32) (b g : Bool) (d : Nat) : State :=
  { s with
    sin := sn, fm := u, rev := rv, draws := d
    env := { s.env with level := lvl, active := act }
    v := { s.v with playing := pl }
    t := { s.t with sqPhase := sq }
    fault := { s.fault with nonfinite := s.fault.nonfinite || b, guard := s.fault.guard || g } }

/-- Sub-step T2: the control steps, the frames, then the busy output, the block and the underrun count. -/
theorem tickBody_state (c : Cfg) (s : State) :
    ∃ sn u lvl act rv pl sq b g d block,
      tickFrames c c.blockFrames (tickControl c s) =
        (block, looped (tickControl c s) sn u lvl act rv pl sq b g d) ∧
      block.length = c.blockFrames ∧
      tickBody c s =
        { finishBlock c block (looped (tickControl c s) sn u lvl act rv pl sq b g d) with
          tickPhase := .publish } := by
  obtain ⟨hl, sn, u, lvl, act, rv, pl, sq, b, g, d, h⟩ :=
    tickFrames_state c c.blockFrames (tickControl c s)
  refine ⟨sn, u, lvl, act, rv, pl, sq, b, g, d, (tickFrames c c.blockFrames (tickControl c s)).1, ?_,
    hl, ?_⟩
  · exact Prod.ext rfl h
  · unfold tickBody
    simp only [h]
    rfl

/-- The frame loop, frame by frame: frame `k` is made from the state that the frames before it leave. -/
theorem tickFrames_frame (c : Cfg) (n : Nat) (s : State) :
    (tickFrames c n s).2 = Nat.iterate (fun u => (tickFrame c u).2) n s ∧
    ∀ (k : Nat) (f : Frame), (tickFrames c n s).1[k]? = some f →
      f = (tickFrame c (Nat.iterate (fun u => (tickFrame c u).2) k s)).1 := by
  induction n generalizing s with
  | zero => exact ⟨rfl, fun k f h => by simp [tickFrames] at h⟩
  | succ n ih =>
    obtain ⟨h1, h2⟩ := ih (tickFrame c s).2
    refine ⟨h1, fun k f h => ?_⟩
    cases k with
    | zero => simpa [tickFrames] using h.symm
    | succ k => exact h2 k f (by simpa [tickFrames] using h)

/-- TICK at its second sub-step. -/
theorem exec_tick_body {s : State} (h : s.inputs.turn = .audio) (h2 : s.tickPhase = .body) :
    exec .tick s = .next (tickBody Config.cfg s) := by
  rw [exec_performs rfl h]
  simp only [perform, tickSubStep, h2]

end Sys2Proof.Machine
end

