-- ==== Sys2Proof/Tests/Slice0.lean ====
section
/-! SUPPORT. Tests: ill-formed operations are refused, words written out from the opcode map decode to
what they stand for, a few vectors of 95_test_vectors part 2 on the units under the reference
configuration, and for every statement with hypotheses a state and operands that meet them. -/

namespace Sys2Proof.Tests

open Sys2Proof Sys2Proof.Machine

/-! ## WellFormed: one ill-formed term for each check -/

theorem test_illformed_sinReset : (Instr.sinReset 2).wellFormed = false := by decide
theorem test_illformed_sinStep (f : F32) : (Instr.sinStep 2 f).wellFormed = false := rfl
theorem test_illformed_fmStep (a b c d : F32) : (Instr.fmStep 2 a b c d).wellFormed = false := rfl
theorem test_illformed_bqSetc (v : F32) : (Instr.bqSetc 5 v).wellFormed = false := rfl
theorem test_illformed_envGate : (Instr.envGate 2).wellFormed = false := by decide
theorem test_illformed_chSwr (u : Word) : (Instr.chSwr 2 u).wellFormed = false := rfl

/-! ## Decoding: one word sequence per operation, written out from R111 and R115 -/

theorem test_decode_units :
    decodeOp [0x10010000] = .op (.sinReset 1) [] ∧
    decodeOp [0x11010001, 0x43DC0000] = .op (.sinStep 1 0x43DC0000) [] ∧
    decodeOp [0x18000000] = .op .oscReset [] ∧
    decodeOp [0x19C80004, 0x45BB8000, 1, 2, 3] = .op (.oscProc 200 0x45BB8000 1 2 3) [] ∧
    decodeOp [0x20000000] = .op .fmReset [] ∧
    decodeOp [0x21010004, 0x463B8000, 5, 6, 0x3F000000] = .op (.fmStep 1 0x463B8000 5 6 0x3F000000) [] ∧
    decodeOp [0x30000002, 0x3F000000, 0x3FC00000] = .op (.wfFold 0x3F000000 0x3FC00000) [] ∧
    decodeOp [0x40000000] = .op .bqReset [] ∧
    decodeOp [0x41030001, 0xBF600000] = .op (.bqSetc 3 0xBF600000) [] ∧
    decodeOp [0x42000001, 0x3F000000] = .op (.bqStep 0x3F000000) [] ∧
    decodeOp [0x50000000] = .op .envReset [] ∧
    decodeOp [0x51010000] = .op (.envGate 1) [] ∧
    decodeOp [0x52000001, 0x3F000000] = .op (.envSeta 0x3F000000) [] ∧
    decodeOp [0x53000001, 0x3E800000] = .op (.envSetr 0x3E800000) [] ∧
    decodeOp [0x54000000] = .op .envStep [] := by decide

theorem test_decode_voice :
    decodeOp [0x60000002, 0x463B8000, 0x3F800000] = .op (.vNoteon 0x463B8000 0x3F800000) [] ∧
    decodeOp [0x61000000] = .op .vNoteoff [] ∧
    decodeOp [0x62000000] = .op .vProc [] ∧
    decodeOp [0x63000000] = .op .vIsplay [] ∧
    decodeOp [0x64C80000] = .op (.vSetalg 200) [] ∧
    decodeOp [0x65000001, 0x3FC00000] = .op (.vSetp1 0x3FC00000) [] ∧
    decodeOp [0x66000001, 0xBF000000] = .op (.vSetp2 0xBF000000) [] ∧
    decodeOp [0x67000001, 0x3F000000] = .op (.vSetwf 0x3F000000) [] ∧
    decodeOp [0x68000001, 0x3F000000] = .op (.vSetatk 0x3F000000) [] ∧
    decodeOp [0x69000001, 0x3E800000] = .op (.vSetrel 0x3E800000) [] ∧
    decodeOp [0x6A000001, 0x3F400000] = .op (.vSetrvs 0x3F400000) [] ∧
    decodeOp [0x6B000001, 0x3E800000] = .op (.vSetrvl 0x3E800000) [] ∧
    decodeOp [0x6C000001, 0x3F000000] = .op (.vSetmg 0x3F000000) [] ∧
    decodeOp [0x6D000001, 0x448CA000] = .op (.vSetfreq 0x448CA000) [] := by decide

theorem test_decode_channels :
    decodeOp [0x7001000D, 1, 2, 3, 4, 5, 6, 7, 8, 9, 10, 11, 12, 13, 0x78000000] =
      .op (.chPwr ⟨1, 1, 2, 3, 4, 5, 6, 7, 8, 9, 10, 11, 12, 13⟩) [0x78000000] ∧
    decodeOp [0x71000000] = .op .chPrd [] ∧
    decodeOp [0x72010001, 0x00000007] = .op (.chSwr 1 7) [] ∧
    decodeOp [0x73000000] = .op .chSrd [] ∧
    decodeOp [0x78000000] = .op .tick [] := by decide

/-- Vectors V-E9 to V-E14 and V-E18. -/
theorem test_decode_illegal :
    decodeOp [0x11020001, 0x45BB8000] = .illegal .selOutOfRange [] ∧
    decodeOp [0x62000001, 0x12345678] = .illegal .wrongOperandCount [] ∧
    decodeOp [0x00000000, 0x78000000] = .illegal .unassignedOpcode [0x78000000] ∧
    decodeOp [0x78000100] = .illegal .nonzeroReserved [] ∧
    decodeOp [0x42010001, 0x3F000000] = .illegal .selOutOfRange [] ∧
    decodeOp [0x60000002, 0x463B8000] = .incomplete := by decide

/-- Vector V-E14: an unassigned opcode takes the words its own header counts. -/
theorem test_decode_longest :
    decodeOp (0xFF0000FF :: (List.replicate 255 0 ++ [7])) = .illegal .unassignedOpcode [7] := by
  decide +kernel

/-- The interface's numbering: the first word in the low 32 bits. -/
theorem test_decodeTableWord :
    decodeTableWord 64 0x45BB800011000001 = some (.sinStep 0 0x45BB8000) ∧
    decodeTableWord 32 0x78000000 = some .tick ∧ decodeTableWord 32 0x78000100 = none := by decide

/-! ## Vectors of 95_test_vectors part 2, under the reference configuration -/

/-- The reference configuration (its transcendental entries are placeholders, log 24). -/
def ref : Cfg := {}

/-- The reference configuration's arithmetic rounds once: the premise of the statements that need it. -/
theorem test_ref_follows : ref.num.Follows Arithmetic.reference := ⟨rfl, rfl, rfl, rfl⟩

/-- The FM index of the reference configuration at either end of its control: 0.25 and 16.0. -/
theorem test_ref_index :
    fmIndex ref fZero = 0x3E800000 ∧ fmIndex ref fOne = 0x41800000 := by decide +kernel

/-- A configuration whose FM index range has an infinite quotient, which R7 admits. -/
def wide : Cfg := { fmIndexMin := 0x00800000#32, fmIndexMax := 0x7F000000#32 }

/-- N-POW holds of a base of +infinity: the index runs from its lower end to +infinity. -/
theorem test_wide_index :
    wide.num.fdiv wide.fmIndexMax wide.fmIndexMin = 0x7F800000 ∧ fmIndex wide fZero = 0x00800000 ∧
      fmIndex wide fOne = 0x7F800000 := by decide +kernel

/-- The state after reset of that configuration, the audio context to move. -/
def start : State := State.resetWith ref ⟨.audio, false, true, false, true, 512⟩ 0

/-- V-H1. -/
theorem test_clamp01 :
    clamp01 0x3FC00000 = 0x3F800000 ∧ clamp01 0xBE800000 = 0 ∧ clamp01 0x7FC00000 = 0 ∧
      clamp01 0x7F800000 = 0x3F800000 ∧ clamp01 0xFF800000 = 0 ∧ clamp01 0x80000000 = 0x80000000 := by
  decide

/-- V-H2, V-H3, V-H5, V-H6, and the second phase of V-S3. -/
theorem test_advance :
    advance ref 0x3F600000 0x45BB8000 = 0 ∧ advance ref 0 0x470CA000 = 0x3F400000 ∧
      advance ref 0 0xC5BB8000 = 0x3F600000 ∧ advance ref 0x3F000000 0x7FC00000 = 0 ∧
      advanceFlags ref 0x3F000000 0x7F800000 = true ∧ advance ref 0 0x43DC0000 = 0x3C162FC9 := by
  decide +kernel

/-- V-H10, and the two ends of V-H7. -/
theorem test_remaps :
    linmap ref 0x3E800000 0x43BB8000 0x46415C00 = 0x4552F000 ∧
      expmap ref 0 0x3E800000 0x41800000 = 0x3E800000 ∧
      expmap ref 0x3F800000 0x3E800000 0x41800000 = 0x41800000 := by decide +kernel

/-- V-S2: the fourth phase; V-S5: the flag. -/
theorem test_sinStep :
    (sinStep ref 0 0x470CA000 (sinStep ref 0 0x470CA000 (sinStep ref 0 0x470CA000 start).2).2).2.sin
      = ⟨0x3E800000, 0⟩ ∧
    (sinStep ref 0 0x7FC00000 start).2.fault.nonfinite = true := by decide +kernel

/-- V-S7: an index out of range steps the fallback, here from phase 0 to 0x3C162FC9. -/
theorem test_oscProc_fallback :
    (oscProc ref 255 0x43DC0000 0x3F000000 0x3F000000 0x3F000000 start).2.sin = ⟨0x3C162FC9, 0⟩ := by
  decide +kernel

/-- The example of 41 R183: both phases at 0.25 and the history at 1.0 after the first step. -/
theorem test_fmStep :
    (fmStep ref true 0x463B8000 0 0 0x3F000000 start).2.fm = ⟨0x3E800000, 0x3E800000, 0x3F800000⟩ := by
  decide +kernel

/-- The effective frequency of V-FM3, n1: 6000 + 0.95 · 1.0 · 6000 = 11700. -/
theorem test_fm_feedback :
    fmCarrierFreq ref true ⟨0, 0, 0x3F800000⟩ 0x45BB8000 0x3F800000 = 0x4636D000 := by decide +kernel

/-- V-W3, V-W7, V-W11, V-W13. -/
theorem test_wfFold_folds :
    wfValue ref 0 0x3FC00000 = 0x3F000000 ∧ wfValue ref 0 0xC0400000 = 0x3F800000 ∧
      wfValue ref 0 0x40E80000 = 0xBF400000 ∧ wfValue ref 0x3F000000 0x3F800000 = 0xBF000000 := by
  decide +kernel

/-- V-W20, V-W22, V-W24. -/
theorem test_wfFold_ends :
    wfValue ref 0 0x322BCC77 = 0x322BCC77 ∧
      wfFold ref 0x3F800000 0x7E967699 start =
        (0, { start with fault := { start.fault with nonfinite := true } }) ∧
      wfValue ref 0 0x7FC00000 = 0 := by decide +kernel

/-- V-B1: the first three outputs. -/
theorem test_bqStep :
    (bqStep ref 0x3F000000 start).1 = 0x3D800000 ∧
    (bqStep ref 0x3F000000 (bqStep ref 0x3F000000 start).2).1 = 0x3DF00000 ∧
    (bqStep ref 0x3F000000 (bqStep ref 0x3F000000 (bqStep ref 0x3F000000 start).2).2).1 = 0x3E290000 := by
  decide +kernel

/-- V-B3, the flush: a non-finite input under a bypass. -/
theorem test_bqStep_flush :
    (bqStep ref 0x7F800000 (bqStep ref 0x3F000000 start).2).1 = 0 ∧
    (bqStep ref 0x7F800000 (bqStep ref 0x3F000000 start).2).2.bq = start.bq := by decide +kernel

/-- V-N2. -/
theorem test_envStep :
    (envStep ref (envGate true start)).1 = 0x3F800000 ∧
    (envStep ref (envGate false (envStep ref (envGate true start)).2)).1 = 0 ∧
    (envStep ref (envGate false (envStep ref (envGate true start)).2)).2.env.active = false := by
  decide +kernel

/-- V-N5. -/
theorem test_env_setters :
    (envSeta 0x40E00000 start).env.atk = 0x3F800000 ∧ (envSetr 0xBF800000 start).env.rel = 0 ∧
      (envSeta 0x7FC00000 start).env.atk = 0 := by decide

/-- V-V4. -/
theorem test_voice_setters :
    (vSetp1 0x3FC00000 start).v.p1 = 0x3F800000 ∧ (vSetp2 0xC0400000 start).v.p2 = 0 ∧
      (vSetmg 0x7FC00000 start).v.mg = 0 ∧ (vSetfreq ref 0x46EA6000 start).v.freq = 0x46BB8000 ∧
      (vNoteon ref 0x4E6E6B28 0x40000000 start).v.freq = 0x46BB8000 ∧
      (vNoteon ref 0x4E6E6B28 0x40000000 start).v.vel = 0x3F800000 := by decide +kernel

/-- V-V5. -/
theorem test_vSetalg :
    (vSetalg ref 1 start).v.alg = 1 ∧ vSetalg ref 20 start = start ∧ vSetalg ref 0 start = start := by
  decide +kernel

/-- The example of 45 R283: the first frame of that note is (1.0, 0.0). -/
theorem test_vProc :
    (vProc ref (vNoteon ref 0x463B8000 0x3F800000 (vSetp2 0 (vSetp1 0 (vSetalg ref 1 start))))).1 =
      (0x3F800000, 0) ∧ vProc ref start = ((0, 0), start) := by decide +kernel

/-- V-T4: frames 31 and 32 of the self-test block, the phase back at 0.0, no underrun. -/
theorem test_tick_selftest :
    let s := { start with t := { start.t with cur := { zeroSnapshot with
      algorithm := 20, attack := 0x3F000000, decay := 0x3F000000 } } }
    let t := tickBody ref s
    (t.audioOut.map fun b => (b[31]?, b[32]?, b.length)) =
      [(some (0x3E800000, 0x3E800000), some (0xBE800000, 0xBE800000), 64)] ∧
    t.t.sqPhase = 0 ∧ t.t.gateOut = false ∧ t.v.playing = false ∧ t.t.lastAlg = 20 ∧
      t.t.underruns = 0 := by decide +kernel

/-- V-T3: the first tick from reset with no snapshot; V-T2's short write counts one underrun. -/
theorem test_tick_drone :
    let t := tickPublish (tickBody ref (tickFirst
      { start with inputs := { start.inputs with wrBytes := 100 } }))
    t.v.freq = 0x43BB8000 ∧ t.v.playing = true ∧ t.v.mg = 0 ∧ t.env.level = 0x3F800000 ∧
      t.t.gateOut = false ∧ t.t.lastGate = true ∧ t.chS = ⟨⟨1, true⟩, true⟩ := by decide +kernel

/-! ## The reference coefficient map of 44 R258 is admissible -/

/-- Numerics with a coarse EXP: 1.0 at zero, else 0.0. -/
def coarseExp : Numerics :=
  { exp := fun a => if fmag a = 0 then fOne else fZero
    exp_range := by intro a _; split <;> decide }

theorem test_envCoef_argument {t : F32} (h : fle fZero t = true) (h1 : fle t fOne = true) :
    fmag (coarseExp.fdiv fNegOne (coarseExp.fmul (coarseExp.fmul t fTwo) 0x473B8000#32)) ≠ 0 := by
  have hf : isFinite t = true := inSignal_finite (unitRange_signal ⟨h, h1⟩)
  have ht := funits_le_of_fmag_le (mag_of_fle h h1)
  have e1 : funits fOne = 2 ^ 149 := by decide
  have e2 : funits fTwo = 2 ^ 150 := by decide
  obtain ⟨-, -, a3⟩ := Arithmetic.reference.fmul_finite (a := t) (b := fTwo) hf (by decide)
  have b3 := a3.trans (roundedMag_le _ _ fTwo (den := 2 ^ 149) (by positivity)
    (by rw [e2, Nat.mul_comm]; exact Nat.mul_le_mul_left _ (e1 ▸ ht)))
  have hp : isFinite (Arithmetic.reference.fmul t fTwo) = true := by
    have : fmag fTwo = 0x40000000 := by decide
    simp only [isFinite, decide_eq_true_eq]; omega
  have hq := funits_le_of_fmag_le b3
  obtain ⟨-, -, c3⟩ := Arithmetic.reference.fmul_finite (a := Arithmetic.reference.fmul t fTwo)
    (b := 0x473B8000#32) hp (by decide)
  have e3 : funits fTwo * funits 0x473B8000#32 = funits 0x47BB8000#32 * 2 ^ 149 := by decide +kernel
  have d3 := c3.trans (roundedMag_le _ _ 0x47BB8000#32 (den := 2 ^ 149) (by positivity)
    ((Nat.mul_le_mul_right _ hq).trans e3.le))
  show fmag (Arithmetic.reference.fdiv fNegOne
    (Arithmetic.reference.fmul (Arithmetic.reference.fmul t fTwo) 0x473B8000#32)) ≠ 0
  generalize Arithmetic.reference.fmul (Arithmetic.reference.fmul t fTwo) 0x473B8000#32 = p at d3
  have e4 : fmag 0x47BB8000#32 = 0x47BB8000 := by decide
  have hpf : isFinite p = true := by simp only [isFinite, decide_eq_true_eq]; omega
  have hu := funits_le_of_fmag_le d3
  unfold Arithmetic.fdiv Arithmetic.complete
  rw [isNaN_of_isFinite hpf, show isNaN fNegOne = false by decide, Bool.or_self, if_neg (by decide),
    operand_keeps _ (.inl rfl), operand_keeps _ (.inl rfl), quotient?_eq _ (by decide) hpf]
  rw [show isZero fNegOne = false by decide]
  split
  · rw [if_neg (by decide)]
    rw [Option.getD_some, fmag_fpack _ (by decide)]; decide
  · rename_i hz
    rw [if_neg (by decide), Option.getD_some]
    have hp0 : 0 < funits p := funits_pos (by simpa [isZero] using hz)
    have lo := le_roundedMag .nearestEven (fsign fNegOne != fsign p) 0x37000000#32
      (num := funits fNegOne * 2 ^ 149) (den := funits p) hp0
      ((Nat.mul_le_mul_left _ hu).trans (by decide +kernel))
    have e5 : fmag 0x37000000#32 = 0x37000000 := by decide
    unfold roundPack finishRound
    dsimp only
    split
    · rw [fmag_fpack _ (by split <;> decide)]; split <;> decide
    · split
      · rename_i h; cases h
      · rw [fmag_fpack _ (by omega)]
        show roundedMag .nearestEven _ _ _ ≠ 0
        omega

/-- Numerics exist whose configuration may take the map of R258 as its ENV_COEF. -/
theorem test_reference_envCoef_admissible :
    ∃ c : Cfg, c.envCoef = referenceEnvCoef c.num c.sampleRate := by
  have key : ∀ t, unitRange t → referenceEnvCoef coarseExp 0x473B8000#32 t = fOne := by
    intro t h
    unfold referenceEnvCoef
    split
    · rfl
    · rw [show coarseExp.exp = fun a => if fmag a = 0 then fOne else fZero from rfl]
      dsimp only
      rw [if_neg (test_envCoef_argument h.1 h.2)]
      decide +kernel
  exact ⟨{ num := coarseExp, envCoef := referenceEnvCoef coarseExp 0x473B8000#32
           envCoef_range := fun t h => by rw [key t h]; decide
           envCoef_immediate := fun t h => if_pos h
           envCoef_antitone := fun t u h h' _ => by rw [key t h, key u h']; decide }, rfl⟩

/-! ## Witnesses: for each statement with hypotheses, a state and operands that meet them -/

/-- A state of the machine's own configuration, with a context to move, a sub-step and words on the
ports. -/
def at' (turn : Context) (phase : TickPhase) (words : List Word) : State :=
  { State.reset with
    tickPhase := phase
    portA := words
    portC := words
    inputs := ⟨turn, false, true, false, true, 512⟩ }

/-- The audio context about to take an operation; a note is sounding. -/
def sounding : State :=
  { at' .audio .first [] with
    v := { State.reset.v with playing := true, gate := true }
    env := { State.reset.env with gate := true, active := true } }

/-- A voice of the reference configuration whose release has ended, its next snapshot no drone. -/
def dying : State :=
  { start with
    v := { start.v with playing := true }
    env := { start.env with active := true }
    t := { start.t with cur := { zeroSnapshot with attack := fOne } } }

/-- The body of a tick about to run on a snapshot with the given index and attack 1.0. -/
def inTick (algorithm : U8) (gateIn : Bool) : State :=
  { at' .audio .body [] with
    t := { State.reset.t with
      cur := { zeroSnapshot with algorithm := algorithm, attack := fOne }, lastGate := true }
    inputs := ⟨.audio, false, true, gateIn, true, 512⟩ }

theorem witness_DecodeEncodeRoundTrip :
    (Instr.sinStep 1 fOne).wellFormed = true ∧ (Instr.bqSetc 4 fOne).wellFormed = true := by decide

theorem witness_DecodedWordsAreTheEncoding :
    decodeOp [0x11010001, 5, 7] = .op (.sinStep 1 5) [7] := by decide

theorem witness_StepRunsTheDecodedOperation :
    (let s := at' .audio .first [0x60000002, 5, 7, 9]
     s.inputs.resetIn = false ∧ (s.inputs.turn = .audio → s.tickPhase = .first) ∧
       decodeOp (s.port s.inputs.turn) = .op (.vNoteon 5 7) [9]) ∧
    (let s := at' .control .body [0x73000000]
     s.inputs.resetIn = false ∧ (s.inputs.turn = .audio → s.tickPhase = .first) ∧
       decodeOp (s.port s.inputs.turn) = .op .chSrd []) ∧
    (let s := at' .audio .publish []
     s.inputs.resetIn = false ∧ s.inputs.turn = .audio ∧ s.tickPhase ≠ .first) :=
  ⟨⟨rfl, fun _ => rfl, by decide⟩, ⟨rfl, fun h => absurd h (by decide), by decide⟩, rfl, rfl, by decide⟩

theorem witness_IncompleteOperationWaits :
    (let s := at' .control .body []
     s.inputs.resetIn = false ∧ (s.inputs.turn = .audio → s.tickPhase = .first) ∧
       s.port s.inputs.turn = []) ∧
    (let s := at' .audio .first [0x60000002, 5]
     s.inputs.resetIn = false ∧ (s.inputs.turn = .audio → s.tickPhase = .first) ∧
       ∃ h tail, s.port s.inputs.turn = h :: tail ∧ tail.length < (h.extractLsb' 0 8).toNat) :=
  ⟨⟨rfl, fun h => absurd h (by decide), rfl⟩, rfl, fun _ => rfl, _, _, rfl, by decide⟩

/-- One header for each of the four tests, at its boundary. -/
theorem witness_IllegalOperationOnlySetsItsFlag :
    (let s := at' .audio .first [0x79000001, 5, 7]
     s.inputs.resetIn = false ∧ (s.inputs.turn = .audio → s.tickPhase = .first) ∧
       s.port s.inputs.turn = 0x79000001 :: ([5] ++ [7]) ∧
       [5#32].length = ((0x79000001#32).extractLsb' 0 8).toNat) ∧
    (∀ i : Instr, i.opcode ≠ (0x79000001#32).extractLsb' 24 8) ∧
    (0x78000100#32).extractLsb' 8 8 ≠ 0#8 ∧
    (∃ i : Instr, i.opcode = (0x62000001#32).extractLsb' 24 8 ∧ i.operands.length ≠ [5#32].length) ∧
    (∀ i : Instr, i.opcode = (0x11020001#32).extractLsb' 24 8 →
      i.sel = (0x11020001#32).extractLsb' 16 8 → i.wellFormed = false) := by
  refine ⟨⟨rfl, fun _ => rfl, rfl, by decide⟩, ?_, by decide, ⟨.vProc, by decide⟩, ?_⟩
  · intro i; cases i <;> simp only [Instr.opcode] <;> decide
  · intro i h h'
    cases i <;> first
      | (exfalso; simp only [Instr.opcode] at h; revert h; decide)
      | (simp only [Instr.sel] at h'; subst h'; rfl)

theorem witness_WrongPortOnlySetsItsFlag :
    (let s := at' .control .first [0x78000000]
     Instr.tick.wellFormed = true ∧ s.inputs.resetIn = false ∧
       (s.inputs.turn = .audio → s.tickPhase = .first) ∧ s.inputs.turn ≠ Instr.tick.context ∧
       s.port s.inputs.turn = encode .tick ++ []) ∧
    (let s := at' .audio .first [0x73000000, 5]
     s.inputs.resetIn = false ∧ (s.inputs.turn = .audio → s.tickPhase = .first) ∧
       s.inputs.turn ≠ Instr.chSrd.context ∧ s.port s.inputs.turn = encode .chSrd ++ [5]) ∧
    (Instr.envGate 2).wellFormed = false :=
  ⟨⟨rfl, rfl, fun h => absurd h (by decide), by decide, rfl⟩, ⟨rfl, fun _ => rfl, by decide, rfl⟩, rfl⟩

theorem witness_FlagsStaySet :
    (∃ t, exec .vNoteoff sounding = .next t) ∧
      sounding.inputs.resetIn = false ∧ ∃ t, step sounding = .next t := ⟨⟨_, rfl⟩, rfl, _, rfl⟩

theorem witness_ContextsShareOnlyTheChannels :
    (let s := at' .control .body [0x73000000]
     s.inputs.resetIn = false ∧ s.inputs.turn = .control ∧ ∃ t, step s = .next t) ∧
    (let s := at' .audio .first [0x63000000]
     s.inputs.resetIn = false ∧ s.inputs.turn = .audio ∧ ∃ t, step s = .next t) :=
  ⟨⟨rfl, rfl, _, rfl⟩, rfl, rfl, _, rfl⟩

/-- For each clause an operation that does change its registers. -/
theorem witness_OnlyTheNamedOperationsWrite :
    (∃ t, exec (.vSetwf fOne) sounding = .next t ∧ t.v.wf ≠ sounding.v.wf) ∧
    (∃ t, exec (.bqSetc 1 fOne) sounding = .next t ∧ t.bq.b1 ≠ sounding.bq.b1) ∧
    (∃ t, exec (.vNoteon fOne fOne) sounding = .next t ∧ t.v.vel ≠ sounding.v.vel) ∧
    (∃ t, exec .vNoteoff sounding = .next t ∧ t.v.gate ≠ sounding.v.gate) ∧
    (let p := { zeroSnapshot with algorithm := 7 }
     let s := { sounding with chP := ⟨p, true⟩ }
     ∃ t, exec .chPrd s = .next t ∧ t.t.cur ≠ s.t.cur) ∧
    (let s := at' .control .first []
     ∃ t, exec (.chPwr { zeroSnapshot with algorithm := 7 }) s = .next t ∧ t.chP.slot ≠ s.chP.slot) ∧
    (∃ t, exec (.chSwr 1 7) sounding = .next t ∧ t.chS.slot ≠ sounding.chS.slot) ∧
    (let s := inTick 0 false
     ∃ t, exec .tick s = .next t ∧ t.audioOut ≠ s.audioOut) := by
  refine ⟨⟨_, rfl, by decide⟩, ⟨_, rfl, by decide⟩, ⟨_, rfl, ?_⟩, ⟨_, rfl, by decide⟩, ⟨_, rfl, by decide⟩,
    ⟨_, rfl, by decide⟩, ⟨_, rfl, ?_⟩, ⟨_, rfl, ?_⟩⟩
  · show clamp01 fOne ≠ fZero; decide
  · intro h; have := congrArg StatusSnapshot.underruns h; revert this; decide
  · intro h
    obtain ⟨_, _, _, _, _, _, _, _, _, _, _, -, -, hb⟩ := tickBody_state Config.cfg (inTick 0 false)
    obtain ⟨_, _, _, _, hc, -⟩ := tickControl_state Config.cfg (inTick 0 false)
    have h1 : (tickBody Config.cfg (inTick 0 false)).audioOut.length = 0 := congrArg List.length h
    rw [hb, hc] at h1
    simp [finishBlock, looped, controlled] at h1

/-- A sounding state with the registers of the clauses below away from what the operations write. -/
def worn : State :=
  { sounding with
    sin := ⟨fHalf, fHalf⟩
    fm := ⟨fHalf, fHalf, fHalf⟩
    rev := ⟨Config.cfg.reverb.reset + 1, 0⟩
    bq := { State.reset.bq with x1 := fOne }
    env := { sounding.env with level := fOne }
    v := { sounding.v with freq := 0x7FC00000#32, alg := 1 } }

/-- The same for the rest of the voice, the envelope, the generators, the delays and the fresh bits. -/
theorem witness_OnlyTheNamedOperationsWrite_units :
    (∃ t, exec (.vSetfreq 0xBF800000) worn = .next t ∧ t.v.freq ≠ worn.v.freq) ∧
    (∃ t, exec (.vSetalg 0) worn = .next t ∧ t.v.alg ≠ worn.v.alg) ∧
    (∃ t, exec (.vSetp1 fOne) worn = .next t ∧ t.v.p1 ≠ worn.v.p1) ∧
    (∃ t, exec (.vSetp2 fOne) worn = .next t ∧ t.v.p2 ≠ worn.v.p2) ∧
    (∃ t, exec (.vSetmg fZero) worn = .next t ∧ t.v.mg ≠ worn.v.mg) ∧
    (∃ t, exec (.vSetrvs fOne) worn = .next t ∧ t.v.rvSize ≠ worn.v.rvSize) ∧
    (∃ t, exec (.vSetrvl fOne) worn = .next t ∧ t.v.rvLevel ≠ worn.v.rvLevel) ∧
    (let s := at' .audio .first []
     ∃ t, exec (.vNoteon fOne fOne) s = .next t ∧ t.v.playing ≠ s.v.playing) ∧
    (∃ t, exec (.vNoteon fOne fOne) worn = .next t ∧ t.rev ≠ worn.rev) ∧
    (∃ t, exec (.envSeta fOne) worn = .next t ∧ t.env.atk ≠ worn.env.atk) ∧
    (∃ t, exec (.envSetr fOne) worn = .next t ∧ t.env.rel ≠ worn.env.rel) ∧
    (∃ t, exec .envReset worn = .next t ∧ t.env.gate ≠ worn.env.gate ∧ t.env.level ≠ worn.env.level ∧
      t.env.active ≠ worn.env.active) ∧
    (∃ t, exec (.sinReset 0) worn = .next t ∧ t.sin.phase0 ≠ worn.sin.phase0) ∧
    (∃ t, exec (.sinReset 1) worn = .next t ∧ t.sin.phase1 ≠ worn.sin.phase1) ∧
    (∃ t, exec .fmReset worn = .next t ∧ t.fm ≠ worn.fm) ∧
    (∃ t, exec .bqReset worn = .next t ∧ t.bq.x1 ≠ worn.bq.x1) ∧
    (let s := at' .control .first []
     ∃ t, exec (.chPwr zeroSnapshot) s = .next t ∧ t.chP.fresh ≠ s.chP.fresh) ∧
    (∃ t, exec (.chSwr 1 7) worn = .next t ∧ t.chS.fresh ≠ worn.chS.fresh) ∧
    (∃ t, exec (.sinStep 0 0x7FC00000) worn = .next t ∧
      t.fault.nonfinite ≠ worn.fault.nonfinite) := by
  refine ⟨⟨_, rfl, ?_⟩, ⟨_, rfl, ?_⟩, ⟨_, rfl, by decide⟩, ⟨_, rfl, by decide⟩, ⟨_, rfl, by decide⟩,
    ⟨_, rfl, by decide⟩, ⟨_, rfl, by decide⟩, ⟨_, rfl, by decide⟩, ⟨_, rfl, ?_⟩, ⟨_, rfl, by decide⟩,
    ⟨_, rfl, by decide⟩, ⟨_, rfl, by decide, by decide, by decide⟩, ⟨_, rfl, by decide⟩,
    ⟨_, rfl, by decide⟩, ⟨_, rfl, by decide⟩, ⟨_, rfl, by decide⟩, ⟨_, rfl, by decide⟩,
    ⟨_, rfl, by decide⟩, ⟨_, rfl, ?_⟩⟩
  · show clamp 0xBF800000 fZero Config.cfg.nyq ≠ 0x7FC00000#32
    rw [clamp, if_pos (by decide)]
    decide
  · show (vSetalg Config.cfg 0 worn).v.alg ≠ 1
    rw [vSetalg, if_pos ⟨Config.cfg.nAlg_range.1, by decide⟩]
    decide
  · intro h
    exact absurd (congrArg ReverbPair.left h) (Nat.ne_of_lt (Nat.lt_succ_self _))
  · have h1 := not_finite_of_quietNaN
      (Config.cfg.num.nan_of_nan (a := 0x7FC00000) (b := Config.cfg.sampleRate) rfl).2.2.2
    have h2 := not_finite_of_quietNaN
      (Config.cfg.num.nan_of_nan (a := fHalf) (b := Config.cfg.num.fdiv 0x7FC00000 Config.cfg.sampleRate)
        (by rw [h1.1]; rfl)).1
    show (false || advanceFlags Config.cfg fHalf 0x7FC00000) ≠ false
    rw [advanceFlags, phaseSum, h2.2]
    decide

theorem witness_ResetStepForgetsTheRun :
    ∃ s : State, s.inputs.resetIn = true ∧ s.tickPhase = .body :=
  ⟨{ sounding with inputs := ⟨.audio, true, true, false, true, 0⟩, tickPhase := .body }, rfl, rfl⟩

theorem witness_ClampAnswersALegalValue :
    isFinite fZero = true ∧ isFinite fOne = true ∧ fle fZero fOne = true ∧
      isNaN 0x7FC00000 = true ∧ fle fZero fOne = true ∧ fle fOne fOne = true := by decide

theorem witness_FloorIsTheLargestIntegralBelow :
    (isFinite 0xC0200000 = true ∧ isFinite 0xC0400000 = true ∧ fvalue 0xC0400000 % 2 ^ 149 = 0 ∧
      fle 0xC0400000 0xC0200000 = true) ∧ isFinite 0x7F800000 = false := by decide

theorem witness_RemapsAndTheirEnds :
    posFinite 0x3E800000 ∧ isFinite 0x41800000 = true ∧ fle 0x3E800000 0x41800000 = true ∧
      isNaN (ref.num.fdiv 0x41800000 0x3E800000) = false ∧ 2 ^ 23 ≤ fmag 0x3E800000 := by
  decide +kernel

/-- The quotient of the ends infinite. -/
theorem witness_RemapsAndTheirEnds_infinite :
    posFinite wide.fmIndexMin ∧ isFinite wide.fmIndexMax = true ∧
      fle wide.fmIndexMin wide.fmIndexMax = true ∧
      isNaN (wide.num.fdiv wide.fmIndexMax wide.fmIndexMin) = false ∧ 2 ^ 23 ≤ fmag wide.fmIndexMin := by
  decide +kernel

/-- The lower end a subnormal, under an arithmetic that keeps it. -/
theorem witness_RemapsAndTheirEnds_subnormal :
    posFinite 0x00000001 ∧ fle 0x00000001 0x00000002 = true ∧
      isNaN (ref.num.fdiv 0x00000002 0x00000001) = false ∧
      ref.num.Follows Arithmetic.reference ∧ Arithmetic.reference.KeepsSubnormals :=
  ⟨by decide, by decide, by decide +kernel, test_ref_follows, rfl, rfl⟩

theorem witness_SinResetZeroesOnePhase :
    sounding.inputs.turn = .audio ∧ 2 ≤ (2 : U8).toNat := by decide

theorem witness_SinStepSamplesThenAdvances :
    sounding.inputs.turn = .audio ∧ 2 ≤ (2 : U8).toNat := by decide

theorem witness_GeneratorResetsZeroTheirPhases : sounding.inputs.turn = .audio := rfl

theorem witness_OscProcStepsTheSelectedGenerator : sounding.inputs.turn = .audio := rfl

theorem test_start_inv : start.Inv ref := by
  unfold State.Inv State.PhaseInv State.PrevInv State.EnvInv State.VoiceInv
  decide +kernel

theorem witness_InScopeGeneratorsStayBounded :
    start.Inv ref ∧
      ((0 : U8).toNat < ref.nAlg → ref.algMap 0 ≠ .external) ∧
      ((1 : U8).toNat < ref.nAlg → ref.algMap 1 ≠ .external) ∧
      ((20 : U8).toNat < ref.nAlg → ref.algMap 20 ≠ .external) ∧
      isFinite (fmIndex ref fOne) = true ∧ fle fZero (fmIndex ref fOne) = true ∧
      isNaN (ref.num.fmul (fmIndex ref fOne)
        (ref.num.fsub (ref.num.cos (ref.num.fmul twoPi start.fm.mphase)) fOne)) = false :=
  ⟨test_start_inv, by decide, by decide, by decide, by decide +kernel, by decide +kernel,
    by decide +kernel⟩

theorem witness_FmFirstSampleAfterReset : isFinite (fmIndex ref fOne) = true := by decide +kernel

theorem witness_FmStepFollowsItsFormulas :
    sounding.inputs.turn = .audio ∧ (1 : U8).toNat < 2 ∧ 2 ≤ (2 : U8).toNat := by decide

theorem witness_WfFoldFollowsItsFormula : sounding.inputs.turn = .audio := rfl

theorem witness_WfFoldAnswersASignal :
    (inSignal fNegZero ∧ fmag fNegZero = 0) ∧ (inSignal 0xBF800000 ∧ 2 ^ 23 ≤ fmag 0xBF800000) ∧
      inSignal 0x00000001 ∧ ref.num.Follows Arithmetic.reference ∧
      Arithmetic.reference.KeepsSubnormals :=
  ⟨by decide, by decide, by decide, test_ref_follows, rfl, rfl⟩

theorem witness_BqResetAndSetc : sounding.inputs.turn = .audio ∧ 5 ≤ (5 : U8).toNat := by decide

theorem witness_BqStepFiltersOrFlushes : sounding.inputs.turn = .audio := rfl

theorem witness_BqDelaysStayFinite :
    sounding.bq.DelaysFinite ∧ ∃ t, step sounding = .next t := by
  refine ⟨?_, _, rfl⟩
  unfold BiquadUnit.DelaysFinite
  decide

theorem witness_OnepoleRestoresResetCoefficients : sounding.inputs.turn = .audio := rfl

theorem witness_EnvResetAndGate : sounding.inputs.turn = .audio ∧ 2 ≤ (2 : U8).toNat := by decide

theorem witness_EnvelopeSettersClamp : sounding.inputs.turn = .audio := rfl

theorem witness_EnvStepApproachesItsTarget : sounding.inputs.turn = .audio := rfl

theorem witness_ImmediateEnvelopeReachesItsTarget :
    (ref.num.Follows Arithmetic.reference ∧ Arithmetic.reference.rounding = .nearestEven ∧
      Arithmetic.reference.KeepsSubnormals) ∧
      unitRange 0x3F333333 ∧
      (∃ e : EnvelopeUnit, e.level = 0x3F333333 ∧ e.gate = true ∧ e.atk = 0x00000000#32) ∧
      ∃ e : EnvelopeUnit, e.level = 0x3F333333 ∧ e.gate = false ∧ e.rel = 0x00000000#32 :=
  ⟨⟨test_ref_follows, rfl, rfl, rfl⟩, by decide, ⟨⟨0x3F333333, true, true, 0, 0⟩, rfl, rfl, rfl⟩,
    ⟨0x3F333333, false, true, 0, 0⟩, rfl, rfl, rfl⟩

theorem witness_NoteonStartsTheVoice : sounding.inputs.turn = .audio := rfl

theorem witness_NoteoffLowersTheGates : sounding.inputs.turn = .audio := rfl

theorem witness_VProcMakesOneFrame :
    (sounding.inputs.turn = .audio ∧ sounding.v.playing = true ∧ ∃ t, exec .vProc sounding = .next t) ∧
      (at' .audio .first []).v.playing = false := ⟨⟨rfl, rfl, _, rfl⟩, rfl⟩

theorem witness_GateHoldsOffTheAutoStop :
    sounding.inputs.turn = .audio ∧ sounding.v.playing = true ∧ sounding.env.gate = true :=
  ⟨rfl, rfl, rfl⟩

theorem witness_IsplayReadsThePlayingState : sounding.inputs.turn = .audio := rfl

theorem witness_SetalgSwitchesOrIgnores : sounding.inputs.turn = .audio := rfl

theorem witness_VoiceSettersClamp : sounding.inputs.turn = .audio := rfl

/-- A start by V.NOTEON and one inside TICK; a stop by V.PROC and one inside TICK. -/
theorem witness_PlayingChangesOnlyByNoteonAndAutostop :
    (∃ t, execUnder ref (.vNoteon fOne fOne) start = .next t ∧
      start.v.playing = false ∧ t.v.playing = true) ∧
    (let s := { start with tickPhase := .body }
     ∃ t, execUnder ref .tick s = .next t ∧ s.v.playing = false ∧ t.v.playing = true) ∧
    (∃ t, execUnder ref .vProc dying = .next t ∧ dying.v.playing = true ∧ t.v.playing = false) ∧
    (let s := { dying with tickPhase := .body }
     ∃ t, execUnder ref .tick s = .next t ∧ s.v.playing = true ∧ t.v.playing = false) :=
  ⟨⟨_, rfl, rfl, rfl⟩, ⟨_, rfl, rfl, by decide +kernel⟩, ⟨_, rfl, rfl, by decide +kernel⟩, _, rfl, rfl,
    by decide +kernel⟩

theorem witness_ParameterWriteAndRead :
    sounding.inputs.turn = .audio ∧ (at' .control .first []).inputs.turn = .control := ⟨rfl, rfl⟩

theorem witness_StatusWriteAndRead :
    sounding.inputs.turn = .audio ∧ (at' .control .first []).inputs.turn = .control ∧
      (1 : U8).toNat < 2 ∧ 2 ≤ (2 : U8).toNat := ⟨rfl, rfl, by decide, by decide⟩

theorem witness_TickReadsThenPublishes :
    (let s := at' .audio .first []
     s.inputs.turn = .audio ∧ s.tickPhase = .first) ∧
    (let s := at' .audio .publish []
     s.inputs.turn = .audio ∧ s.tickPhase = .publish) := ⟨⟨rfl, rfl⟩, rfl, rfl⟩

/-- The body of a tick, with a rising edge, with none, and with and without a switch of `v.alg`. -/
theorem witness_TickBodyFollowsItsSteps :
    (∀ g, (inTick 0 g).inputs.turn = .audio ∧ (inTick 0 g).tickPhase = .body) ∧
    (let s := inTick 1 true
     (s.inputs.gateIn && !(s.t.lastGate && decide (s.t.cur.algorithm = s.t.lastAlg))) = true) ∧
    (let s := inTick 0 true
     (s.inputs.gateIn && !(s.t.lastGate && decide (s.t.cur.algorithm = s.t.lastAlg))) = false ∧
       (if s.t.cur.algorithm.toNat < Config.cfg.nAlg then s.t.cur.algorithm else s.v.alg) = s.v.alg) ∧
    (let s := { inTick 0 false with v := { State.reset.v with alg := 1 } }
     (if s.t.cur.algorithm.toNat < Config.cfg.nAlg then s.t.cur.algorithm else s.v.alg) ≠ s.v.alg) := by
  refine ⟨fun _ => ⟨rfl, rfl⟩, rfl, ⟨rfl, ite_self _⟩, ?_⟩
  show (if (0 : U8).toNat < Config.cfg.nAlg then (0 : U8) else 1) ≠ 1
  rw [if_pos (show (0 : U8).toNat < Config.cfg.nAlg from Config.cfg.nAlg_range.1)]
  decide

theorem witness_WholeTickEmitsOneBlock :
    sounding.inputs.turn = .audio ∧ sounding.tickPhase = .first := ⟨rfl, rfl⟩

theorem witness_SelftestEmitsTheSquareWave :
    let s := inTick Config.cfg.idxSelftest false
    s.inputs.turn = .audio ∧ s.tickPhase = .body ∧ s.t.cur.algorithm = Config.cfg.idxSelftest :=
  ⟨rfl, rfl, rfl⟩

theorem witness_CaltoneEmitsTheGatedSine :
    let s := inTick Config.cfg.idxCaltone true
    s.inputs.turn = .audio ∧ s.tickPhase = .body ∧ s.t.cur.algorithm = Config.cfg.idxCaltone :=
  ⟨rfl, rfl, rfl⟩

theorem test_normal_index : ∀ x y : U8, ∃ a : U8, a ≠ x ∧ a ≠ y := by
  intro x y
  by_cases h0 : (0 : U8) ≠ x ∧ (0 : U8) ≠ y
  · exact ⟨0, h0⟩
  · by_cases h1 : (1 : U8) ≠ x ∧ (1 : U8) ≠ y
    · exact ⟨1, h1⟩
    · refine ⟨2, ?_, ?_⟩ <;> intro h <;> subst h <;>
        simp at h0 h1 <;> rw [← h0] at h1 <;> exact absurd h1 (by decide)

theorem witness_NormalBlocksAreBounded :
    ∃ s : State, s.inputs.turn = .audio ∧ s.tickPhase = .body ∧
      s.t.cur.algorithm ≠ Config.cfg.idxSelftest ∧ s.t.cur.algorithm ≠ Config.cfg.idxCaltone := by
  obtain ⟨a, h⟩ := test_normal_index Config.cfg.idxSelftest Config.cfg.idxCaltone
  exact ⟨inTick a false, rfl, rfl, h⟩

theorem witness_NormalFramesAreFinishedVoiceFrames :
    ∃ s : State, s.inputs.turn = .audio ∧ s.tickPhase = .body ∧
      s.t.cur.algorithm ≠ Config.cfg.idxSelftest ∧ s.t.cur.algorithm ≠ Config.cfg.idxCaltone := by
  obtain ⟨a, h⟩ := test_normal_index Config.cfg.idxSelftest Config.cfg.idxCaltone
  exact ⟨inTick a true, rfl, rfl, h⟩

theorem witness_AlgorithmChangeHidesAFallingEdge :
    let s := inTick 1 false
    s.inputs.turn = .audio ∧ s.tickPhase = .body ∧ s.t.cur.algorithm ≠ s.t.lastAlg ∧
      s.inputs.gateIn = false ∧ drone s.t.cur = false := by
  refine ⟨rfl, rfl, ?_, rfl, ?_⟩ <;> decide

theorem witness_AlgorithmChangeRetriggersAHeldNote :
    let s := inTick 1 true
    s.inputs.turn = .audio ∧ s.tickPhase = .body ∧ s.t.cur.algorithm ≠ s.t.lastAlg ∧
      (s.inputs.gateIn = true ∨ drone s.t.cur = true) :=
  ⟨rfl, rfl, by decide, .inl rfl⟩

theorem witness_FirstTickAfterResetDrones : 2 ^ 23 ≤ fmag ref.pitchMinHz := by decide

/-- A sounding note is within the invariants of the machine's own configuration. -/
theorem test_sounding_inv : sounding.Inv Config.cfg := by
  refine ⟨?_, ?_, ?_, ?_⟩
  · unfold State.PhaseInv; decide
  · unfold State.PrevInv; decide
  · unfold State.EnvInv; decide
  · exact ⟨by decide, nyq_nonneg Config.cfg, Config.cfg.nAlg_range.1, by decide⟩

theorem witness_InvariantKeptByEveryStep :
    (sounding.Inv Config.cfg ∧ ∃ t, step sounding = .next t) ∧
      start.Inv ref ∧ ∃ t, stepUnder ref start = .next t :=
  ⟨⟨test_sounding_inv, _, rfl⟩, test_start_inv, _, rfl⟩

theorem witness_OnlyVerbatimRegistersHoldNaNs :
    (sounding.Inv Config.cfg ∧ sounding.bq.DelaysFinite ∧ ∃ t, step sounding = .next t) ∧
      isNaN 0x7F800001 = true :=
  ⟨⟨test_sounding_inv, witness_BqDelaysStayFinite⟩, by decide⟩

end Sys2Proof.Tests
end

section
/-! SUPPORT. The shared arithmetic of an operand (00_scope R14, R15): what the clamp and the phase wrap
answer on each of their branches, and the two statements about them. -/

namespace Sys2Proof.Machine

/-! ## The infinities bound every finite datum (R12) -/

theorem fkey_of_finite {a : F32} (h : isFinite a = true) :
    -0x7F800000 < fkey a ∧ fkey a < 0x7F800000 := by
  simp only [isFinite, decide_eq_true_eq] at h
  rcases fkey_cases a with ⟨-, hk⟩ | ⟨-, hk⟩ <;> omega

theorem fkey_posInf : fkey 0x7F800000#32 = 0x7F800000 := by decide

theorem fkey_negInf : fkey 0xFF800000#32 = -0x7F800000 := by decide

theorem fle_posInf_of_finite {a : F32} (h : isFinite a = true) : fle a 0x7F800000#32 = true :=
  fle_iff.2 ⟨isNaN_of_isFinite h, by decide, by rw [fkey_posInf]; exact (fkey_of_finite h).2.le⟩

theorem not_posInf_fle_of_finite {a : F32} (h : isFinite a = true) : fle 0x7F800000#32 a = false := by
  rw [Bool.eq_false_iff, ne_eq, fle_iff, fkey_posInf]
  rintro ⟨-, -, hle⟩
  exact absurd hle (fkey_of_finite h).2.not_ge

theorem not_fle_negInf_of_finite {a : F32} (h : isFinite a = true) : fle a 0xFF800000#32 = false := by
  rw [Bool.eq_false_iff, ne_eq, fle_iff, fkey_negInf]
  rintro ⟨-, -, hle⟩
  exact absurd hle (fkey_of_finite h).1.not_ge

/-! ## The clamp (R14); `clamp_of_range` is its third branch -/

theorem clamp_of_not_ge {x lo hi : F32} (h : fle lo x = false) : clamp x lo hi = lo := if_pos h

theorem clamp_of_above {x lo hi : F32} (h : fle lo x = true) (h' : fle x hi = false) :
    clamp x lo hi = hi := by
  simp [clamp, h, h']

theorem clamp_nan {x lo hi : F32} (h : isNaN x = true) : clamp x lo hi = lo :=
  clamp_of_not_ge (fle_of_nan h)

theorem clamp_posInf {lo hi : F32} (hlo : isFinite lo = true) (hhi : isFinite hi = true) :
    clamp 0x7F800000#32 lo hi = hi :=
  clamp_of_above (fle_posInf_of_finite hlo) (not_posInf_fle_of_finite hhi)

theorem clamp_negInf {lo hi : F32} (hlo : isFinite lo = true) : clamp 0xFF800000#32 lo hi = lo :=
  clamp_of_not_ge (not_fle_negInf_of_finite hlo)

/-- −0.0 compares equal to the lower bound 0.0, so it is between the bounds and keeps its sign. -/
theorem clamp_negZero {hi : F32} (h : fle fZero hi = true) : clamp fNegZero fZero hi = fNegZero :=
  have hzero : fle fZero fNegZero = true := by decide
  have hneg : fle fNegZero fZero = true := by decide
  clamp_of_range hzero (fle_trans hneg h)

/-! ## The phase wrap (R15) -/

theorem wrap_of_not_finite (c : Cfg) {p : F32} (h : isFinite p = false) : wrap c p = fZero := if_pos h

/-- The fractional part is answered unless rounding has taken it out of [0, 1). -/
theorem wrap_of_finite (c : Cfg) {p : F32} (h : isFinite p = true) :
    wrap c p = if fle fOne (c.num.fsub p (ffloor p)) = true ∨ flt (c.num.fsub p (ffloor p)) fZero = true
      then fZero else c.num.fsub p (ffloor p) := by
  simp [wrap, h]

theorem advance_inPhase (c : Cfg) (ph f : F32) : inPhase (advance c ph f) := wrap_inPhase c (phaseSum c ph f)

end Sys2Proof.Machine

namespace Sys2Proof.Proofs

open Sys2Proof Sys2Proof.Machine

/-- Settles O17: the wrap by the finiteness of its datum, the advance as the wrap of its sum, and the
interval by `wrap_inPhase`, which asks nothing of the phase or the frequency. -/
theorem advanceStaysInPhase : Obligations.AdvanceStaysInPhase := by
  unfold Obligations.AdvanceStaysInPhase
  intro c p ph f
  refine ⟨?_, rfl, rfl, wrap_inPhase c p, advance_inPhase c ph f⟩
  split
  next h => exact wrap_of_not_finite c h
  next h => exact wrap_of_finite c (Bool.eq_true_of_not_eq_false h)

/-- Settles O15: R14's definition, its bounds, and one lemma for each of its corners. -/
theorem clampAnswersALegalValue : Obligations.ClampAnswersALegalValue := by
  unfold Obligations.ClampAnswersALegalValue
  intro x lo hi hlo hhi hle
  exact ⟨rfl, clamp_range hle, clamp_nan, clamp_posInf hlo hhi, clamp_negInf hlo, clamp_of_range,
    clamp_negZero, rfl⟩

end Sys2Proof.Proofs
end

section
/-! SUPPORT. Reset (10_state R62): the statement that it leaves the table. -/

namespace Sys2Proof.Proofs

open Sys2Proof Sys2Proof.Machine

/-- Settles O13: the state at reset is written out field by field, so each row of R62 is read off it by
computation; one case for each unit, as the table groups its rows. -/
theorem resetLeavesTheTable : Obligations.ResetLeavesTheTable := by
  unfold Obligations.ResetLeavesTheTable
  rintro c inp n s rfl
  refine ⟨?sin, ?fm, ?coefficients, ?delays, ?env, ?voice, ?reverb, ?tick, ?channels, ?fault, ?resA, ?resC⟩
  case sin => exact ⟨rfl, rfl⟩
  case fm => exact ⟨rfl, rfl, rfl⟩
  case coefficients => exact ⟨rfl, rfl, rfl, rfl, rfl⟩
  case delays => exact ⟨rfl, rfl, rfl, rfl⟩
  case env => exact ⟨rfl, rfl, rfl, rfl, rfl⟩
  case voice => exact ⟨rfl, rfl, rfl, rfl, rfl, rfl, rfl, rfl, rfl, rfl, rfl, rfl⟩
  case reverb => exact ⟨rfl, rfl⟩
  case tick => exact ⟨rfl, rfl, rfl, rfl, rfl, rfl, rfl⟩
  case channels => exact ⟨rfl, rfl, rfl, rfl⟩
  case fault => exact ⟨rfl, rfl, rfl, rfl⟩
  case resA => rfl
  case resC => rfl

end Sys2Proof.Proofs
end

section
/-! SUPPORT. The sine unit (40_sine_osc R152, R153): the refusal of an illegal `sel`, the effect of its two
operations on each instance, and the two statements about them. -/

namespace Sys2Proof.Machine

/-! ## An illegal operation (30_encoding R120), on either port -/

theorem exec_illegal {i : Instr} {s : State} (h : i.wellFormed = false) :
    exec i s = .next s.flagIllegal := by
  rw [exec_eq_issue, h, issue_illegal]

theorem sinReset_illegal {sel : U8} (h : 2 ≤ sel.toNat) : (Instr.sinReset sel).wellFormed = false :=
  decide_eq_false h.not_gt

theorem sinStep_illegal {sel : U8} {freq : F32} (h : 2 ≤ sel.toNat) :
    (Instr.sinStep sel freq).wellFormed = false :=
  decide_eq_false h.not_gt

/-! ## The effect on each instance; the other one keeps its phase -/

theorem sinReset_zero (s : State) : sinReset 0 s = { s with sin := { s.sin with phase0 := fZero } } := by
  simp [sinReset]

theorem sinReset_one (s : State) : sinReset 1 s = { s with sin := { s.sin with phase1 := fZero } } := by
  simp [sinReset]

/-- The sample is taken of the phase before the step, and it is the one result word. -/
theorem sinStepOp_zero (c : Cfg) (freq : F32) (s : State) :
    sinStepOp c 0 freq s = { s with
      sin := { s.sin with phase0 := advance c s.sin.phase0 freq }
      fault := { s.fault with nonfinite := s.fault.nonfinite || advanceFlags c s.sin.phase0 freq }
      resA := s.resA ++ [sineSample c s.sin.phase0] } := by
  simp [sinStepOp, sinStep, answering, oneWord, State.result, State.flagNonfinite]

theorem sinStepOp_one (c : Cfg) (freq : F32) (s : State) :
    sinStepOp c 1 freq s = { s with
      sin := { s.sin with phase1 := advance c s.sin.phase1 freq }
      fault := { s.fault with nonfinite := s.fault.nonfinite || advanceFlags c s.sin.phase1 freq }
      resA := s.resA ++ [sineSample c s.sin.phase1] } := by
  simp [sinStepOp, sinStep, answering, oneWord, State.result, State.flagNonfinite]

end Sys2Proof.Machine

namespace Sys2Proof.Proofs

open Sys2Proof Sys2Proof.Machine

/-- Settles O19: on its own port each legal `sel` has the effect of its instance, and every other `sel`
is refused whatever the port. -/
theorem sinResetZeroesOnePhase : Obligations.SinResetZeroesOnePhase := by
  unfold Obligations.SinResetZeroesOnePhase
  intro sel s
  refine ⟨rfl, ?zero, ?one, fun h => exec_illegal (sinReset_illegal h)⟩
  case zero =>
    rintro hturn rfl
    exact (exec_performs rfl hturn).trans (congrArg _ (sinReset_zero s))
  case one =>
    rintro hturn rfl
    exact (exec_performs rfl hturn).trans (congrArg _ (sinReset_one s))

/-- Settles O20, as O19: the sample, the advance and its flag of each instance are
`sinStepOp_zero` and `sinStepOp_one`. -/
theorem sinStepSamplesThenAdvances : Obligations.SinStepSamplesThenAdvances := by
  unfold Obligations.SinStepSamplesThenAdvances
  rintro sel freq s c rfl
  refine ⟨rfl, ?zero, ?one, fun h => exec_illegal (sinStep_illegal h)⟩
  case zero =>
    rintro hturn rfl
    exact (exec_performs rfl hturn).trans (congrArg _ (sinStepOp_zero Config.cfg freq s))
  case one =>
    rintro hturn rfl
    exact (exec_performs rfl hturn).trans (congrArg _ (sinStepOp_one Config.cfg freq s))

end Sys2Proof.Proofs
end

section
/-! SUPPORT. The wavefolder unit (42_wavefolder R212): the folded sample on each branch of its pseudocode,
the effect of WF.FOLD on the state, and the statement about it. -/

namespace Sys2Proof.Machine

/-! ## The folded sample, one equation per branch -/

theorem wfValue_of_not_finite {c : Cfg} {amt x : F32} (h : isFinite (wfDriven c amt x) = false) :
    wfValue c amt x = fZero := if_pos h

theorem wfValue_of_below {c : Cfg} {amt x : F32} (h : isFinite (wfDriven c amt x) = true)
    (hle : fle (fabs (wfDriven c amt x)) fOne = true) : wfValue c amt x = wfDriven c amt x := by
  simp [wfValue, h, hle]

theorem wfValue_of_above {c : Cfg} {amt x : F32} (h : isFinite (wfDriven c amt x) = true)
    (hle : fle (fabs (wfDriven c amt x)) fOne = false) :
    wfValue c amt x = wfReflect c (wfDriven c amt x) := by
  simp [wfValue, h, hle]

/-- The effect on the state: one result word, and the sticky flag where the driven sample is not finite. -/
theorem wfFoldOp_eq (c : Cfg) (amt x : F32) (s : State) :
    wfFoldOp c amt x s = { s with
      fault := { s.fault with nonfinite := s.fault.nonfinite || !isFinite (wfDriven c amt x) }
      resA := s.resA ++ [wfValue c amt x] } := by
  simp [wfFoldOp, wfFold, answering, oneWord, State.result, State.flagNonfinite]

/-- The opcode, no selector, two operand words (30_encoding R115). -/
theorem encode_wfFold (amt x : F32) : encode (.wfFold amt x) = [0x30000002#32, amt, x] := by
  have hheader : headerWord 0x30 0 2 = 0x30000002#32 := by decide
  exact congrArg (· :: [amt, x]) hheader

/-- WF.FOLD is legal whatever its operands, so on the audio port it has its effect. -/
theorem exec_wfFold (amt x : F32) {s : State} (h : s.inputs.turn = .audio) :
    exec (.wfFold amt x) s = .next { s with
      fault := { s.fault with nonfinite := s.fault.nonfinite || !isFinite (wfDriven Config.cfg amt x) }
      resA := s.resA ++ [wfValue Config.cfg amt x] } :=
  (exec_performs rfl h).trans (congrArg _ (wfFoldOp_eq Config.cfg amt x s))

end Sys2Proof.Machine

namespace Sys2Proof.Proofs

open Sys2Proof Sys2Proof.Machine

/-- Settles O27: the state's change is `exec_wfFold`; the result word is compared with the pseudocode on
each of its branches, where the driven sample is not finite, is within the threshold, or is reflected. -/
theorem wfFoldFollowsItsFormula : Obligations.WfFoldFollowsItsFormula := by
  unfold Obligations.WfFoldFollowsItsFormula
  rintro amt x s c n rfl rfl
  refine ⟨encode_wfFold amt x, fun hturn => ?_⟩
  intro v t q r
  have hword : wfValue Config.cfg amt x = if isFinite v = false then 0x00000000#32
      else if fle (fabs v) 0x3F800000#32 = true then v else clamp r 0xBF800000#32 0x3F800000#32 := by
    split
    next hinf => exact wfValue_of_not_finite hinf
    next hfin =>
      have hfin : isFinite v = true := Bool.of_not_eq_false hfin
      split
      next hle => exact wfValue_of_below hfin hle
      next hgt => exact wfValue_of_above hfin (Bool.of_not_eq_true hgt)
  rw [← hword]
  exact exec_wfFold amt x hturn

end Sys2Proof.Proofs
end

section
/-! SUPPORT. The biquad unit (43_biquad_iir R232 to R236): the effect of its three operations on their own
port, with one equation per coefficient and per branch of the flush, and the two statements about them. -/

namespace Sys2Proof.Machine

/-! ## The encodings (30_encoding R111, R115): opcode, selector, a zero byte, the number of operands -/

theorem encode_bqReset : encode .bqReset = [0x40000000#32] := by decide

theorem encode_bqSetc (k : U8) (value : F32) :
    encode (.bqSetc k value) = [0x41#8 ++ k ++ 0x00#8 ++ 0x01#8, value] := rfl

theorem encode_bqStep (x : F32) : encode (.bqStep x) = [0x42000001#32, x] := by
  have hheader : headerWord 0x42 0 1 = 0x42000001#32 := by decide
  exact congrArg (· :: [x]) hheader

/-! ## BQ.RESET (R232) -/

/-- BQ.RESET is legal, so on the audio port it clears the delays. -/
theorem exec_bqReset {s : State} (h : s.inputs.turn = .audio) :
    exec .bqReset s = .next { s with bq := s.bq.cleared } :=
  exec_performs rfl h

/-! ## BQ.SETC (R233): `k` names one of b0, b1, b2, a1, a2 in this order -/

@[simp] theorem BiquadUnit.setCoef_zero (u : BiquadUnit) (value : F32) :
    u.setCoef 0#8 value = { u with b0 := value } := rfl

@[simp] theorem BiquadUnit.setCoef_one (u : BiquadUnit) (value : F32) :
    u.setCoef 1#8 value = { u with b1 := value } := rfl

@[simp] theorem BiquadUnit.setCoef_two (u : BiquadUnit) (value : F32) :
    u.setCoef 2#8 value = { u with b2 := value } := rfl

@[simp] theorem BiquadUnit.setCoef_three (u : BiquadUnit) (value : F32) :
    u.setCoef 3#8 value = { u with a1 := value } := rfl

@[simp] theorem BiquadUnit.setCoef_four (u : BiquadUnit) (value : F32) :
    u.setCoef 4#8 value = { u with a2 := value } := rfl

theorem exec_bqSetc {k : U8} (value : F32) {s : State} (hk : k.toNat < 5)
    (h : s.inputs.turn = .audio) :
    exec (.bqSetc k value) s = .next { s with bq := s.bq.setCoef k value } :=
  have hlegal : (Instr.bqSetc k value).wellFormed = true := decide_eq_true hk
  exec_performs hlegal h

theorem bqSetc_illegal {k : U8} {value : F32} (h : 5 ≤ k.toNat) :
    (Instr.bqSetc k value).wellFormed = false :=
  decide_eq_false h.not_gt

/-! ## BQ.STEP (R234), by the finiteness of the sum -/

/-- The flush (R236): the answer is 0.0, the delays are cleared and the sticky flag is set. -/
theorem bqStepOp_of_not_finite {c : Cfg} {x : F32} {s : State}
    (h : isFinite (bqAcc c s.bq x) = false) :
    bqStepOp c x s = { s with
      bq := s.bq.cleared
      fault := { s.fault with nonfinite := true }
      resA := s.resA ++ [fZero] } := by
  simp [bqStepOp, bqStep, h, answering, oneWord, State.result, State.flagNonfinite]

/-- Otherwise the answer is the sum, and it and the operand enter the history. -/
theorem bqStepOp_of_finite {c : Cfg} {x : F32} {s : State} (h : isFinite (bqAcc c s.bq x) = true) :
    bqStepOp c x s = { s with
      bq := { s.bq with x1 := x, x2 := s.bq.x1, y1 := bqAcc c s.bq x, y2 := s.bq.y1 }
      resA := s.resA ++ [bqAcc c s.bq x] } := by
  simp [bqStepOp, bqStep, h, answering, oneWord, State.result]

/-- BQ.STEP is legal whatever its operand, so on the audio port it has its effect. -/
theorem exec_bqStep (x : F32) {s : State} (h : s.inputs.turn = .audio) :
    exec (.bqStep x) s = .next (bqStepOp Config.cfg x s) :=
  exec_performs rfl h

end Sys2Proof.Machine

namespace Sys2Proof.Proofs

open Sys2Proof Sys2Proof.Machine

/-- Settles O29: on the audio port each legal `k` replaces the coefficient it names, by the equation of
`setCoef` for that `k`, and every other `k` is refused whatever the port. -/
theorem bqResetAndSetc : Obligations.BqResetAndSetc := by
  unfold Obligations.BqResetAndSetc
  intro k value s
  refine ⟨⟨encode_bqReset, encode_bqSetc k value⟩, exec_bqReset, ?b0, ?b1, ?b2, ?a1, ?a2,
    fun h => exec_illegal (bqSetc_illegal h)⟩
  case b0 | b1 | b2 | a1 | a2 =>
    rintro hturn rfl
    rw [exec_bqSetc value (by decide) hturn]
    simp

/-- Settles O30: the accumulated sum is `bqAcc` by definition, and its finiteness decides between the two
equations of BQ.STEP. -/
theorem bqStepFiltersOrFlushes : Obligations.BqStepFiltersOrFlushes := by
  unfold Obligations.BqStepFiltersOrFlushes
  rintro x s n rfl
  refine ⟨encode_bqStep x, fun hturn => ?_⟩
  intro acc
  rw [exec_bqStep x hturn]
  split
  next hinf => exact congrArg _ (bqStepOp_of_not_finite hinf)
  next hfin => exact congrArg _ (bqStepOp_of_finite (Bool.eq_true_of_not_eq_false hfin))

end Sys2Proof.Proofs
end

section
/-! SUPPORT. The envelope unit (44_envelope_follower R252 to R256, and the voice's names for its setters,
45_voice_engine R289, R290): the effect of each operation on its own port, and the three statements about
them. -/

namespace Sys2Proof.Machine

/-! ## The encodings (30_encoding R111, R115): opcode, selector, a zero byte, the number of operands -/

theorem encode_envReset : encode .envReset = [0x50000000#32] := by decide

theorem encode_envGate (g : U8) : encode (.envGate g) = [0x51#8 ++ g ++ 0x00#8 ++ 0x00#8] := rfl

theorem encode_oneOperand {i : Instr} {h x : Word} (hoperands : i.operands = [x])
    (hheader : headerWord i.opcode i.sel 1 = h) : encode i = [h, x] := by
  simp [encode, hoperands, hheader]

theorem encode_envSeta (a : F32) : encode (.envSeta a) = [0x52000001#32, a] :=
  encode_oneOperand rfl (show headerWord 0x52 0 1 = 0x52000001#32 by decide)

theorem encode_envSetr (r : F32) : encode (.envSetr r) = [0x53000001#32, r] :=
  encode_oneOperand rfl (show headerWord 0x53 0 1 = 0x53000001#32 by decide)

theorem encode_vSetatk (value : F32) : encode (.vSetatk value) = [0x68000001#32, value] :=
  encode_oneOperand rfl (show headerWord 0x68 0 1 = 0x68000001#32 by decide)

theorem encode_vSetrel (value : F32) : encode (.vSetrel value) = [0x69000001#32, value] :=
  encode_oneOperand rfl (show headerWord 0x69 0 1 = 0x69000001#32 by decide)

theorem encode_envStep : encode .envStep = [0x54000000#32] := by decide

/-! ## ENV.RESET and ENV.GATE (R252, R253) -/

theorem exec_envReset {s : State} (h : s.inputs.turn = .audio) :
    exec .envReset s = .next (envReset s) :=
  exec_performs rfl h

theorem exec_envGate {g : U8} {s : State} (hg : g.toNat < 2) (h : s.inputs.turn = .audio) :
    exec (.envGate g) s = .next (envGate (selBool g) s) :=
  have hlegal : (Instr.envGate g).wellFormed = true := decide_eq_true hg
  exec_performs hlegal h

theorem envGate_illegal {g : U8} (h : 2 ≤ g.toNat) : (Instr.envGate g).wellFormed = false :=
  decide_eq_false h.not_gt

/-- Raising the gate reports playing at once, whatever the level. -/
theorem envGate_true (s : State) :
    envGate true s = { s with env := { s.env with gate := true, active := true } } := by
  simp [envGate]

/-- Lowering the gate keeps the report and the level: only a later step judges the level. -/
theorem envGate_false (s : State) : envGate false s = { s with env := { s.env with gate := false } } := by
  simp [envGate]

/-! ## The setters (R254, R255), each under its two names -/

theorem exec_envSeta (a : F32) {s : State} (h : s.inputs.turn = .audio) :
    exec (.envSeta a) s = .next (envSeta a s) :=
  exec_performs rfl h

theorem exec_envSetr (r : F32) {s : State} (h : s.inputs.turn = .audio) :
    exec (.envSetr r) s = .next (envSetr r s) :=
  exec_performs rfl h

theorem exec_vSetatk (value : F32) {s : State} (h : s.inputs.turn = .audio) :
    exec (.vSetatk value) s = .next (envSeta value s) :=
  exec_performs rfl h

theorem exec_vSetrel (value : F32) {s : State} (h : s.inputs.turn = .audio) :
    exec (.vSetrel value) s = .next (envSetr value s) :=
  exec_performs rfl h

/-! ## ENV.STEP (R256) -/

/-- The new level is stored, judged against the floor, and the one result word. -/
theorem envStepOp_eq (c : Cfg) (s : State) :
    envStepOp c s = { s with
      env := { s.env with
        level := envLevel c s.env
        active := s.env.gate || fle c.envFloor (envLevel c s.env) }
      resA := s.resA ++ [envLevel c s.env] } := by
  simp [envStepOp, envStep, answering, oneWord, State.result]

theorem exec_envStep {s : State} (h : s.inputs.turn = .audio) :
    exec .envStep s = .next { s with
      env := { s.env with
        level := envLevel Config.cfg s.env
        active := s.env.gate || fle Config.cfg.envFloor (envLevel Config.cfg s.env) }
      resA := s.resA ++ [envLevel Config.cfg s.env] } :=
  (exec_performs rfl h).trans (congrArg _ (envStepOp_eq Config.cfg s))

end Sys2Proof.Machine

namespace Sys2Proof.Proofs

open Sys2Proof Sys2Proof.Machine

/-- Settles O33: the two legal gate values are the two equations of `envGate`, and every other `g` is
refused whatever the port. -/
theorem envResetAndGate : Obligations.EnvResetAndGate := by
  unfold Obligations.EnvResetAndGate
  intro s
  refine ⟨encode_envReset, encode_envGate, exec_envReset, ?raise, ?lower,
    fun g h => exec_illegal (envGate_illegal h)⟩
  case raise =>
    intro hturn
    exact (exec_envGate (by decide) hturn).trans (congrArg _ (envGate_true s))
  case lower =>
    intro hturn
    exact (exec_envGate (by decide) hturn).trans (congrArg _ (envGate_false s))

/-- Settles O34: each setter stores R14's clamp to [0, 1], and the voice's two are the envelope's by
another name. -/
theorem envelopeSettersClamp : Obligations.EnvelopeSettersClamp := by
  unfold Obligations.EnvelopeSettersClamp
  intro x s
  refine ⟨⟨encode_envSeta x, encode_envSetr x, encode_vSetatk x, encode_vSetrel x⟩, fun hturn => ?_⟩
  exact ⟨exec_envSeta x hturn, exec_vSetatk x hturn, exec_envSetr x hturn, exec_vSetrel x hturn⟩

/-- Settles O35: R256's target, coefficient and clamped step are `envLevel` by definition; it is stored,
judged and returned by `exec_envStep`. -/
theorem envStepApproachesItsTarget : Obligations.EnvStepApproachesItsTarget := by
  unfold Obligations.EnvStepApproachesItsTarget
  rintro s c rfl
  refine ⟨encode_envStep, fun hturn => ?_⟩
  intro target k lvl
  have hlevel : envLevel Config.cfg s.env = lvl := rfl
  rw [← hlevel]
  exact exec_envStep hturn

end Sys2Proof.Proofs
end

section
/-! SUPPORT. The Voice Engine (45_voice_engine R281, R282, R284 to R288, R291 to R294): the effect of its
note operations, of its read and of its setters on their own port, and the five statements about them. -/

namespace Sys2Proof.Machine

/-! ## The encodings (30_encoding R111, R115): opcode, selector, a zero byte, the number of operands -/

theorem encode_vNoteon (freq velocity : F32) :
    encode (.vNoteon freq velocity) = [0x60000002#32, freq, velocity] := by
  have hheader : headerWord 0x60 0 2 = 0x60000002#32 := by decide
  exact congrArg (· :: [freq, velocity]) hheader

theorem encode_vNoteoff : encode .vNoteoff = [0x61000000#32] := by decide

theorem encode_vIsplay : encode .vIsplay = [0x63000000#32] := by decide

theorem encode_vSetalg (idx : U8) : encode (.vSetalg idx) = [0x64#8 ++ idx ++ 0x00#8 ++ 0x00#8] := rfl

theorem encode_vSetp1 (value : F32) : encode (.vSetp1 value) = [0x65000001#32, value] :=
  encode_oneOperand rfl (show headerWord 0x65 0 1 = 0x65000001#32 by decide)

theorem encode_vSetp2 (value : F32) : encode (.vSetp2 value) = [0x66000001#32, value] :=
  encode_oneOperand rfl (show headerWord 0x66 0 1 = 0x66000001#32 by decide)

theorem encode_vSetwf (value : F32) : encode (.vSetwf value) = [0x67000001#32, value] :=
  encode_oneOperand rfl (show headerWord 0x67 0 1 = 0x67000001#32 by decide)

theorem encode_vSetrvs (value : F32) : encode (.vSetrvs value) = [0x6A000001#32, value] :=
  encode_oneOperand rfl (show headerWord 0x6A 0 1 = 0x6A000001#32 by decide)

theorem encode_vSetrvl (value : F32) : encode (.vSetrvl value) = [0x6B000001#32, value] :=
  encode_oneOperand rfl (show headerWord 0x6B 0 1 = 0x6B000001#32 by decide)

theorem encode_vSetmg (value : F32) : encode (.vSetmg value) = [0x6C000001#32, value] :=
  encode_oneOperand rfl (show headerWord 0x6C 0 1 = 0x6C000001#32 by decide)

theorem encode_vSetfreq (freq : F32) : encode (.vSetfreq freq) = [0x6D000001#32, freq] :=
  encode_oneOperand rfl (show headerWord 0x6D 0 1 = 0x6D000001#32 by decide)

/-! ## V.NOTEON and V.NOTEOFF (R281, R282) -/

/-- The envelope is reset before its gate is raised, so it reports playing from level 0.0. -/
theorem vNoteon_eq (c : Cfg) (freq velocity : F32) (s : State) :
    vNoteon c freq velocity s = { s with
      v := { s.v with freq := clamp freq fZero c.nyq, vel := clamp01 velocity, gate := true, playing := true }
      sin := { s.sin with phase0 := fZero }
      fm := fmZero
      env := { s.env with level := fZero, gate := true, active := true }
      rev := ⟨c.reverb.reset, c.reverb.reset⟩ } := by
  simp only [vNoteon, oscReset_eq, envReset, envGate_true]

theorem exec_vNoteon (freq velocity : F32) {s : State} (h : s.inputs.turn = .audio) :
    exec (.vNoteon freq velocity) s = .next (vNoteon Config.cfg freq velocity s) :=
  exec_performs rfl h

/-- The voice's gate and the envelope's fall together; neither report of playing is touched. -/
theorem vNoteoff_eq (s : State) :
    vNoteoff s = { s with v := { s.v with gate := false }, env := { s.env with gate := false } } :=
  envGate_false { s with v := { s.v with gate := false } }

theorem exec_vNoteoff {s : State} (h : s.inputs.turn = .audio) : exec .vNoteoff s = .next (vNoteoff s) :=
  exec_performs rfl h

/-! ## V.ISPLAY (R284) -/

theorem exec_vIsplay {s : State} (h : s.inputs.turn = .audio) :
    exec .vIsplay s = .next { s with resA := s.resA ++ [boolWord s.v.playing] } :=
  exec_performs rfl h

/-! ## V.SETALG (R285), by whether the index switches -/

theorem vSetalg_of_switches {c : Cfg} {idx : U8} {s : State} (h : Switches c idx s) :
    vSetalg c idx s = { s with
      v := { s.v with alg := idx }
      sin := { s.sin with phase0 := fZero }
      fm := fmZero } :=
  (if_pos h).trans (oscReset_eq _)

theorem vSetalg_of_not_switches {c : Cfg} {idx : U8} {s : State} (h : ¬Switches c idx s) :
    vSetalg c idx s = s :=
  if_neg h

theorem exec_vSetalg (idx : U8) {s : State} (h : s.inputs.turn = .audio) :
    exec (.vSetalg idx) s = .next (vSetalg Config.cfg idx s) :=
  exec_performs rfl h

/-! ## The setters (R286 to R288, R291 to R294) -/

section
variable (value : F32) {s : State} (h : s.inputs.turn = .audio)
include h

theorem exec_vSetp1 : exec (.vSetp1 value) s = .next (vSetp1 value s) := exec_performs rfl h
theorem exec_vSetp2 : exec (.vSetp2 value) s = .next (vSetp2 value s) := exec_performs rfl h
theorem exec_vSetwf : exec (.vSetwf value) s = .next (vSetwf value s) := exec_performs rfl h
theorem exec_vSetrvs : exec (.vSetrvs value) s = .next (vSetrvs value s) := exec_performs rfl h
theorem exec_vSetrvl : exec (.vSetrvl value) s = .next (vSetrvl value s) := exec_performs rfl h
theorem exec_vSetmg : exec (.vSetmg value) s = .next (vSetmg value s) := exec_performs rfl h
theorem exec_vSetfreq : exec (.vSetfreq value) s = .next (vSetfreq Config.cfg value s) := exec_performs rfl h

end

end Sys2Proof.Machine

namespace Sys2Proof.Proofs

open Sys2Proof Sys2Proof.Machine

/-- Settles O37: legal whatever its operands, V.NOTEON has the effect `vNoteon_eq`, whose bound NYQ is half
the sample rate by definition. -/
theorem noteonStartsTheVoice : Obligations.NoteonStartsTheVoice := by
  unfold Obligations.NoteonStartsTheVoice
  rintro freq velocity s c rfl
  refine ⟨encode_vNoteon freq velocity, fun hturn => ?_⟩
  exact (exec_vNoteon freq velocity hturn).trans (congrArg _ (vNoteon_eq Config.cfg freq velocity s))

/-- Settles O38: the two gates fall by `vNoteoff_eq`, and the frame is in its equality of states. -/
theorem noteoffLowersTheGates : Obligations.NoteoffLowersTheGates := by
  unfold Obligations.NoteoffLowersTheGates
  intro s
  exact ⟨encode_vNoteoff, fun hturn => (exec_vNoteoff hturn).trans (congrArg _ (vNoteoff_eq s))⟩

/-- Settles O41: the one result word is the playing bit as R118 spells a boolean. -/
theorem isplayReadsThePlayingState : Obligations.IsplayReadsThePlayingState := by
  unfold Obligations.IsplayReadsThePlayingState
  exact fun s => ⟨encode_vIsplay, exec_vIsplay⟩

/-- Settles O42, by R285's test on the index: `vSetalg_of_switches` where it holds, and elsewhere
`vSetalg_of_not_switches`. -/
theorem setalgSwitchesOrIgnores : Obligations.SetalgSwitchesOrIgnores := by
  unfold Obligations.SetalgSwitchesOrIgnores
  rintro idx s c rfl
  refine ⟨encode_vSetalg idx, fun hturn => ?_⟩
  rw [exec_vSetalg idx hturn]
  split
  next hswitches => exact congrArg _ (vSetalg_of_switches hswitches)
  next hstays => exact congrArg _ (vSetalg_of_not_switches hstays)

/-- Settles O43: each setter stores R14's clamp of its operand, six of them to [0, 1] and V.SETFREQ to
[0, NYQ]. -/
theorem voiceSettersClamp : Obligations.VoiceSettersClamp := by
  unfold Obligations.VoiceSettersClamp
  rintro x s c rfl
  refine ⟨⟨encode_vSetp1 x, encode_vSetp2 x, encode_vSetwf x, encode_vSetrvs x, encode_vSetrvl x,
    encode_vSetmg x, encode_vSetfreq x⟩, ?_⟩
  rintro hturn y rfl
  exact ⟨exec_vSetp1 x hturn, exec_vSetp2 x hturn, exec_vSetwf x hturn, exec_vSetrvs x hturn,
    exec_vSetrvl x hturn, exec_vSetmg x hturn, exec_vSetfreq x hturn⟩

end Sys2Proof.Proofs
end

section
/-! SUPPORT. The channel operations (46_task_scheduler_fifo R341 to R344): the effect of each write and
read on its own port, the words the reads return, and the two statements about them. -/

namespace Sys2Proof.Machine

/-! ## The encodings (30_encoding R111, R115): opcode, selector, a zero byte, the number of operands -/

theorem encode_chPwr (p : ParameterSnapshot) :
    encode (.chPwr p) = [0x70#8 ++ p.algorithm ++ 0x00#8 ++ 0x0D#8, p.attack, p.decay, p.reverbSize,
      p.reverbLevel, p.param1, p.param2, p.masterGain, p.cv0, p.cv1, p.cv2, p.pot0, p.pot1, p.pot2] := rfl

theorem encode_chPrd : encode .chPrd = [0x71000000#32] := by decide

theorem encode_chSwr (ok : U8) (u : Word) :
    encode (.chSwr ok u) = [0x72#8 ++ ok ++ 0x00#8 ++ 0x01#8, u] := rfl

theorem encode_chSrd : encode .chSrd = [0x73000000#32] := by decide

/-! ## The result words (R118): a boolean is 0 or 1, a byte is extended with zeros -/

theorem boolWord_eq (b : Bool) : boolWord b = if b then 0x00000001#32 else 0x00000000#32 := rfl

theorem u8Word_eq (a : U8) : u8Word a = 0x000000#24 ++ a :=
  BitVec.setWidth_eq_append (by decide : 8 ≤ 32)

/-! ## CH.PWR and CH.PRD (R341, R342) -/

/-- CH.PWR is legal whatever its operands, so on the control port the snapshot enters the slot as given. -/
theorem exec_chPwr (p : ParameterSnapshot) {s : State} (h : s.inputs.turn = .control) :
    exec (.chPwr p) s = .next { s with chP := { slot := p, fresh := true } } :=
  exec_performs rfl h

/-- The snapshot that a read of the parameter channel leaves in `t.cur`. -/
def currentAfterRead (s : State) : ParameterSnapshot := if s.chP.fresh then s.chP.slot else s.t.cur

/-- The flag is the one before the read, and the words are those of `t.cur` after it. -/
theorem chPrdOp_eq (s : State) :
    chPrdOp s = { s with
      t := { s.t with cur := currentAfterRead s }
      chP := { s.chP with fresh := false }
      resA := s.resA ++ snapshotWords s.chP.fresh (currentAfterRead s) } := rfl

theorem exec_chPrd {s : State} (h : s.inputs.turn = .audio) :
    exec .chPrd s = .next { s with
      t := { s.t with cur := currentAfterRead s }
      chP := { s.chP with fresh := false }
      resA := s.resA ++ snapshotWords s.chP.fresh (currentAfterRead s) } :=
  (exec_performs rfl h).trans (congrArg _ (chPrdOp_eq s))

/-! ## CH.SWR and CH.SRD (R343, R344) -/

/-- The status published is made of the operands alone: the block's own counters are not read. -/
theorem exec_chSwr {ok : U8} (u : Word) {s : State} (hok : ok.toNat < 2) (h : s.inputs.turn = .audio) :
    exec (.chSwr ok u) s = .next { s with
      chS := { slot := { underruns := u, audioOk := selBool ok }, fresh := true } } :=
  have hlegal : (Instr.chSwr ok u).wellFormed = true := decide_eq_true hok
  exec_performs hlegal h

theorem chSwr_illegal {ok : U8} {u : Word} (h : 2 ≤ ok.toNat) : (Instr.chSwr ok u).wellFormed = false :=
  decide_eq_false h.not_gt

theorem chSrdOp_eq (s : State) :
    chSrdOp s = { s with
      chS := { s.chS with fresh := false }
      resC := s.resC ++ statusWords s.chS.fresh s.chS.slot } := rfl

theorem exec_chSrd {s : State} (h : s.inputs.turn = .control) :
    exec .chSrd s = .next { s with
      chS := { s.chS with fresh := false }
      resC := s.resC ++ statusWords s.chS.fresh s.chS.slot } :=
  (exec_performs rfl h).trans (congrArg _ (chSrdOp_eq s))

end Sys2Proof.Machine

namespace Sys2Proof.Proofs

open Sys2Proof Sys2Proof.Machine

/-- Settles O45: the write is `exec_chPwr`; the read is `exec_chPrd`, whose fifteen words are the flag, the
algorithm extended to a word and the thirteen parameters of the snapshot then in `t.cur`. -/
theorem parameterWriteAndRead : Obligations.ParameterWriteAndRead := by
  unfold Obligations.ParameterWriteAndRead
  intro p s
  refine ⟨encode_chPrd, encode_chPwr p, exec_chPwr p, ?read⟩
  rintro hturn q hq
  have hcur : currentAfterRead s = q := hq.symm
  rw [exec_chPrd hturn, hcur, snapshotWords, boolWord_eq, u8Word_eq]

/-- Settles O46: a legal `sel` publishes its operands by `exec_chSwr` and every other one is refused
whatever the port; the read returns the flag and the slot as `statusWords` spells them. -/
theorem statusWriteAndRead : Obligations.StatusWriteAndRead := by
  unfold Obligations.StatusWriteAndRead
  intro ok u s
  refine ⟨⟨encode_chSwr ok u, encode_chSrd⟩, fun hturn hok => exec_chSwr u hok hturn,
    fun h => exec_illegal (chSwr_illegal h), fun hturn => ?read⟩
  rw [exec_chSrd hturn, statusWords, boolWord_eq, boolWord_eq]

end Sys2Proof.Proofs
end

section
/-! SUPPORT. The encoding (30_encoding R110 to R116, R127; 20_memory R88): what a whole head decodes to, both
directions of the round trip, the byte order of a serialised stream, and the four statements about them. -/

namespace Sys2Proof.Laws

/-! ## Decoding a whole head (R116) -/

theorem decodeOp_whole {h : Word} {operands : List Word} (rest : List Word)
    (hlen : operands.length = headerNops h) :
    decodeOp (h :: (operands ++ rest)) = classify h operands rest := by
  have hwhole : ¬ (operands ++ rest).length < headerNops h := by
    rw [List.length_append]; omega
  simp only [decodeOp, if_neg hwhole, List.take_left' hlen, List.drop_left' hlen]

/-- A port that decodes to something else than a wait begins with a whole head. -/
theorem decodeOp_head_whole {ws : List Word} (h : decodeOp ws ≠ .incomplete) :
    ∃ hd operands rest, ws = hd :: (operands ++ rest) ∧ operands.length = headerNops hd := by
  match ws with
  | [] => exact absurd rfl h
  | hd :: tail =>
    by_cases hshort : tail.length < headerNops hd
    · exact absurd (if_pos hshort) h
    · refine ⟨hd, tail.take (headerNops hd), tail.drop (headerNops hd), ?_, ?_⟩
      · rw [List.take_append_drop]
      · rw [List.length_take]; omega

section
variable {h : Word} (operands rest : List Word) {r : OpRow}

theorem classify_of_unassigned (hrow : findRow (headerOpcode h) = none) :
    classify h operands rest = .illegal .unassignedOpcode rest := by
  simp only [classify, hrow]

theorem classify_of_reserved (hrow : findRow (headerOpcode h) = some r) (hzero : headerZero h ≠ 0) :
    classify h operands rest = .illegal .nonzeroReserved rest := by
  simp only [classify, hrow, if_pos hzero]

theorem classify_of_count (hrow : findRow (headerOpcode h) = some r) (hzero : headerZero h = 0)
    (hnops : headerNops h ≠ r.format.nops) :
    classify h operands rest = .illegal .wrongOperandCount rest := by
  simp only [classify, hrow, hzero, ne_eq, not_true, if_false, if_pos hnops]

theorem classify_of_sel (hrow : findRow (headerOpcode h) = some r) (hzero : headerZero h = 0)
    (hnops : headerNops h = r.format.nops) (hsel : r.selMax < (headerSel h).toNat) :
    classify h operands rest = .illegal .selOutOfRange rest := by
  simp only [classify, hrow, hzero, hnops, ne_eq, not_true, if_false, if_pos hsel]

theorem classify_of_built {i : Instr} (hrow : findRow (headerOpcode h) = some r) (hzero : headerZero h = 0)
    (hnops : headerNops h = r.format.nops) (hsel : (headerSel h).toNat ≤ r.selMax)
    (hbuild : buildOp (headerOpcode h) (headerSel h) (fun k => operands.getD k 0) = some i) :
    classify h operands rest = .op i rest := by
  simp only [classify, hrow, hzero, hnops, ne_eq, not_true, if_false, if_neg hsel.not_gt, hbuild]

theorem classify_of_unbuilt (hrow : findRow (headerOpcode h) = some r) (hzero : headerZero h = 0)
    (hnops : headerNops h = r.format.nops) (hsel : (headerSel h).toNat ≤ r.selMax)
    (hbuild : buildOp (headerOpcode h) (headerSel h) (fun k => operands.getD k 0) = none) :
    classify h operands rest = .illegal .unassignedOpcode rest := by
  simp only [classify, hrow, hzero, hnops, ne_eq, not_true, if_false, if_neg hsel.not_gt, hbuild]

end

/-- A head is an operation exactly when it passes R116's tests, in order. -/
theorem classify_eq_op_iff {h : Word} {operands rest rest' : List Word} {i : Instr} :
    classify h operands rest = .op i rest' ↔ rest' = rest ∧ ∃ r, findRow (headerOpcode h) = some r ∧
      headerZero h = 0 ∧ headerNops h = r.format.nops ∧ (headerSel h).toNat ≤ r.selMax ∧
      buildOp (headerOpcode h) (headerSel h) (fun k => operands.getD k 0) = some i := by
  constructor
  · intro hop
    cases hrow : findRow (headerOpcode h) with
    | none => rw [classify_of_unassigned operands rest hrow] at hop; cases hop
    | some r =>
      have hzero : headerZero h = 0 := by
        by_contra hne; rw [classify_of_reserved operands rest hrow hne] at hop; cases hop
      have hnops : headerNops h = r.format.nops := by
        by_contra hne; rw [classify_of_count operands rest hrow hzero hne] at hop; cases hop
      have hsel : (headerSel h).toNat ≤ r.selMax := by
        by_contra hgt
        rw [classify_of_sel operands rest hrow hzero hnops (not_le.1 hgt)] at hop; cases hop
      cases hbuild : buildOp (headerOpcode h) (headerSel h) (fun k => operands.getD k 0) with
      | none => rw [classify_of_unbuilt operands rest hrow hzero hnops hsel hbuild] at hop; cases hop
      | some j =>
        rw [classify_of_built operands rest hrow hzero hnops hsel hbuild] at hop
        cases hop
        exact ⟨rfl, r, rfl, hzero, hnops, hsel, rfl⟩
  · rintro ⟨rfl, r, hrow, hzero, hnops, hsel, hbuild⟩
    exact classify_of_built operands _ hrow hzero hnops hsel hbuild

/-- A head that is no operation is illegal, whichever of the tests it fails. -/
theorem classify_cases (h : Word) (operands rest : List Word) :
    (∃ why, classify h operands rest = .illegal why rest) ∨
      ∃ i, classify h operands rest = .op i rest := by
  unfold classify
  repeat' split
  all_goals simp

/-- An operation decoded is well-formed, and its fields are those of its header and operand words. -/
theorem fields_of_classify {h : Word} {operands rest rest' : List Word} {i : Instr}
    (hlen : operands.length = headerNops h) (hop : classify h operands rest = .op i rest') :
    rest' = rest ∧ i.wellFormed = true ∧ i.opcode = headerOpcode h ∧ i.sel = headerSel h ∧
      headerZero h = 0 ∧ i.operands = operands := by
  obtain ⟨hrest, r, hrow, hzero, hnops, hmax, hbuild⟩ := classify_eq_op_iff.1 hop
  obtain ⟨hopcode, hfields, hwords⟩ := buildOp_fields hbuild
  obtain ⟨hcount, hsel⟩ := hfields r hrow
  have hsel : i.sel = headerSel h := by
    rcases hsel with hsel | ⟨hsel, hnone⟩
    · exact hsel
    · rw [hsel]
      exact BitVec.eq_of_toNat_eq (by rw [hnone] at hmax; exact (Nat.le_zero.1 hmax).symm)
  obtain ⟨-, ⟨r', hrow', -, hlegal⟩, -⟩ := header_statement i
  rw [hopcode, hrow] at hrow'
  cases hrow'
  have hsame : i.operands.length = operands.length := by omega
  exact ⟨hrest, hlegal.2 (hsel ▸ hmax), hopcode, hsel, hzero, eq_of_getD hsame hwords⟩

/-- A header with a zero third byte is the header word of its other three fields (R111). -/
theorem headerWord_fields {h : Word} (hzero : headerZero h = 0) :
    headerWord (headerOpcode h) (headerSel h) (headerNops h) = h := by
  conv_rhs => rw [header_split h, hzero]
  rfl

/-! ## The byte order of a serialised stream (20_memory R88) -/

theorem wordBytes_append (b3 b2 b1 b0 : BitVec 8) : wordBytes (b3 ++ b2 ++ b1 ++ b0) = [b0, b1, b2, b3] := by
  have hbyte1 : (b3 ++ b2 ++ b1 ++ b0).extractLsb' 8 8 = b1 := by
    rw [BitVec.extractLsb'_append_eq_of_le (by decide), BitVec.extractLsb'_append_eq_right]
  have hbyte2 : (b3 ++ b2 ++ b1 ++ b0).extractLsb' 16 8 = b2 := by
    rw [BitVec.extractLsb'_append_eq_of_le (by decide), BitVec.extractLsb'_append_eq_of_le (by decide),
      BitVec.extractLsb'_append_eq_right]
  have hbyte3 : (b3 ++ b2 ++ b1 ++ b0).extractLsb' 24 8 = b3 := by
    rw [BitVec.extractLsb'_append_eq_of_le (by decide), BitVec.extractLsb'_append_eq_of_le (by decide),
      BitVec.extractLsb'_append_eq_left]
  simp only [wordBytes, BitVec.extractLsb'_append_eq_right, hbyte1, hbyte2, hbyte3]

/-- The four bytes of a word, most significant first: the fields of a header are bytes. -/
theorem bytes_append (w : Word) :
    w.extractLsb' 24 8 ++ w.extractLsb' 16 8 ++ w.extractLsb' 8 8 ++ w.extractLsb' 0 8 = w := by
  have h := header_split w
  simp only [headerNops, BitVec.ofNat_toNat, BitVec.setWidth_eq] at h
  exact h.symm

theorem wordsOfBytes_wordBytes (w : Word) (bs : List (BitVec 8)) :
    wordsOfBytes (wordBytes w ++ bs) = (wordsOfBytes bs).map (w :: ·) := by
  simp only [wordBytes, List.cons_append, List.nil_append, wordsOfBytes, bytes_append]

end Sys2Proof.Laws

namespace Sys2Proof.Proofs

open Sys2Proof Sys2Proof.Machine Sys2Proof.Laws

/-- Settles O1: the header of the encoding holds the operation's own fields, so it passes R116's five tests
and the row builds the operation back (`header_statement`). -/
theorem decodeEncodeRoundTrip : Obligations.DecodeEncodeRoundTrip := by
  unfold Obligations.DecodeEncodeRoundTrip
  intro i rest hlegal
  obtain ⟨⟨hopcode, hsel, hzero, hnops⟩, ⟨r, hrow, hcount, hrange⟩, hbuild⟩ := header_statement i
  rw [encode, List.cons_append, decodeOp_whole rest hnops.symm, classify_eq_op_iff, hopcode, hsel]
  exact ⟨rfl, r, hrow, hzero, hnops.trans hcount.symm, hrange.1 hlegal, hbuild⟩

/-- Settles O2: the head taken is the operation's header and operand words by `fields_of_classify`. -/
theorem decodedWordsAreTheEncoding : Obligations.DecodedWordsAreTheEncoding := by
  unfold Obligations.DecodedWordsAreTheEncoding
  intro ws i rest hop
  obtain ⟨h, operands, tail, rfl, hlen⟩ := decodeOp_head_whole (by rw [hop]; exact Decoded.noConfusion)
  rw [decodeOp_whole tail hlen] at hop
  obtain ⟨rfl, hlegal, hopcode, hsel, hzero, hwords⟩ := fields_of_classify hlen hop
  refine ⟨hlegal, ?_⟩
  rw [encode, hopcode, hsel, hwords, hlen, headerWord_fields hzero, List.cons_append]

/-- Settles O4: the byte order by `wordBytes_append`, the read-back by induction on the words. -/
theorem serialisedStreamRoundTrip : Obligations.SerialisedStreamRoundTrip := by
  unfold Obligations.SerialisedStreamRoundTrip
  refine ⟨wordBytes_append, fun ws => ?_⟩
  induction ws with
  | nil => rfl
  | cons w ws ih => rw [List.flatMap_cons, wordsOfBytes_wordBytes, ih, Option.map_some]

/-- Settles O3: the fixed words by computation; the operand of the other two heads is any word, as they fail
R116's tests before it is looked at. -/
theorem workedEncodings : Obligations.WorkedEncodings := by
  unfold Obligations.WorkedEncodings
  refine ⟨by decide, by decide, by decide, by decide, by decide, by decide, by decide, by decide, ?range,
    ?count, by decide⟩
  case range =>
    intro x
    have hlen : [x].length = headerNops 0x11020001 := by rw [List.length_singleton]; decide
    have hrow : findRow (headerOpcode 0x11020001) = some ⟨0x11, .sf1, 1⟩ := by decide
    exact (decodeOp_whole [] hlen).trans
      (classify_of_sel [x] [] hrow (by decide) (by decide) (by decide))
  case count =>
    intro x
    have hlen : [x].length = headerNops 0x62000001 := by rw [List.length_singleton]; decide
    have hrow : findRow (headerOpcode 0x62000001) = some ⟨0x62, .z, 0⟩ := by decide
    exact (decodeOp_whole [] hlen).trans (classify_of_count [x] [] hrow (by decide) (by decide))

end Sys2Proof.Proofs
end

section
/-! SUPPORT. The step (46_task_scheduler_fifo R331, R332; 60_exceptions R390 to R406; 70_reset_and_hazards R432):
what a step does with the head of a port, the flags an operation can raise, what either context leaves of
the other's state, and the eight statements about them. -/

namespace Sys2Proof.Machine

open Sys2Proof.Laws

/-! ## The operation at the head of a port (R332) -/

/-- Outside reset and between ticks, a step takes the head of the moving context's port. -/
theorem step_of_fetch {s : State} (hreset : s.inputs.resetIn = false)
    (hphase : s.inputs.turn = .audio → s.tickPhase = .first) :
    step s = Outcome.mapNext State.nextInputs (fetchAndRun exec s) := by
  have hidle : ¬ (s.inputs.turn = .audio ∧ s.tickPhase ≠ .first) := fun h => h.2 (hphase h.1)
  simp only [step, stepWith, hreset, Bool.false_eq_true, if_false, atomicStep, if_neg hidle]

theorem step_of_tick {s : State} (hreset : s.inputs.resetIn = false) (hturn : s.inputs.turn = .audio)
    (hphase : s.tickPhase ≠ .first) :
    step s = Outcome.mapNext State.nextInputs (exec .tick s) := by
  have hbusy : s.inputs.turn = .audio ∧ s.tickPhase ≠ .first := ⟨hturn, hphase⟩
  simp only [step, stepWith, hreset, Bool.false_eq_true, if_false, atomicStep, if_pos hbusy]

theorem step_of_reset {s : State} (hreset : s.inputs.resetIn = true) :
    step s = .next (s.resetNow Config.cfg).nextInputs := by
  simp only [step, stepWith, hreset, if_true]

/-- What a step outside reset can be: `step_cases` without its first case. -/
theorem step_of_released {s t : State} (hreset : s.inputs.resetIn = false) (h : step s = .next t) :
    ∃ u, t = u.nextInputs ∧
      ((s.inputs.turn = .audio ∧ s.tickPhase ≠ .first ∧ exec .tick s = .next u) ∨
        (¬(s.inputs.turn = .audio ∧ s.tickPhase ≠ .first) ∧
          ((decodeOp (s.port s.inputs.turn) = .incomplete ∧ u = s) ∨
            (∃ why rest, decodeOp (s.port s.inputs.turn) = .illegal why rest ∧
              u = (s.setPort s.inputs.turn rest).flagIllegal) ∨
            ∃ i rest, decodeOp (s.port s.inputs.turn) = .op i rest ∧
              exec i (s.setPort s.inputs.turn rest) = .next u))) := by
  obtain ⟨hreset', -⟩ | ⟨-, hcases⟩ := step_cases h
  · rw [hreset] at hreset'; cases hreset'
  · exact hcases

theorem fetchAndRun_of_op {run : Instr → State → Host.Outcome State Fault Refusal} {s : State} {i : Instr}
    {rest : List Word} (h : decodeOp (s.port s.inputs.turn) = .op i rest) :
    fetchAndRun run s = run i (s.setPort s.inputs.turn rest) := by
  simp only [fetchAndRun, h]

theorem fetchAndRun_of_incomplete {run : Instr → State → Host.Outcome State Fault Refusal} {s : State}
    (h : decodeOp (s.port s.inputs.turn) = .incomplete) : fetchAndRun run s = .next s := by
  simp only [fetchAndRun, h]

theorem fetchAndRun_of_illegal {run : Instr → State → Host.Outcome State Fault Refusal} {s : State}
    {why : IllegalReason} {rest : List Word} (h : decodeOp (s.port s.inputs.turn) = .illegal why rest) :
    fetchAndRun run s = .next (s.setPort s.inputs.turn rest).flagIllegal := by
  simp only [fetchAndRun, h]

theorem decodeOp_short {h : Word} {tail : List Word} (hshort : tail.length < headerNops h) :
    decodeOp (h :: tail) = .incomplete :=
  if_pos hshort

theorem exec_next (i : Instr) (s : State) : ∃ t, exec i s = .next t := by
  rcases exec_cases i s with ⟨-, he⟩ | ⟨-, -, he⟩ | ⟨-, -, he⟩ <;> exact ⟨_, he⟩

theorem fetchAndRun_next (s : State) : ∃ t, fetchAndRun exec s = .next t := by
  cases h : decodeOp (s.port s.inputs.turn) with
  | incomplete => exact ⟨_, fetchAndRun_of_incomplete h⟩
  | illegal why rest => exact ⟨_, fetchAndRun_of_illegal h⟩
  | op i rest =>
    rw [fetchAndRun_of_op h]
    exact exec_next i _

/-! ## The wrong port (60_exceptions R402) -/

theorem context_control_iff (i : Instr) : i.context = .control ↔ (∃ p, i = .chPwr p) ∨ i = .chSrd := by
  cases i <;> simp [Instr.context]

theorem exec_wrong_port {i : Instr} {s : State} (hlegal : i.wellFormed = true)
    (hport : s.inputs.turn ≠ i.context) : exec i s = .next s.flagCtx := by
  rw [exec_eq_issue, hlegal]
  exact issue_wrong_port hport

/-! ## The sticky flags (60_exceptions R394) -/

/-- The flags after are those before with `fault.nonfinite` and `fault.guard` raised or not. -/
def StickyFlags.Raised (before after : StickyFlags) : Prop :=
  ∃ b g, after = { before with nonfinite := before.nonfinite || b, guard := before.guard || g }

theorem StickyFlags.Raised.refl (f : StickyFlags) : f.Raised f := ⟨false, false, by simp⟩

/-- Raising `fault.nonfinite` alone. -/
theorem StickyFlags.Raised.nonfinite (f : StickyFlags) (b : Bool) :
    f.Raised { f with nonfinite := f.nonfinite || b } := ⟨b, false, by simp⟩

theorem StickyFlags.Raised.trans {f g h : StickyFlags} (hfg : f.Raised g) (hgh : g.Raised h) : f.Raised h := by
  obtain ⟨b, g, rfl⟩ := hfg
  obtain ⟨b', g', rfl⟩ := hgh
  exact ⟨b || b', g || g', by simp only [Bool.or_assoc]⟩

theorem StickyFlags.Raised.kept {f g : StickyFlags} (h : f.Raised g) : f.Kept g := by
  obtain ⟨b, g, rfl⟩ := h
  refine ⟨id, id, fun h => ?_, fun h => ?_⟩ <;> simp [h]

theorem StickyFlags.Kept.illegal (f : StickyFlags) : f.Kept { f with illegal := true } :=
  ⟨fun _ => rfl, id, id, id⟩

theorem StickyFlags.Kept.ctx (f : StickyFlags) : f.Kept { f with ctx := true } := ⟨id, fun _ => rfl, id, id⟩

theorem bqStep_raises (c : Cfg) (x : F32) (s : State) : s.fault.Raised (bqStep c x s).2.fault := by
  obtain ⟨bq, b, h⟩ := bqStep_state c x s
  rw [(h s rfl rfl).2]
  exact .nonfinite _ b

theorem oscProc_raises (c : Cfg) (idx : U8) (pitch p1 p2 p3 : F32) (s : State) :
    s.fault.Raised (oscProc c idx pitch p1 p2 p3 s).2.fault := by
  obtain ⟨ph, u, b, d, h⟩ := oscProc_state c idx pitch p1 p2 p3 s
  rw [h]
  exact .nonfinite _ b

theorem vProc_raises (c : Cfg) (s : State) : s.fault.Raised (vProc c s).2.fault := by
  obtain ⟨ph, u, lvl, act, rv, pl, b, d, h⟩ := vProc_state c s
  rw [h]
  exact .nonfinite _ b

theorem vSetalg_fault (c : Cfg) (idx : U8) (s : State) : (vSetalg c idx s).fault = s.fault := by
  obtain ⟨ph, u, -, h⟩ := vSetalg_eq c idx s
  rw [h]

theorem tickControl_raises (c : Cfg) (s : State) : s.fault.Raised (tickControl c s).fault := by
  obtain ⟨ph, u, lvl, act, h, -⟩ := tickControl_state c s
  rw [h]
  exact bqStep_raises c (pitchBlend c s.t.cur) s

theorem tickBody_raises (c : Cfg) (s : State) : s.fault.Raised (tickBody c s).fault := by
  obtain ⟨sn, u, lvl, act, rv, pl, sq, b, g, d, block, -, -, h⟩ := tickBody_state c s
  rw [h]
  exact (tickControl_raises c s).trans ⟨b, g, rfl⟩

theorem tickSubStep_raises (c : Cfg) (s : State) : s.fault.Raised (tickSubStep c s).fault := by
  unfold tickSubStep
  cases s.tickPhase with
  | first => exact .refl _
  | body => exact tickBody_raises c s
  | publish => exact .refl _

/-- No performed operation touches the two flags of a refusal or lowers the other two. -/
theorem perform_raises (c : Cfg) (i : Instr) (s : State) : s.fault.Raised (perform c i s).fault := by
  cases i
  case sinStep sel freq => exact .nonfinite _ _
  case fmStep var pitch p1 p2 p3 => exact .nonfinite _ _
  case wfFold amt x => exact .nonfinite _ _
  case oscProc idx pitch p1 p2 p3 => exact oscProc_raises c idx pitch p1 p2 p3 s
  case bqStep x => exact bqStep_raises c x s
  case vProc => exact vProc_raises c s
  case vSetalg idx => exact (vSetalg_fault c idx s).symm ▸ .refl s.fault
  case tick => exact tickSubStep_raises c s
  all_goals exact .refl _

theorem exec_kept {i : Instr} {s t : State} (h : exec i s = .next t) : s.fault.Kept t.fault :=
  exec_induction (P := fun t => s.fault.Kept t.fault) h (.illegal _) (.ctx _)
    fun _ _ => (perform_raises Config.cfg i s).kept

/-! ## What one context leaves of the other (10_state R31, 60_exceptions R406) -/

/-- What a step of the control context leaves alone. -/
def State.ControlKeeps (s t : State) : Prop :=
  s.SameAudio t ∧ t.portA = s.portA ∧ t.draws = s.draws ∧ t.fault.nonfinite = s.fault.nonfinite ∧
    t.fault.guard = s.fault.guard

/-- What a step of the audio context leaves alone. -/
def State.AudioKeeps (s t : State) : Prop := t.portC = s.portC ∧ t.resC = s.resC

theorem State.AudioKeeps.refl (s : State) : s.AudioKeeps s := ⟨rfl, rfl⟩

theorem perform_controlKeeps (c : Cfg) {i : Instr} (s : State) (h : i.context = .control) :
    s.ControlKeeps (perform c i s) := by
  rcases (context_control_iff i).1 h with ⟨p, rfl⟩ | rfl
  · simp [State.ControlKeeps, State.SameAudio, perform, chPwr]
  · simp [State.ControlKeeps, State.SameAudio, perform, chSrdOp_eq]

theorem oscProc_audioKeeps (c : Cfg) (idx : U8) (pitch p1 p2 p3 : F32) (s : State) :
    s.AudioKeeps (oscProc c idx pitch p1 p2 p3 s).2 := by
  obtain ⟨ph, u, b, d, h⟩ := oscProc_state c idx pitch p1 p2 p3 s
  rw [h]
  exact ⟨rfl, rfl⟩

theorem bqStep_audioKeeps (c : Cfg) (x : F32) (s : State) : s.AudioKeeps (bqStep c x s).2 := by
  obtain ⟨bq, b, h⟩ := bqStep_state c x s
  rw [(h s rfl rfl).2]
  exact ⟨rfl, rfl⟩

theorem vProc_audioKeeps (c : Cfg) (s : State) : s.AudioKeeps (vProc c s).2 := by
  obtain ⟨ph, u, lvl, act, rv, pl, b, d, h⟩ := vProc_state c s
  rw [h]
  exact ⟨rfl, rfl⟩

theorem vSetalg_audioKeeps (c : Cfg) (idx : U8) (s : State) : s.AudioKeeps (vSetalg c idx s) := by
  obtain ⟨ph, u, -, h⟩ := vSetalg_eq c idx s
  rw [h]
  exact ⟨rfl, rfl⟩

theorem tickBody_audioKeeps (c : Cfg) (s : State) : s.AudioKeeps (tickBody c s) := by
  obtain ⟨sn, u, lvl, act, rv, pl, sq, b, g, d, block, -, -, h⟩ := tickBody_state c s
  obtain ⟨ph, u', lvl', act', hcontrol, -⟩ := tickControl_state c s
  rw [h, hcontrol]
  exact ⟨rfl, rfl⟩

theorem tickSubStep_audioKeeps (c : Cfg) (s : State) : s.AudioKeeps (tickSubStep c s) := by
  unfold tickSubStep
  cases s.tickPhase with
  | first => exact .refl _
  | body => exact tickBody_audioKeeps c s
  | publish => exact .refl _

theorem perform_audioKeeps (c : Cfg) {i : Instr} (s : State) (h : i.context = .audio) :
    s.AudioKeeps (perform c i s) := by
  cases i
  case chPwr => cases h
  case chSrd => cases h
  case oscProc idx pitch p1 p2 p3 => exact oscProc_audioKeeps c idx pitch p1 p2 p3 s
  case bqStep x => exact bqStep_audioKeeps c x s
  case vProc => exact vProc_audioKeeps c s
  case vSetalg idx => exact vSetalg_audioKeeps c idx s
  case tick => exact tickSubStep_audioKeeps c s
  all_goals exact .refl _

theorem exec_controlKeeps {i : Instr} {s t : State} (hturn : s.inputs.turn = .control)
    (h : exec i s = .next t) : s.ControlKeeps t := by
  refine exec_induction h ?_ ?_ fun _ hport => perform_controlKeeps _ s (hport.symm.trans hturn)
  · simp [State.ControlKeeps, State.SameAudio]
  · simp [State.ControlKeeps, State.SameAudio]

theorem exec_audioKeeps {i : Instr} {s t : State} (hturn : s.inputs.turn = .audio)
    (h : exec i s = .next t) : s.AudioKeeps t :=
  exec_induction h (.refl _) (.refl _) fun _ hport => perform_audioKeeps _ s (hport.symm.trans hturn)

end Sys2Proof.Machine

namespace Sys2Proof.Proofs

open Sys2Proof Sys2Proof.Machine Sys2Proof.Laws

/-- Settles O5: the two branches of an atomic step. -/
theorem stepRunsTheDecodedOperation : Obligations.StepRunsTheDecodedOperation := by
  unfold Obligations.StepRunsTheDecodedOperation
  refine ⟨fun s i rest hreset hphase hop => ?_, fun s => step_of_tick⟩
  rw [step_of_fetch hreset hphase, fetchAndRun_of_op hop]

/-- Settles O6: a port without a whole head decodes to a wait. -/
theorem incompleteOperationWaits : Obligations.IncompleteOperationWaits := by
  unfold Obligations.IncompleteOperationWaits
  intro s hreset hphase hport
  have hwait : decodeOp (s.port s.inputs.turn) = .incomplete := by
    rcases hport with hempty | ⟨h, tail, hhead, hshort⟩
    · rw [hempty]; rfl
    · rw [hhead]; exact decodeOp_short hshort
  rw [step_of_fetch hreset hphase, fetchAndRun_of_incomplete hwait, mapNext_next]

/-- Settles O7: a head that passed R116's tests would be an operation with the header's opcode and `sel`, a
zero third byte, as many operands as words taken, and legal; each of the four faults contradicts one of these. -/
theorem illegalOperationOnlySetsItsFlag : Obligations.IllegalOperationOnlySetsItsFlag := by
  unfold Obligations.IllegalOperationOnlySetsItsFlag
  intro s h operands rest hreset hphase hport hlen hfault
  have hhead : decodeOp (s.port s.inputs.turn) = classify h operands rest := by
    rw [hport]; exact decodeOp_whole rest hlen
  obtain ⟨why, hillegal⟩ | ⟨i, hop⟩ := classify_cases h operands rest
  · rw [step_of_fetch hreset hphase, fetchAndRun_of_illegal (hhead.trans hillegal), mapNext_next,
      State.flagIllegal, State.setPort_fault]
  · obtain ⟨-, hlegal, hopcode, hsel, hzero, hwords⟩ := fields_of_classify hlen hop
    exfalso
    rcases hfault with hnone | hreserved | ⟨j, hj, hcount⟩ | hrange
    · exact hnone i hopcode
    · exact hreserved hzero
    · obtain ⟨-, ⟨r, hrow, hnops, -⟩, -⟩ := header_statement i
      obtain ⟨-, ⟨r', hrow', hnops', -⟩, -⟩ := header_statement j
      rw [hj, ← headerOpcode, ← hopcode, hrow] at hrow'
      cases hrow'
      exact hcount (hnops'.symm.trans (hnops.trans (congrArg _ hwords)))
    · rw [hrange i hopcode hsel] at hlegal
      cases hlegal

/-- Settles O8: the rights by R115's column, the two refusals in R397's order, and at a step the refusal of the
operation that `decodeEncodeRoundTrip` finds at the head. -/
theorem wrongPortOnlySetsItsFlag : Obligations.WrongPortOnlySetsItsFlag := by
  unfold Obligations.WrongPortOnlySetsItsFlag
  refine ⟨context_control_iff, fun i s => exec_wrong_port, fun i s => exec_illegal, ?step⟩
  intro i s rest hlegal hreset hphase hwrong hport
  have hop : decodeOp (s.port s.inputs.turn) = .op i rest := by
    rw [hport]; exact decodeEncodeRoundTrip i rest hlegal
  have hwrong' : (s.setPort s.inputs.turn rest).inputs.turn ≠ i.context := by
    rwa [State.setPort_inputs]
  rw [step_of_fetch hreset hphase, fetchAndRun_of_op hop, exec_wrong_port hlegal hwrong', mapNext_next,
    State.flagCtx, State.setPort_fault]

/-- Settles O9: every operation answers a next state (`exec_next`), so every branch of a step does. -/
theorem noOperationTraps : Obligations.NoOperationTraps := by
  unfold Obligations.NoOperationTraps
  refine ⟨exec_next, fun s => ?_⟩
  cases hreset : s.inputs.resetIn with
  | true => exact ⟨_, step_of_reset hreset⟩
  | false =>
    by_cases hbusy : s.inputs.turn = .audio ∧ s.tickPhase ≠ .first
    · obtain ⟨t, ht⟩ := exec_next .tick s
      exact ⟨_, (step_of_tick hreset hbusy.1 hbusy.2).trans (congrArg _ ht)⟩
    · have hphase : s.inputs.turn = .audio → s.tickPhase = .first := fun h => by
        by_contra hne; exact hbusy ⟨h, hne⟩
      obtain ⟨t, ht⟩ := fetchAndRun_next s
      exact ⟨_, (step_of_fetch hreset hphase).trans (congrArg _ ht)⟩

/-- Settles O10: an operation's refusals set a flag and its effect raises or keeps the other two
(`exec_kept`); the other branches of a step but reset are no operation or set `fault.illegal`. -/
theorem flagsStaySet : Obligations.FlagsStaySet := by
  unfold Obligations.FlagsStaySet
  refine ⟨fun i s t => exec_kept, fun s t hreset hstep => ?_⟩
  obtain ⟨u, rfl, hatomic⟩ := step_of_released hreset hstep
  rw [State.nextInputs_fault]
  obtain ⟨-, -, htick⟩ | ⟨-, ⟨-, rfl⟩ | ⟨why, rest, -, rfl⟩ | ⟨i, rest, -, hexec⟩⟩ := hatomic
  · exact exec_kept htick
  · exact (StickyFlags.Raised.refl _).kept
  · simpa using StickyFlags.Kept.illegal s.fault
  · simpa using exec_kept hexec

/-- Settles O11: a control step performs CH.PWR, CH.SRD or nothing, and an audio operation writes neither the
control port nor its result port. -/
theorem contextsShareOnlyTheChannels : Obligations.ContextsShareOnlyTheChannels := by
  unfold Obligations.ContextsShareOnlyTheChannels
  refine ⟨fun s t hreset hturn hstep => ?control, fun s t hreset hturn hstep => ?audio⟩
  case control =>
    obtain ⟨u, rfl, hatomic⟩ := step_of_released hreset hstep
    have hkeeps : s.ControlKeeps u := by
      obtain ⟨haudio, -, -⟩ | ⟨-, ⟨-, rfl⟩ | ⟨why, rest, -, rfl⟩ | ⟨i, rest, -, hexec⟩⟩ := hatomic
      · rw [hturn] at haudio; cases haudio
      · simp [State.ControlKeeps, State.SameAudio]
      · simp [State.ControlKeeps, State.SameAudio, hturn]
      · rw [hturn] at hexec
        simpa [State.ControlKeeps, State.SameAudio] using exec_controlKeeps (by simpa using hturn) hexec
    obtain ⟨hsame, hport, hdraws, hnonfinite, hguard⟩ := hkeeps
    exact ⟨hsame, by rw [State.nextInputs_portA, hport, hdraws], hnonfinite, hguard⟩
  case audio =>
    obtain ⟨u, rfl, hatomic⟩ := step_of_released hreset hstep
    have hkeeps : s.AudioKeeps u := by
      obtain ⟨-, -, htick⟩ | ⟨-, ⟨-, rfl⟩ | ⟨why, rest, -, rfl⟩ | ⟨i, rest, -, hexec⟩⟩ := hatomic
      · exact exec_audioKeeps hturn htick
      · exact .refl _
      · simp [State.AudioKeeps, hturn]
      · rw [hturn] at hexec
        simpa [State.AudioKeeps] using exec_audioKeeps (by simpa using hturn) hexec
    exact ⟨hkeeps.2, _, congrArg (· ++ _) hkeeps.1⟩

/-- Settles O14: the state under reset is built from the inputs alone, so each of its fields is read off. -/
theorem resetStepForgetsTheRun : Obligations.ResetStepForgetsTheRun := by
  unfold Obligations.ResetStepForgetsTheRun
  intro s hreset
  refine ⟨_, step_of_reset hreset, ?registers, rfl, rfl, rfl, rfl, rfl, rfl, rfl, rfl, rfl, rfl, ?portA, ?portC⟩
  case registers =>
    rintro r rfl
    exact ⟨rfl, rfl, rfl, rfl, rfl, rfl, rfl, rfl, rfl, rfl⟩
  case portA => exact List.nil_append _
  case portC => exact List.nil_append _

end Sys2Proof.Proofs
end

section
/-! SUPPORT. The invariants of 10_state R47 and R37 and the NaN-free registers of 47_laws_and_absent_families
R361: one lemma per unit operation that it keeps them, composed along the voice chain and the tick, and the
four statements about them. -/

namespace Sys2Proof.Machine

/-! ## I-PHASE, I-PREV, I-ENV and I-VOICE, by the unit that is written -/

theorem inPhase_zero : inPhase fZero := by decide

theorem unitRange_zero : unitRange fZero := by decide

theorem unitRange_half : unitRange fHalf := by decide

theorem unitRange_one : unitRange fOne := by decide

section
variable {c : Cfg} {s : State}

/-- Result words are no register. -/
theorem answering_inv {α : Type} {words : α → List Word} {r : α × State} (hr : r.2.Inv c) :
    (answering words r).Inv c :=
  hr

variable (h : s.Inv c)
include h

/-- The invariants speak of these registers alone. -/
theorem State.Inv.of_same {t : State} (hsin : t.sin = s.sin) (hfm : t.fm = s.fm) (henv : t.env = s.env)
    (hv : t.v = s.v) (hsq : t.t.sqPhase = s.t.sqPhase) : t.Inv c := by
  unfold State.Inv State.PhaseInv State.PrevInv State.EnvInv State.VoiceInv at *
  rwa [hsin, hfm, henv, hv, hsq]

theorem State.Inv.withSin {u : SineUnit} (h0 : inPhase u.phase0) (h1 : inPhase u.phase1) :
    { s with sin := u }.Inv c := by
  obtain ⟨⟨-, -, hfm⟩, hrest⟩ := h
  exact ⟨⟨h0, h1, hfm⟩, hrest⟩

theorem State.Inv.withFm {u : FmUnit} (hcphase : inPhase u.cphase) (hmphase : inPhase u.mphase)
    (hprev : inSignal u.prev) : { s with fm := u }.Inv c := by
  obtain ⟨⟨hph0, hph1, -, -, hsq⟩, -, hrest⟩ := h
  exact ⟨⟨hph0, hph1, hcphase, hmphase, hsq⟩, hprev, hrest⟩

theorem State.Inv.withEnv {e : EnvelopeUnit} (hlevel : unitRange e.level) (hatk : unitRange e.atk)
    (hrel : unitRange e.rel) (hgate : e.gate = true → e.active = true) : { s with env := e }.Inv c := by
  obtain ⟨hphase, hprev, -, hvoice⟩ := h
  exact ⟨hphase, hprev, ⟨hlevel, hatk, hrel, hgate⟩, hvoice⟩

/-- The voice registers replaced by legal values (R39). -/
theorem State.Inv.withVoice {v : VoiceRegs} (hv : { s with v := v }.VoiceInv c) :
    { s with v := v }.Inv c := by
  obtain ⟨hphase, hprev, henv, -⟩ := h
  exact ⟨hphase, hprev, henv, hv⟩

theorem State.Inv.withSqPhase {x : F32} (hx : inPhase x) :
    { s with t := { s.t with sqPhase := x } }.Inv c := by
  obtain ⟨⟨hph0, hph1, hcph, hmph, -⟩, hrest⟩ := h
  exact ⟨⟨hph0, hph1, hcph, hmph, hx⟩, hrest⟩

/-! ## Generators -/

theorem setPhase_inv (i : U8) {x : F32} (hx : inPhase x) : { s with sin := s.sin.setPhase i x }.Inv c := by
  have hphase := h.1
  obtain ⟨hph0, hph1, -⟩ := hphase
  unfold SineUnit.setPhase
  split
  · exact h.withSin hx hph1
  · exact h.withSin hph0 hx

theorem sinReset_inv (i : U8) : (sinReset i s).Inv c := setPhase_inv h i inPhase_zero

theorem sinStep_inv (i : U8) (freq : F32) : (sinStep c i freq s).2.Inv c :=
  (setPhase_inv h i (advance_inPhase c (s.sin.phase i) freq)).of_same rfl rfl rfl rfl rfl

theorem fmReset_inv : (fmReset s).Inv c :=
  h.withFm inPhase_zero inPhase_zero (unitRange_signal unitRange_zero)

theorem fmStep_inv (fbfm : Bool) (pitch p1 p2 p3 : F32) : (fmStep c fbfm pitch p1 p2 p3 s).2.Inv c := by
  obtain ⟨⟨-, -, hcphase, -⟩, -⟩ := id h
  exact (h.withFm (u := fmNext c fbfm s.fm pitch p1 p2) (advance_inPhase _ _ _) (advance_inPhase _ _ _)
    (fmSamples_signal c p1 hcphase).1).of_same rfl rfl rfl rfl rfl

theorem oscReset_inv : (oscReset s).Inv c := fmReset_inv (sinReset_inv h 0)

theorem oscProc_inv (idx : U8) (pitch p1 p2 p3 : F32) : (oscProc c idx pitch p1 p2 p3 s).2.Inv c := by
  unfold oscProc
  split
  · exact sinStep_inv h 0 pitch
  · split
    · exact fmStep_inv h false pitch p1 p2 p3
    · exact fmStep_inv h true pitch p1 p2 p3
    · exact h.of_same rfl rfl rfl rfl rfl

/-! ## The biquad, which the invariants of R47 do not speak of -/

theorem bqStep_inv (x : F32) : (bqStep c x s).2.Inv c := by
  obtain ⟨bq, b, hstep⟩ := bqStep_state c x s
  rw [(hstep s rfl rfl).2]
  exact h.of_same rfl rfl rfl rfl rfl

/-! ## The envelope -/

theorem envReset_inv : (envReset s).Inv c := by
  obtain ⟨-, -, ⟨-, hatk, hrel, -⟩, -⟩ := id h
  exact h.withEnv unitRange_zero hatk hrel Bool.noConfusion

theorem envGate_inv (g : Bool) : (envGate g s).Inv c := by
  obtain ⟨-, -, ⟨hlevel, hatk, hrel, -⟩, -⟩ := id h
  exact h.withEnv hlevel hatk hrel fun hg => by simp only [show g = true from hg, Bool.true_or]

theorem envSeta_inv (a : F32) : (envSeta a s).Inv c := by
  obtain ⟨-, -, ⟨hlevel, -, hrel, hgate⟩, -⟩ := id h
  exact h.withEnv hlevel (clamp01_range a) hrel hgate

theorem envSetr_inv (r : F32) : (envSetr r s).Inv c := by
  obtain ⟨-, -, ⟨hlevel, hatk, -, hgate⟩, -⟩ := id h
  exact h.withEnv hlevel hatk (clamp01_range r) hgate

theorem envStep_inv : (envStep c s).2.Inv c := by
  obtain ⟨-, -, ⟨-, hatk, hrel, -⟩, -⟩ := id h
  exact h.withEnv (clamp01_range _) hatk hrel fun hg => by
    simp only [show s.env.gate = true from hg, Bool.true_or]

/-! ## The voice -/

theorem vSetalg_inv (idx : U8) : (vSetalg c idx s).Inv c := by
  unfold vSetalg
  split
  next hswitch =>
    obtain ⟨-, -, -, hfreq, hnyq, -, hrest⟩ := id h
    exact oscReset_inv (h.withVoice ⟨hfreq, hnyq, hswitch.1, hrest⟩)
  next => exact h

theorem vSetp1_inv (x : F32) : (vSetp1 x s).Inv c := by
  obtain ⟨-, -, -, hfreq, hnyq, halg, -, hrest⟩ := id h
  exact h.withVoice ⟨hfreq, hnyq, halg, clamp01_range x, hrest⟩

theorem vSetp2_inv (x : F32) : (vSetp2 x s).Inv c := by
  obtain ⟨-, -, -, hfreq, hnyq, halg, hp1, -, hrest⟩ := id h
  exact h.withVoice ⟨hfreq, hnyq, halg, hp1, clamp01_range x, hrest⟩

theorem vSetwf_inv (x : F32) : (vSetwf x s).Inv c := by
  obtain ⟨-, -, -, hfreq, hnyq, halg, hp1, hp2, hp3, -, hrest⟩ := id h
  exact h.withVoice ⟨hfreq, hnyq, halg, hp1, hp2, hp3, clamp01_range x, hrest⟩

theorem vSetmg_inv (x : F32) : (vSetmg x s).Inv c := by
  obtain ⟨-, -, -, hfreq, hnyq, halg, hp1, hp2, hp3, hwf, -, hrest⟩ := id h
  exact h.withVoice ⟨hfreq, hnyq, halg, hp1, hp2, hp3, hwf, clamp01_range x, hrest⟩

theorem vSetrvs_inv (x : F32) : (vSetrvs x s).Inv c := by
  obtain ⟨-, -, -, hfreq, hnyq, halg, hp1, hp2, hp3, hwf, hmg, hvel, -, hlevel⟩ := id h
  exact h.withVoice ⟨hfreq, hnyq, halg, hp1, hp2, hp3, hwf, hmg, hvel, clamp01_range x, hlevel⟩

theorem vSetrvl_inv (x : F32) : (vSetrvl x s).Inv c := by
  obtain ⟨-, -, -, hfreq, hnyq, halg, hp1, hp2, hp3, hwf, hmg, hvel, hsize, -⟩ := id h
  exact h.withVoice ⟨hfreq, hnyq, halg, hp1, hp2, hp3, hwf, hmg, hvel, hsize, clamp01_range x⟩

/-- NYQ is at least 0.0, so the clamp to [0, NYQ] answers a legal frequency. -/
theorem vSetfreq_inv (x : F32) : (vSetfreq c x s).Inv c := by
  obtain ⟨-, -, -, -, -, hrest⟩ := id h
  obtain ⟨hfreq, hnyq⟩ := clamp_range (x := x) (nyq_nonneg c)
  exact h.withVoice ⟨hfreq, hnyq, hrest⟩

theorem vNoteon_inv (freq velocity : F32) : (vNoteon c freq velocity s).Inv c := by
  obtain ⟨-, -, -, -, -, halg, hp1, hp2, hp3, hwf, hmg, -, hrest⟩ := id h
  obtain ⟨hfreq, hnyq⟩ := clamp_range (x := freq) (nyq_nonneg c)
  have hvoice := h.withVoice (v := { s.v with
      freq := clamp freq fZero c.nyq, vel := clamp01 velocity, gate := true, playing := true })
    ⟨hfreq, hnyq, halg, hp1, hp2, hp3, hwf, hmg, clamp01_range velocity, hrest⟩
  have hreset := envReset_inv (oscReset_inv hvoice)
  exact envGate_inv (s := { envReset (oscReset _) with rev := ⟨c.reverb.reset, c.reverb.reset⟩ })
    (hreset.of_same rfl rfl rfl rfl rfl) true

theorem vNoteoff_inv : (vNoteoff s).Inv c := by
  obtain ⟨-, -, -, hvoice⟩ := id h
  exact envGate_inv (h.withVoice (v := { s.v with gate := false }) hvoice) false

theorem voiceFolded_inv : (voiceFolded c s).2.Inv c :=
  (oscProc_inv h s.v.alg s.v.freq (usedParam (c.algInfo s.v.alg).p1Unused s.v.p1)
    (usedParam (c.algInfo s.v.alg).p2Unused s.v.p2) s.v.p3).of_same rfl rfl rfl rfl rfl

theorem autoStop_inv (l r : F32) : (autoStop c l r s).Inv c := by
  obtain ⟨-, -, -, hvoice⟩ := id h
  exact h.withVoice hvoice

theorem voiceFrame_inv : (voiceFrame c s).2.Inv c := by
  have henv := envStep_inv (voiceFolded_inv h)
  exact autoStop_inv (s := { (envStep c (voiceFolded c s).2).2 with rev := _ })
    (henv.of_same rfl rfl rfl rfl rfl) _ _

theorem vProc_inv : (vProc c s).2.Inv c := by
  unfold vProc
  split
  · exact voiceFrame_inv h
  · exact h

/-! ## The tick -/

theorem algChange_inv : (algChange s).Inv c := by
  unfold algChange
  split
  · obtain ⟨⟨hph0, -⟩, -⟩ := id h
    exact ((h.withSin (u := { s.sin with phase1 := fZero }) hph0 inPhase_zero).withSqPhase
      inPhase_zero).of_same rfl rfl rfl rfl rfl
  · exact h

theorem pushSetters_inv (p1e p2e freq : F32) : (pushSetters c p1e p2e freq s).Inv c :=
  vSetfreq_inv (vSetmg_inv (vSetrvl_inv (vSetrvs_inv (envSetr_inv (envSeta_inv (vSetp2_inv (vSetp1_inv
    (vSetalg_inv h _) _) _) _) _) _) _) _) _

theorem gateEdges_inv (gate : Bool) (freq : F32) : (gateEdges c gate freq s).Inv c := by
  rw [gateEdges_state]
  refine State.Inv.of_same (s := if gate && !s.t.lastGate then vNoteon c freq c.velocityDefault s
    else if !gate && s.t.lastGate then vNoteoff s else s) ?_ rfl rfl rfl rfl ?_
  · split
    · exact vNoteon_inv h freq c.velocityDefault
    · split
      · exact vNoteoff_inv h
      · exact h
  · split
    · rfl
    · split <;> rfl

theorem tickControl_inv : (tickControl c s).Inv c :=
  gateEdges_inv (pushSetters_inv (bqStep_inv (algChange_inv h) _) _ _ _) _ _

theorem selftestFrame_inv : (selftestFrame c s).2.Inv c :=
  (h.withSqPhase (advance_inPhase c s.t.sqPhase c.selftestHz)).of_same rfl rfl rfl rfl rfl

theorem tickFrame_inv : (tickFrame c s).2.Inv c := by
  unfold tickFrame
  split
  · exact selftestFrame_inv h
  · split
    · exact sinStep_inv h 1 s.v.freq
    · exact (vProc_inv h).of_same rfl rfl rfl rfl rfl

theorem tickBody_inv : (tickBody c s).Inv c :=
  (tickFrames_keeps c (·.Inv c) (fun _ => tickFrame_inv) c.blockFrames _ (tickControl_inv h)).of_same
    rfl rfl rfl rfl rfl

theorem tickSubStep_inv : (tickSubStep c s).Inv c := by
  unfold tickSubStep
  cases s.tickPhase with
  | first => exact h.of_same rfl rfl rfl rfl rfl
  | body => exact tickBody_inv h
  | publish => exact h.of_same rfl rfl rfl rfl rfl

/-- Every operation keeps the invariants, whatever its operands. -/
theorem perform_inv (i : Instr) : (perform c i s).Inv c := by
  cases i with
  | sinReset sel => exact sinReset_inv h sel
  | sinStep sel freq => exact answering_inv (sinStep_inv h sel freq)
  | oscReset => exact oscReset_inv h
  | oscProc idx pitch p1 p2 p3 => exact answering_inv (oscProc_inv h idx pitch p1 p2 p3)
  | fmReset => exact fmReset_inv h
  | fmStep var pitch p1 p2 p3 => exact answering_inv (fmStep_inv h (selBool var) pitch p1 p2 p3)
  | wfFold amt x => exact h.of_same rfl rfl rfl rfl rfl
  | bqReset => exact h.of_same rfl rfl rfl rfl rfl
  | bqSetc k value => exact h.of_same rfl rfl rfl rfl rfl
  | bqStep x => exact answering_inv (bqStep_inv h x)
  | envReset => exact envReset_inv h
  | envGate g => exact envGate_inv h (selBool g)
  | envSeta a => exact envSeta_inv h a
  | envSetr r => exact envSetr_inv h r
  | envStep => exact answering_inv (envStep_inv h)
  | vNoteon freq velocity => exact vNoteon_inv h freq velocity
  | vNoteoff => exact vNoteoff_inv h
  | vProc => exact answering_inv (vProc_inv h)
  | vIsplay => exact h.of_same rfl rfl rfl rfl rfl
  | vSetalg idx => exact vSetalg_inv h idx
  | vSetp1 value => exact vSetp1_inv h value
  | vSetp2 value => exact vSetp2_inv h value
  | vSetwf value => exact vSetwf_inv h value
  | vSetatk value => exact envSeta_inv h value
  | vSetrel value => exact envSetr_inv h value
  | vSetrvs value => exact vSetrvs_inv h value
  | vSetrvl value => exact vSetrvl_inv h value
  | vSetmg value => exact vSetmg_inv h value
  | vSetfreq freq => exact vSetfreq_inv h freq
  | chPwr snap => exact h.of_same rfl rfl rfl rfl rfl
  | chPrd => exact h.of_same rfl rfl rfl rfl rfl
  | chSwr audioOk underruns => exact h.of_same rfl rfl rfl rfl rfl
  | chSrd => exact h.of_same rfl rfl rfl rfl rfl
  | tick => exact tickSubStep_inv h

theorem execUnder_inv {i : Instr} {t : State} (hexec : execUnder c i s = .next t) : t.Inv c :=
  execUnder_induction hexec (h.of_same rfl rfl rfl rfl rfl) (h.of_same rfl rfl rfl rfl rfl)
    fun _ _ => perform_inv h i

end

theorem resetWith_inv (c : Cfg) (inp : Inputs) (n : Nat) : (State.resetWith c inp n).Inv c := by
  refine ⟨⟨inPhase_zero, inPhase_zero, inPhase_zero, inPhase_zero, inPhase_zero⟩,
    unitRange_signal unitRange_zero, ⟨unitRange_zero, unitRange_zero, unitRange_zero, Bool.noConfusion⟩,
    ?voice⟩
  have hfreq : fle fZero fZero = true := by decide
  exact ⟨hfreq, nyq_nonneg c, c.nAlg_range.1, unitRange_half, unitRange_half, rfl, unitRange_zero,
    unitRange_one, unitRange_zero, unitRange_zero, unitRange_zero⟩

theorem setPort_inv {c : Cfg} {s : State} (h : s.Inv c) (ctx : Context) (ws : List Word) :
    (s.setPort ctx ws).Inv c :=
  h.of_same (by simp) (by simp) (by simp) (by simp) (by simp)

theorem stepUnder_inv {c : Cfg} {s t : State} (h : s.Inv c) (hstep : stepUnder c s = .next t) : t.Inv c := by
  obtain ⟨-, rfl⟩ | ⟨-, u, rfl, ⟨-, -, htick⟩ | ⟨-, ⟨-, rfl⟩ | ⟨why, rest, -, rfl⟩ | ⟨i, rest, -, hexec⟩⟩⟩ :=
    stepWith_cases hstep
  · exact (resetWith_inv c s.inputs s.draws).of_same rfl rfl rfl rfl rfl
  · exact (execUnder_inv h htick).of_same rfl rfl rfl rfl rfl
  · exact h.of_same rfl rfl rfl rfl rfl
  · exact (setPort_inv h s.inputs.turn rest).of_same rfl rfl rfl rfl rfl
  · exact (execUnder_inv (setPort_inv h _ _) hexec).of_same rfl rfl rfl rfl rfl

/-! ## I-BQ (R37): a finite result has finite operands -/

theorem not_finite_iff {a : F32} : isFinite a = false ↔ isNaN a = true ∨ isInf a = true := by
  simp only [isFinite, isNaN, isInf, decide_eq_true_eq, decide_eq_false_iff_not]
  omega

theorem not_finite_fpack_inf (b : Bool) : isFinite (fpack b 0x7F800000) = false := by
  cases b <;> decide

theorem isInf_operand (n : Arithmetic) {a : F32} (h : isInf a = true) : isInf (n.operand a) = true := by
  rw [operand_keeps n (.inr (by simp only [isInf, decide_eq_true_eq] at h; omega))]
  exact h

/-- An operation that answers no finite datum to an infinite operand answers a finite datum to finite
operands only. -/
theorem complete_finite_operands (n : Arithmetic) (op : ArithOp) {f : F32 → F32 → Option F32} {a b : F32}
    (hf : ∀ x y r, (isInf x || isInf y) = true → f x y = some r → isFinite r = false)
    (h : isFinite (n.complete op f a b) = true) : isFinite a = true ∧ isFinite b = true := by
  have hnan := (not_finite_of_quietNaN (n.nan_quiet op a b)).2
  unfold Arithmetic.complete at h
  split at h
  next => rw [hnan] at h; cases h
  next hdata =>
    rw [Bool.or_eq_true, not_or, Bool.not_eq_true, Bool.not_eq_true] at hdata
    by_contra hinf
    have hinf : (isInf (n.operand a) || isInf (n.operand b)) = true := by
      rw [Classical.not_and_iff_not_or_not, Bool.not_eq_true, Bool.not_eq_true, not_finite_iff,
        not_finite_iff, hdata.1, hdata.2] at hinf
      simp only [Bool.false_eq_true, false_or] at hinf
      rw [Bool.or_eq_true]
      exact hinf.imp (isInf_operand n) (isInf_operand n)
    cases hr : f (n.operand a) (n.operand b) with
    | none => rw [hr, Option.getD_none, hnan] at h; cases h
    | some r => rw [hr, Option.getD_some, hf _ _ r hinf hr] at h; cases h

theorem sum?_of_inf (n : Arithmetic) {a b r : F32} (h : (isInf a || isInf b) = true)
    (hr : n.sum? a b = some r) : isFinite r = false := by
  unfold Arithmetic.sum? at hr
  split at hr
  next ha =>
    split at hr <;> cases hr
    exact not_finite_iff.2 (.inr ha)
  next ha =>
    rw [Bool.eq_false_iff.2 ha, Bool.false_or] at h
    rw [if_pos h] at hr
    cases hr
    exact not_finite_iff.2 (.inr h)

theorem isInf_fneg (a : F32) : isInf (fneg a) = isInf a := by
  simp only [isInf, fmag_fneg]

theorem product?_of_inf (n : Arithmetic) {a b r : F32} (h : (isInf a || isInf b) = true)
    (hr : n.product? a b = some r) : isFinite r = false := by
  unfold Arithmetic.product? at hr
  rw [if_pos h] at hr
  split at hr <;> cases hr
  exact not_finite_fpack_inf _

theorem fadd_finite_operands (c : Cfg) {a b : F32} (h : isFinite (c.num.fadd a b) = true) :
    isFinite a = true ∧ isFinite b = true := by
  obtain ⟨n, -, hn⟩ := c.num.fadd_rounds a b
  rw [hn] at h
  exact complete_finite_operands n .add (fun _ _ _ => sum?_of_inf n) h

theorem fsub_finite_operands (c : Cfg) {a b : F32} (h : isFinite (c.num.fsub a b) = true) :
    isFinite a = true ∧ isFinite b = true := by
  obtain ⟨n, -, hn⟩ := c.num.fsub_rounds a b
  rw [hn] at h
  exact complete_finite_operands n .sub (fun x y _ hinf => sum?_of_inf n (by rwa [isInf_fneg])) h

theorem fmul_finite_operands (c : Cfg) {a b : F32} (h : isFinite (c.num.fmul a b) = true) :
    isFinite a = true ∧ isFinite b = true := by
  obtain ⟨n, -, hn⟩ := c.num.fmul_rounds a b
  rw [hn] at h
  exact complete_finite_operands n .mul (fun _ _ _ => product?_of_inf n) h

/-- The first term of a finite sum is finite, and so is the operand in it. -/
theorem operand_of_bqAcc_finite {c : Cfg} {u : BiquadUnit} {x : F32} (h : isFinite (bqAcc c u x) = true) :
    isFinite x = true :=
  (fmul_finite_operands c (fadd_finite_operands c (fadd_finite_operands c (fsub_finite_operands c
    (fsub_finite_operands c h).1).1).1).1).2

theorem cleared_delaysFinite (u : BiquadUnit) : u.cleared.DelaysFinite := by
  have hzero : isFinite fZero = true := by decide
  exact ⟨hzero, hzero, hzero, hzero⟩

theorem setCoef_delaysFinite {u : BiquadUnit} (h : u.DelaysFinite) (k : U8) (value : F32) :
    (u.setCoef k value).DelaysFinite := by
  unfold BiquadUnit.setCoef
  split <;> exact h

theorem bqStep_of_not_finite {c : Cfg} {x : F32} {s : State} (h : isFinite (bqAcc c s.bq x) = false) :
    bqStep c x s = (fZero, { s with bq := s.bq.cleared }.flagNonfinite true) :=
  if_pos h

theorem bqStep_of_finite {c : Cfg} {x : F32} {s : State} (h : isFinite (bqAcc c s.bq x) = true) :
    bqStep c x s = (bqAcc c s.bq x,
      { s with bq := { s.bq with x2 := s.bq.x1, x1 := x, y2 := s.bq.y1, y1 := bqAcc c s.bq x } }) :=
  if_neg (ne_of_eq_of_ne h (by decide))

theorem bqStep_delaysFinite (c : Cfg) (x : F32) {s : State} (h : s.bq.DelaysFinite) :
    (bqStep c x s).2.bq.DelaysFinite := by
  by_cases hfinite : isFinite (bqAcc c s.bq x) = false
  · rw [bqStep_of_not_finite hfinite]
    exact cleared_delaysFinite s.bq
  · rw [Bool.not_eq_false] at hfinite
    rw [bqStep_of_finite hfinite]
    obtain ⟨hx1, -, hy1, -⟩ := h
    exact ⟨operand_of_bqAcc_finite hfinite, hx1, hfinite, hy1⟩

/-- The dispatcher and the voice write no biquad register. -/
theorem oscProc_bq (c : Cfg) (idx : U8) (pitch p1 p2 p3 : F32) (s : State) :
    (oscProc c idx pitch p1 p2 p3 s).2.bq = s.bq := by
  obtain ⟨ph, u, b, d, h⟩ := oscProc_state c idx pitch p1 p2 p3 s
  rw [h]

theorem vProc_bq (c : Cfg) (s : State) : (vProc c s).2.bq = s.bq := by
  obtain ⟨ph, u, lvl, act, rv, pl, b, d, h⟩ := vProc_state c s
  rw [h]

theorem vSetalg_bq (c : Cfg) (idx : U8) (s : State) : (vSetalg c idx s).bq = s.bq := by
  obtain ⟨ph, u, -, h⟩ := vSetalg_eq c idx s
  rw [h]

/-- TICK's one use of the biquad is the pitch smoother (46 R349). -/
theorem tickBody_bq (c : Cfg) (s : State) : (tickBody c s).bq = (bqStep c (pitchBlend c s.t.cur) s).2.bq := by
  obtain ⟨sn, u, lvl, act, rv, pl, sq, b, g, d, block, -, -, h⟩ := tickBody_state c s
  obtain ⟨ph, u', lvl', act', hcontrol, -⟩ := tickControl_state c s
  rw [h, hcontrol]
  rfl

theorem tickSubStep_delaysFinite (c : Cfg) {s : State} (h : s.bq.DelaysFinite) :
    (tickSubStep c s).bq.DelaysFinite := by
  unfold tickSubStep
  cases s.tickPhase with
  | first => exact h
  | body => exact (tickBody_bq c s).symm ▸ bqStep_delaysFinite c _ h
  | publish => exact h

theorem perform_delaysFinite (c : Cfg) (i : Instr) {s : State} (h : s.bq.DelaysFinite) :
    (perform c i s).bq.DelaysFinite := by
  cases i
  case bqReset => exact cleared_delaysFinite s.bq
  case bqSetc k value => exact setCoef_delaysFinite h k value
  case bqStep x => exact bqStep_delaysFinite c x h
  case oscProc idx pitch p1 p2 p3 => exact (oscProc_bq c idx pitch p1 p2 p3 s).symm ▸ h
  case vProc => exact (vProc_bq c s).symm ▸ h
  case vSetalg idx => exact (vSetalg_bq c idx s).symm ▸ h
  case tick => exact tickSubStep_delaysFinite c h
  all_goals exact h

theorem exec_delaysFinite {i : Instr} {s t : State} (h : s.bq.DelaysFinite) (hexec : exec i s = .next t) :
    t.bq.DelaysFinite :=
  exec_induction (P := fun t => t.bq.DelaysFinite) hexec h h fun _ _ => perform_delaysFinite _ i h

theorem resetWith_delaysFinite (c : Cfg) (inp : Inputs) (n : Nat) :
    (State.resetWith c inp n).bq.DelaysFinite :=
  cleared_delaysFinite (State.resetWith c inp n).bq

theorem step_delaysFinite {s t : State} (h : s.bq.DelaysFinite) (hstep : step s = .next t) :
    t.bq.DelaysFinite := by
  obtain ⟨-, rfl⟩ | ⟨-, u, rfl, ⟨-, -, htick⟩ | ⟨-, ⟨-, rfl⟩ | ⟨why, rest, -, rfl⟩ | ⟨i, rest, -, hexec⟩⟩⟩ :=
    step_cases hstep
  · exact resetWith_delaysFinite Config.cfg s.inputs s.draws
  all_goals rw [State.nextInputs_bq]
  · exact exec_delaysFinite h htick
  · exact h
  · simpa using h
  · exact exec_delaysFinite (by simpa using h) hexec

/-! ## The registers that hold no NaN (47_laws_and_absent_families R361) -/

theorem not_nan_of_nonneg {a : F32} (h : fle fZero a = true) : isNaN a = false := (fle_not_nan h).2

theorem ownRegisters_not_nan {c : Cfg} {s : State} (h : s.Inv c) (hbq : s.bq.DelaysFinite) :
    ∀ a ∈ s.ownRegisters, isNaN a = false := by
  obtain ⟨⟨hph0, hph1, hcphase, hmphase, hsq⟩, hprev, ⟨hlevel, hatk, hrel, -⟩, hfreq, -, -, hp1, hp2, hp3, hwf,
    hmg, hvel, hsize, hrvlevel⟩ := h
  obtain ⟨hx1, hx2, hy1, hy2⟩ := hbq
  have hhalf : isNaN s.v.p3 = false := hp3 ▸ not_nan_of_nonneg unitRange_half.1
  have hsignal : isNaN s.fm.prev = false := isNaN_of_isFinite (inSignal_finite hprev)
  simp only [State.ownRegisters, List.forall_mem_cons]
  exact ⟨not_nan_of_nonneg hph0.1, not_nan_of_nonneg hph1.1, not_nan_of_nonneg hcphase.1,
    not_nan_of_nonneg hmphase.1, hsignal, isNaN_of_isFinite hx1, isNaN_of_isFinite hx2, isNaN_of_isFinite hy1,
    isNaN_of_isFinite hy2, not_nan_of_nonneg hlevel.1, not_nan_of_nonneg hatk.1, not_nan_of_nonneg hrel.1,
    not_nan_of_nonneg hfreq, not_nan_of_nonneg hp1.1, not_nan_of_nonneg hp2.1, hhalf,
    not_nan_of_nonneg hwf.1, not_nan_of_nonneg hmg.1, not_nan_of_nonneg hvel.1, not_nan_of_nonneg hsize.1,
    not_nan_of_nonneg hrvlevel.1, not_nan_of_nonneg hsq.1, List.forall_mem_nil _⟩

end Sys2Proof.Machine

namespace Sys2Proof.Proofs

open Sys2Proof Sys2Proof.Machine

/-- Settles O58: a step is a reset, which leaves the invariants (`resetWith_inv`), or keeps the registers they
speak of, or performs an operation, which keeps them (`perform_inv`). -/
theorem invariantKeptByEveryStep : Obligations.InvariantKeptByEveryStep := by
  unfold Obligations.InvariantKeptByEveryStep
  refine ⟨fun s t h hstep => ?_, fun c s t => stepUnder_inv⟩
  rw [step_eq_stepUnder] at hstep
  exact stepUnder_inv h hstep

/-- Settles O60: R62's values are legal under every configuration, the machine's at `State.reset` among them. -/
theorem invariantHoldsAtReset : Obligations.InvariantHoldsAtReset := by
  unfold Obligations.InvariantHoldsAtReset
  exact ⟨resetWith_inv, resetWith_inv Config.cfg (Config.inputs 0) 1⟩

/-- Settles O31: BQ.STEP stores its operand only beside a finite sum, which it could not be with an operand
that is not finite (`operand_of_bqAcc_finite`); every other write of a delay is 0.0. -/
theorem bqDelaysStayFinite : Obligations.BqDelaysStayFinite := by
  unfold Obligations.BqDelaysStayFinite
  exact ⟨resetWith_delaysFinite, fun s t => step_delaysFinite⟩

/-- Settles O59: what O58 and O31 keep bounds every register R361 speaks of; on a NaN operand the arithmetic
answers its quiet pattern. -/
theorem onlyVerbatimRegistersHoldNaNs : Obligations.OnlyVerbatimRegistersHoldNaNs := by
  unfold Obligations.OnlyVerbatimRegistersHoldNaNs
  refine ⟨fun s t h hbq hstep => ?_, fun c inp n => ?_, fun n a b hnan => ?_⟩
  · exact ownRegisters_not_nan (invariantKeptByEveryStep.1 s t h hstep) (step_delaysFinite hbq hstep)
  · exact ownRegisters_not_nan (resetWith_inv c inp n) (resetWith_delaysFinite c inp n)
  · exact n.nan_of_nan (Bool.or_eq_true _ _ ▸ hnan)

end Sys2Proof.Proofs
end

section
/-! SUPPORT. The value of a datum (00_scope R12): its order, the datum of a significand and an exponent, what
rounding to nearest leaves of a value, and the two statements that turn on exact values: FLOOR and the
immediate envelope (44_envelope_follower R256). -/

namespace Sys2Proof.Machine

/-! ## The order of finite data is that of their values -/

theorem funits_le_iff {a b : F32} : funits a ≤ funits b ↔ fmag a ≤ fmag b := by
  refine ⟨fun h => ?_, funits_le_of_fmag_le⟩
  have hmono := roundedMag_mono .nearestEven false 1 (num := funits a * 1) (num' := funits b * 1) (by omega)
  rwa [roundedMag_funits _ _ _ (by decide), roundedMag_funits _ _ _ (by decide)] at hmono

theorem funits_zero : funits fZero = 0 := by decide

theorem funits_one : funits fOne = 2 ^ 149 := by decide

theorem funits_eq_zero_iff {a : F32} : funits a = 0 ↔ fmag a = 0 := by
  have hle := funits_le_iff (a := a) (b := fZero)
  have hmag : fmag fZero = 0 := by decide
  rw [funits_zero, hmag] at hle
  omega

theorem fle_iff_fvalue {a b : F32} (ha : isFinite a = true) (hb : isFinite b = true) :
    fle a b = true ↔ fvalue a ≤ fvalue b := by
  have hab := funits_le_iff (a := a) (b := b)
  have hba := funits_le_iff (a := b) (b := a)
  have hzero := funits_eq_zero_iff (a := a)
  have hzero' := funits_eq_zero_iff (a := b)
  rw [fle_iff]
  simp only [isNaN_of_isFinite ha, isNaN_of_isFinite hb, true_and, fkey, fvalue]
  split <;> split <;> omega

/-! ## The datum of a significand and an exponent -/

/-- A magnitude of exponent `e` and significand `m` in units of the last place, `m` at most one past the
largest: its value is `m * 2^e`. -/
theorem funits_of_mag {a : F32} {e m : Nat} (h : fmag a = e * 2 ^ 23 + m) (hm : m ≤ 2 ^ 24)
    (he : 0 < e → 2 ^ 23 ≤ m) : funits a = m * 2 ^ e := by
  have hparts := fmag_eq a
  have hfrac : ffrac a < 2 ^ 23 := Nat.mod_lt _ (by decide)
  unfold funits
  by_cases hcarry : m = 2 ^ 24
  · obtain ⟨hexp, hzero⟩ : fexp a = e + 2 ∧ ffrac a = 0 := by omega
    rw [if_neg (by omega), hexp, hzero, hcarry, show e + 2 - 1 = e + 1 by omega, pow_succ]
    omega
  · by_cases hsub : m < 2 ^ 23
    · obtain ⟨hexp, hm'⟩ : fexp a = 0 ∧ ffrac a = m := by omega
      rw [if_pos hexp, hm', show e = 0 by omega, pow_zero, Nat.mul_one]
    · obtain ⟨hexp, hm'⟩ : fexp a = e + 1 ∧ 2 ^ 23 + ffrac a = m := by omega
      rw [if_neg (by omega), hexp, hm', Nat.add_sub_cancel]

/-- Every integer of magnitude below 2^24, times 2^149 units, is the value of a datum of either sign. -/
theorem exists_integral (s : Bool) {k : Nat} (hpos : 0 < k) (hk : k < 2 ^ 24) :
    ∃ d : F32, isFinite d = true ∧ fsign d = s ∧ funits d = k * 2 ^ 149 := by
  have hlog : k.log2 ≤ 23 := Nat.lt_succ_iff.1 ((Nat.log2_lt (by omega)).2 hk)
  have hlo : 2 ^ k.log2 ≤ k := Nat.log2_self_le (by omega)
  have hhi : k < 2 ^ (k.log2 + 1) := Nat.lt_log2_self
  generalize k.log2 = e at hlog hlo hhi
  have hscale : 2 ^ e * 2 ^ (23 - e) = 2 ^ 23 := by rw [← pow_add]; congr 1; omega
  have hm : 2 ^ 23 ≤ k * 2 ^ (23 - e) := hscale.symm.le.trans (Nat.mul_le_mul_right _ hlo)
  have hm' : k * 2 ^ (23 - e) < 2 ^ 24 := by
    have := Nat.mul_lt_mul_of_pos_right hhi (show 0 < 2 ^ (23 - e) by positivity)
    rw [pow_succ, Nat.mul_right_comm, hscale] at this
    omega
  have hmag : (e + 126) * 2 ^ 23 + k * 2 ^ (23 - e) < 0x7F800000 := by omega
  have hd := fmag_fpack s (m := (e + 126) * 2 ^ 23 + k * 2 ^ (23 - e)) (by omega)
  refine ⟨fpack s ((e + 126) * 2 ^ 23 + k * 2 ^ (23 - e)), ?_, fsign_fpack s (by omega), ?_⟩
  · simp only [isFinite, hd, hmag, decide_true]
  · rw [funits_of_mag hd hm'.le fun _ => hm, Nat.mul_assoc, ← pow_add]
    congr 2
    omega

/-! ## FLOOR (R12) -/

theorem fvalue_natAbs (a : F32) : (fvalue a).natAbs = funits a := by
  unfold fvalue; split <;> omega

theorem ffloor_of_large {a : F32} (h : 150 ≤ fexp a) : ffloor a = a := if_pos h

theorem ffloor_of_zero {a : F32} (h : fmag a = 0) : ffloor a = a := by
  have hzero : isZero a = true := decide_eq_true h
  simp only [ffloor, hzero, if_true, ite_self]

/-- A datum of large exponent is integral. -/
theorem fvalue_of_large {a : F32} (h : 150 ≤ fexp a) : fvalue a % 2 ^ 149 = 0 := by
  have hunits : (2 ^ 149 : Int) ∣ funits a := by
    have : 2 ^ 149 ∣ funits a := by
      unfold funits
      rw [if_neg (by omega)]
      exact Dvd.dvd.mul_left (pow_dvd_pow 2 (by omega)) _
    exact_mod_cast this
  unfold fvalue
  split
  · exact Int.emod_eq_zero_of_dvd ((Int.dvd_neg).2 hunits)
  · exact Int.emod_eq_zero_of_dvd hunits

/-- A datum of small exponent is below 2^23 in magnitude. -/
theorem funits_of_small {a : F32} (h : fexp a < 150) : funits a < 2 ^ 23 * 2 ^ 149 := by
  have hfrac : ffrac a < 2 ^ 23 := Nat.mod_lt _ (by decide)
  unfold funits
  split
  · omega
  · have hscale : 2 ^ (fexp a - 1) ≤ 2 ^ 148 := Nat.pow_le_pow_right (by decide) (by omega)
    calc (2 ^ 23 + ffrac a) * 2 ^ (fexp a - 1) ≤ (2 ^ 23 + ffrac a) * 2 ^ 148 := Nat.mul_le_mul_left _ hscale
      _ < 2 ^ 23 * 2 ^ 149 := by omega

/-- The value of FLOOR is the exact floor of the value, in multiples of 2^149 units. -/
theorem fvalue_ffloor (a : F32) :
    fvalue (ffloor a) = fvalue a / 2 ^ 149 * 2 ^ 149 := by
  by_cases hlarge : 150 ≤ fexp a
  · rw [ffloor_of_large hlarge]
    have := fvalue_of_large hlarge
    omega
  by_cases hzero : fmag a = 0
  · have hvalue : fvalue a = 0 := by
      rw [← Int.natAbs_eq_zero, fvalue_natAbs]; exact funits_eq_zero_iff.2 hzero
    rw [ffloor_of_zero hzero, hvalue]
    decide
  have hfloor : ffloor a = if fvalue a / 2 ^ 149 = 0 then fZero
      else roundPack .nearestEven .kept (decide (fvalue a / 2 ^ 149 < 0))
        ((fvalue a / 2 ^ 149).natAbs * 2 ^ 149) 1 := by
    simp only [ffloor, if_neg hlarge, isZero, decide_eq_true_eq, if_neg hzero]
  have hsmall := funits_of_small (not_le.1 hlarge)
  rw [← fvalue_natAbs] at hsmall
  have hbound : (fvalue a / 2 ^ 149).natAbs < 2 ^ 24 := by omega
  rw [hfloor]
  generalize fvalue a / 2 ^ 149 = n at hbound
  split
  next hn => rw [hn]; decide
  next hn =>
    obtain ⟨d, hfinite, hsign, hunits⟩ := exists_integral (decide (n < 0)) (k := n.natAbs) (by omega) hbound
    have hround := roundPack_self .nearestEven (f := .kept) (den := 1) (by decide) hfinite (.inl rfl)
    rw [hsign, hunits, Nat.mul_one] at hround
    rw [hround, fvalue, hsign, hunits]
    split
    next hneg => rw [decide_eq_true_eq] at hneg; omega
    next hneg => rw [decide_eq_true_eq] at hneg; omega

theorem ffloor_of_not_finite {a : F32} (h : isFinite a = false) : ffloor a = a := by
  have hmag := fmag_eq a
  have hfrac : ffrac a < 2 ^ 23 := Nat.mod_lt _ (by decide)
  rw [isFinite, decide_eq_false_iff_not] at h
  exact ffloor_of_large (by omega)

/-! ## Arithmetic that keeps subnormals -/

theorem funits_fneg (a : F32) : funits (fneg a) = funits a :=
  le_antisymm (funits_le_of_fmag_le (fmag_fneg a).le) (funits_le_of_fmag_le (fmag_fneg a).ge)

theorem fvalue_fneg (a : F32) : fvalue (fneg a) = -fvalue a := by
  rw [fvalue, fvalue, fsign_fneg, funits_fneg]
  cases fsign a <;> simp

theorem fadd_of_keeps {n : Arithmetic} (hn : n.KeepsSubnormals) {a b : F32} (ha : isFinite a = true)
    (hb : isFinite b = true) :
    n.fadd a b = if fvalue a + fvalue b = 0 then n.zeroSum (fsign a) (fsign b)
      else roundPack n.rounding .kept (decide (fvalue a + fvalue b < 0)) (fvalue a + fvalue b).natAbs 1 := by
  rw [Arithmetic.fadd, Arithmetic.complete, isNaN_of_isFinite ha, isNaN_of_isFinite hb, Bool.or_self,
    if_neg Bool.false_ne_true, operand_keeps n (.inl hn.1), operand_keeps n (.inl hn.1), sum?_eq n ha hb, hn.2,
    ← apply_ite some, Option.getD_some]

theorem fsub_of_keeps {n : Arithmetic} (hn : n.KeepsSubnormals) {a b : F32} (ha : isFinite a = true)
    (hb : isFinite b = true) : n.fsub a b = n.fadd a (fneg b) := by
  have hb' := isFinite_fneg hb
  obtain ⟨r, hr, -⟩ := sum?_not_nan n ha hb'
  simp only [Arithmetic.fsub, Arithmetic.fadd, Arithmetic.complete, isNaN_of_isFinite ha,
    isNaN_of_isFinite hb, isNaN_of_isFinite hb', operand_keeps n (.inl hn.1), hr, Option.getD_some,
    Bool.or_self, Bool.false_eq_true, if_false]

/-- A finite product does not depend on the order of its factors. -/
theorem fmul_comm_of_finite (n : Arithmetic) {a b : F32} (ha : isFinite a = true) (hb : isFinite b = true) :
    n.fmul a b = n.fmul b a := by
  have ha' := n.operand_finite ha
  have hb' := n.operand_finite hb
  rw [fmul_eq n ha hb, fmul_eq n hb ha, n.product?_finite ha' hb', n.product?_finite hb' ha', Option.getD_some,
    Option.getD_some, Bool.or_comm, bne_comm, Nat.mul_comm]

theorem one_fmul {n : Arithmetic} (hn : n.KeepsSubnormals) {a : F32} (ha : isFinite a = true) :
    n.fmul fOne a = a :=
  (fmul_comm_of_finite n (by decide) ha).trans (fmul_one n ha (.inl hn))

theorem zeroSum_mag (n : Arithmetic) (sa sb : Bool) : fmag (n.zeroSum sa sb) = 0 :=
  fmag_fpack _ (by decide)

theorem zeroSum_finite (n : Arithmetic) (sa sb : Bool) : isFinite (n.zeroSum sa sb) = true := by
  rw [isFinite, zeroSum_mag]; decide

theorem fvalue_of_mag_zero {a : F32} (h : fmag a = 0) : fvalue a = 0 := by
  rw [← Int.natAbs_eq_zero, fvalue_natAbs]
  exact funits_eq_zero_iff.2 h

/-! ## Rounding to nearest -/

/-- The rounded significand: one more than the integer part only where the remainder is at least half. -/
theorem nearest_significand (s : Bool) (m r d : Nat) :
    ∃ up, (m + if roundsUp .nearestEven s m r d then 1 else 0) = m + up ∧
      (up = 0 ∧ 2 * r ≤ d ∨ up = 1 ∧ d ≤ 2 * r) := by
  refine ⟨_, rfl, ?_⟩
  simp only [roundsUp, Bool.or_eq_true, Bool.and_eq_true, decide_eq_true_eq]
  split <;> omega

/-- A magnitude below 1.0, rounded to nearest, is off by at most half of the last place of the binade below
1.0, which is 2^125 units. -/
theorem roundPack_nearest (s : Bool) {q : Nat} (hq : q < 2 ^ 149) :
    funits (roundPack .nearestEven .kept s q 1) ≤ q + 2 ^ 124 ∧
      q ≤ funits (roundPack .nearestEven .kept s q 1) + 2 ^ 124 := by
  obtain ⟨hm, hm'⟩ := lastPlace_spec q
  have hplace : lastPlace q ≤ 125 := (lastPlace_mono (show q ≤ 2 ^ 149 - 1 by omega)).trans (by decide)
  have hscale : 2 ^ lastPlace q ≤ 2 ^ 125 := Nat.pow_le_pow_right (by decide) hplace
  have hsplit := Nat.div_add_mod' q (2 ^ lastPlace q)
  obtain ⟨up, hup, hhalf⟩ :=
    nearest_significand s (q / 2 ^ lastPlace q) (q % 2 ^ lastPlace q) (2 ^ lastPlace q)
  have hround : roundPack .nearestEven .kept s q 1 =
      fpack s (lastPlace q * 2 ^ 23 + (q / 2 ^ lastPlace q + up)) := by
    simp only [roundPack, roundedMag, Nat.div_one, Nat.one_mul, hup, finishRound, Subnormals.replaces,
      Bool.false_eq_true, if_false]
    exact if_neg (by omega)
  have hunits := funits_of_mag (fmag_fpack s (m := lastPlace q * 2 ^ 23 + (q / 2 ^ lastPlace q + up))
    (by omega)) (by omega) (by omega)
  rw [hround, hunits, Nat.add_mul]
  obtain ⟨rfl, hle⟩ | ⟨rfl, hle⟩ := hhalf <;> omega

/-- 1.0, exactly representable, is the result of what rounds from it by less than half a place. -/
theorem roundPack_near_one {q : Nat} (hlo : 2 ^ 149 ≤ q + 2 ^ 124) (hhi : q ≤ 2 ^ 149 + 2 ^ 124) :
    roundPack .nearestEven .kept false q 1 = fOne := by
  have hmag : roundedMag .nearestEven false q 1 = 0x3F800000 := by
    by_cases habove : 2 ^ 149 ≤ q
    · have hplace : lastPlace q = 126 := le_antisymm
        ((lastPlace_mono (show q ≤ 2 ^ 150 - 1 by omega)).trans (by decide))
        ((show 126 ≤ lastPlace (2 ^ 149) by decide).trans (lastPlace_mono habove))
      simp only [roundedMag, Nat.div_one, Nat.one_mul, hplace]
      obtain ⟨up, hup, hhalf⟩ := nearest_significand false (q / 2 ^ 126) (q % 2 ^ 126) (2 ^ 126)
      rw [hup]
      omega
    · have hplace : lastPlace q = 125 := le_antisymm
        ((lastPlace_mono (show q ≤ 2 ^ 149 - 1 by omega)).trans (by decide))
        ((show 125 ≤ lastPlace (2 ^ 148) by decide).trans (lastPlace_mono (by omega)))
      have hup : roundsUp .nearestEven false (q / 2 ^ 125) (q % 2 ^ 125) (2 ^ 125) = true := by
        simp only [roundsUp, Bool.or_eq_true, Bool.and_eq_true, decide_eq_true_eq]
        omega
      simp only [roundedMag, Nat.div_one, Nat.one_mul, hplace, hup, if_true]
      omega
  have hone : finishRound .nearestEven .kept false false 0x3F800000 = fOne := by decide
  rw [roundPack, hmag]
  exact hone

theorem roundPack_unitRange (mode : Rounding) (f : Subnormals) {q : Nat} (hq : q ≤ 2 ^ 149) :
    unitRange (roundPack mode f false q 1) := by
  have hmag := (roundPack_mag_le mode f false q 1).trans
    (roundedMag_le mode false fOne (den := 1) (by decide) (by rw [funits_one]; omega))
  exact ⟨fle_zero_iff.2 ⟨roundPack_not_nan _ _ _ _ _, roundPack_sign _ _ _ _ _⟩,
    fle_of_mag (roundPack_not_nan _ _ _ _ _) (by decide) hmag⟩

/-! ## The immediate envelope (44_envelope_follower R256) -/

theorem envLevel_high (c : Cfg) {e : EnvelopeUnit} (h : e.gate = true) :
    envLevel c e = clamp01 (c.num.fadd e.level (c.num.fmul (c.envCoef e.atk) (c.num.fsub fOne e.level))) := by
  simp only [envLevel, h, if_true, clamp01]

theorem envLevel_low (c : Cfg) {e : EnvelopeUnit} (h : e.gate = false) :
    envLevel c e = clamp01 (c.num.fadd e.level (c.num.fmul (c.envCoef e.rel) (c.num.fsub fZero e.level))) := by
  simp only [envLevel, h, Bool.false_eq_true, if_false, clamp01]

theorem fvalue_of_nonneg {a : F32} (h : fle fZero a = true) : fvalue a = funits a := by
  rcases (fle_zero_iff.1 h).2 with hsign | hzero
  · rw [fvalue, hsign]; rfl
  · rw [fvalue_of_mag_zero hzero, funits_eq_zero_iff.2 hzero]; rfl

/-- The value of a level is not negative and at most that of 1.0. -/
theorem unitRange_fvalue {a : F32} (h : unitRange a) : fvalue a = funits a ∧ funits a ≤ 2 ^ 149 := by
  obtain ⟨hnonneg, hle⟩ := h
  refine ⟨fvalue_of_nonneg hnonneg, ?_⟩
  rw [← funits_one]
  exact funits_le_of_fmag_le (mag_of_fle hnonneg hle)

section
variable {n : Arithmetic} (hn : n.KeepsSubnormals) {x : F32} (hx : unitRange x)
include hn hx

/-- The distance to 1.0 is a level again, off by at most 2^124 units. -/
theorem fsub_from_one (hround : n.rounding = .nearestEven) :
    unitRange (n.fsub fOne x) ∧ funits x + funits (n.fsub fOne x) ≤ 2 ^ 149 + 2 ^ 124 ∧
      2 ^ 149 ≤ funits x + funits (n.fsub fOne x) + 2 ^ 124 := by
  have hxf := inSignal_finite (unitRange_signal hx)
  obtain ⟨hvalue, hle⟩ := unitRange_fvalue hx
  have hone : fvalue fOne = 2 ^ 149 := by decide
  rw [fsub_of_keeps hn (by decide) hxf, fadd_of_keeps hn (by decide) (isFinite_fneg hxf), fvalue_fneg, hvalue,
    hone, hround]
  by_cases hfull : funits x = 2 ^ 149
  · have hmag := zeroSum_mag n (fsign fOne) (fsign (fneg x))
    rw [if_pos (by omega), funits_eq_zero_iff.2 hmag]
    exact ⟨⟨fle_zero_iff.2 ⟨zeroSum_not_nan _ _ _, .inr hmag⟩,
      fle_of_mag (zeroSum_not_nan _ _ _) (by decide) (by omega)⟩, by omega, by omega⟩
  · have hdistance : ((2 ^ 149 : Int) + -(funits x : Int)).natAbs = 2 ^ 149 - funits x := by omega
    rw [if_neg (by omega), decide_eq_false (by omega), hdistance]
    refine ⟨roundPack_unitRange _ _ (by omega), ?_⟩
    by_cases hempty : funits x = 0
    · rw [hempty, roundPack_near_one (by omega) (by omega), funits_one]
      omega
    · have hnear := roundPack_nearest false (q := 2 ^ 149 - funits x) (by omega)
      omega

/-- The whole distance to 1.0, added, answers 1.0 under round to nearest even: 2^124 units are a quarter of a
place above 1.0, and half of one, tied to even, below it. -/
theorem fadd_distance_to_one (hround : n.rounding = .nearestEven) :
    n.fadd x (n.fmul fOne (n.fsub fOne x)) = fOne := by
  have hxf := inSignal_finite (unitRange_signal hx)
  obtain ⟨hdistance, hhi, hlo⟩ := fsub_from_one hn hx hround
  have hdf := inSignal_finite (unitRange_signal hdistance)
  have hsum : fvalue x + fvalue (n.fsub fOne x) = (funits x + funits (n.fsub fOne x) : Nat) := by
    rw [(unitRange_fvalue hx).1, (unitRange_fvalue hdistance).1]; rfl
  rw [one_fmul hn hdf, fadd_of_keeps hn hxf hdf, hsum, if_neg (by omega), hround, decide_eq_false (by omega),
    Int.natAbs_natCast]
  exact roundPack_near_one hlo hhi

/-- The distance to 0.0 is exact. -/
theorem fsub_from_zero : isFinite (n.fsub fZero x) = true ∧ fvalue (n.fsub fZero x) = -fvalue x := by
  have hxf := inSignal_finite (unitRange_signal hx)
  obtain ⟨hvalue, -⟩ := unitRange_fvalue hx
  have hzero : fvalue fZero = 0 := by decide
  rw [fsub_of_keeps hn (by decide) hxf, fadd_of_keeps hn (by decide) (isFinite_fneg hxf), hzero, Int.zero_add]
  by_cases hempty : fvalue (fneg x) = 0
  · have hmag := zeroSum_mag n (fsign fZero) (fsign (fneg x))
    rw [if_pos hempty, fvalue_of_mag_zero hmag, ← fvalue_fneg, hempty]
    exact ⟨zeroSum_finite _ _ _, rfl⟩
  · have hsign : decide (fvalue (fneg x) < 0) = fsign (fneg x) := by
      rw [fvalue_fneg, hvalue] at hempty ⊢
      have hxs : fsign x = false := (fle_zero_iff.1 hx.1).2.resolve_right fun h => hempty (by
        rw [funits_eq_zero_iff.2 h]; rfl)
      rw [fsign_fneg, hxs, Bool.not_false, decide_eq_true_eq]
      omega
    have hexact := roundPack_self n.rounding (f := .kept) (den := 1) (by decide) (isFinite_fneg hxf) (.inl rfl)
    rw [Nat.mul_one] at hexact
    rw [if_neg hempty, hsign, fvalue_natAbs, hexact, fvalue_fneg]
    exact ⟨isFinite_fneg hxf, rfl⟩

/-- So the whole distance to 0.0, added, leaves a zero. -/
theorem fadd_distance_to_zero : fmag (n.fadd x (n.fmul fOne (n.fsub fZero x))) = 0 := by
  have hxf := inSignal_finite (unitRange_signal hx)
  obtain ⟨hdf, hdistance⟩ := fsub_from_zero hn hx
  rw [one_fmul hn hdf, fadd_of_keeps hn hxf hdf, hdistance, if_pos (by omega)]
  exact zeroSum_mag _ _ _

end

end Sys2Proof.Machine

namespace Sys2Proof.Proofs

open Sys2Proof Sys2Proof.Machine

/-- Settles O16: FLOOR's value is the exact floor of the value (`fvalue_ffloor`), and the order of finite data
is that of their values. -/
theorem floorIsTheLargestIntegralBelow : Obligations.FloorIsTheLargestIntegralBelow := by
  unfold Obligations.FloorIsTheLargestIntegralBelow
  intro a
  refine ⟨fun ha => ?_, ffloor_of_not_finite⟩
  have hfinite := ffloor_finite ha
  have hvalue := fvalue_ffloor a
  refine ⟨hfinite, ?integral, ?below, fun b hb hintegral hle => ?largest⟩
  case integral => omega
  case below => rw [fle_iff_fvalue hfinite ha]; omega
  case largest =>
    rw [fle_iff_fvalue hb ha] at hle
    rw [fle_iff_fvalue hb hfinite]
    omega

/-- Settles O36: a setting of 0.0 has the coefficient 1.0 (R7), so the step adds the whole distance to the
target: `fadd_distance_to_one` and `fadd_distance_to_zero`. -/
theorem immediateEnvelopeReachesItsTarget : Obligations.ImmediateEnvelopeReachesItsTarget := by
  unfold Obligations.ImmediateEnvelopeReachesItsTarget
  rintro c a e ⟨hadd, hsub, hmul, -⟩ hround hkeeps hlevel
  have hcoef : c.envCoef fZero = fOne := c.envCoef_immediate fZero (by decide)
  refine ⟨fun hgate hatk => ?high, fun hgate hrel => ?low⟩
  case high =>
    rw [envLevel_high c hgate, hatk, hcoef, hadd, hsub, hmul, fadd_distance_to_one hkeeps hlevel hround]
    decide
  case low =>
    rw [envLevel_low c hgate, hrel, hcoef, hadd, hsub, hmul]
    have hzero := fadd_distance_to_zero hkeeps hlevel
    generalize a.fadd e.level (a.fmul fOne (a.fsub fZero e.level)) = x at hzero
    rw [← fpack_self x, hzero]
    cases fsign x <;> decide

end Sys2Proof.Proofs
end

section
/-! SUPPORT. The remaps (00_scope R16), the dispatcher and the FM modulator (40_sine_osc R156 to R159,
41_fm_modulator R182 to R185) and the bounds of the wavefolder (42_wavefolder R213): one equation per generator
the dispatcher selects, the first FM sample after a reset, and the eight statements about them. -/

namespace Sys2Proof.Machine

/-! ## The exponential remap (R16) -/

section
variable {c : Cfg} {lo hi : F32} (hlo : posFinite lo) (hhi : isFinite hi = true) (hle : fle lo hi = true)
include hlo hhi hle

theorem one_le_quotient (hq : isNaN (c.num.fdiv hi lo) = false) : fle fOne (c.num.fdiv hi lo) = true := by
  obtain ⟨n, -, hn⟩ := c.num.fdiv_rounds hi lo
  rw [hn] at hq ⊢
  exact one_le_fdiv n hlo hhi hle hq

theorem expmap_one (hq : isNaN (c.num.fdiv hi lo) = false) :
    expmap c fOne lo hi = c.num.fmul lo (c.num.fdiv hi lo) := by
  have hcontrol : clamp01 fOne = fOne := by decide
  rw [expmap, hcontrol, c.num.pow_one _ (one_le_quotient hlo hhi hle hq)]

end

/-- The lower end is seen as it is: it is a normal number, or the arithmetic keeps subnormals (log 2). -/
def SeenAsItIs (c : Cfg) (lo : F32) : Prop :=
  2 ^ 23 ≤ fmag lo ∨ ∃ a : Arithmetic, c.num.Follows a ∧ a.KeepsSubnormals

/-- Products with such an end are roundings that do not flush it, all in one direction. -/
theorem SeenAsItIs.fmul {c : Cfg} {lo : F32} (h : SeenAsItIs c lo) :
    ∃ mode, ∀ b, ∃ n : Arithmetic, n.rounding = mode ∧ (n.KeepsSubnormals ∨ 2 ^ 23 ≤ fmag lo) ∧
      c.num.fmul lo b = n.fmul lo b := by
  rcases h with hnormal | ⟨a, ⟨-, -, hmul, -⟩, hkeeps⟩
  · refine ⟨c.num.rounding, fun b => ?_⟩
    obtain ⟨n, hmode, hn⟩ := c.num.fmul_rounds lo b
    exact ⟨n, hmode, .inr hnormal, hn⟩
  · exact ⟨a.rounding, fun b => ⟨a, rfl, .inl hkeeps, by rw [hmul]⟩⟩

theorem SeenAsItIs.quotient {c : Cfg} {lo hi : F32} (h : SeenAsItIs c lo) (hlo : posFinite lo)
    (hhi : isFinite hi = true) : isNaN (c.num.fdiv hi lo) = false := by
  rcases h with hnormal | ⟨a, ⟨-, -, -, hdiv⟩, hkeeps⟩
  · obtain ⟨n, -, hn⟩ := c.num.fdiv_rounds hi lo
    rw [hn]
    exact fdiv_not_nan n hlo hhi (operand_keeps n (.inr hnormal))
  · rw [hdiv]
    exact fdiv_not_nan a hlo hhi (operand_keeps a (.inl hkeeps.1))

section
variable {c : Cfg} {lo : F32} (h : SeenAsItIs c lo) (hlo : posFinite lo)
include h hlo

theorem SeenAsItIs.fmul_one : c.num.fmul lo fOne = lo := by
  obtain ⟨mode, hfmul⟩ := h.fmul
  obtain ⟨n, -, hkeeps, hn⟩ := hfmul fOne
  exact hn.trans (Machine.fmul_one n hlo.1 (hkeeps.imp_right .inr))

/-- The product with a factor of at least 1.0 grows with the factor. -/
theorem SeenAsItIs.fmul_mono {x y : F32} (hx : fle fOne x = true) (hxy : fle x y = true) :
    fle (c.num.fmul lo x) (c.num.fmul lo y) = true := by
  obtain ⟨mode, hfmul⟩ := h.fmul
  obtain ⟨n, hmode, hn, hnx⟩ := hfmul x
  obtain ⟨m, hmode', hm, hmy⟩ := hfmul y
  rw [hnx, hmy]
  exact fmul_mono_of_one_le n m (hmode.trans hmode'.symm) hlo hn hm hx hxy

variable {hi : F32} (hhi : isFinite hi = true) (hle : fle lo hi = true)
include hhi hle

theorem SeenAsItIs.expmap_zero : expmap c fZero lo hi = lo := by
  have hcontrol : clamp01 fZero = fZero := by decide
  rw [expmap, hcontrol, c.num.pow_zero _ (one_le_quotient hlo hhi hle (h.quotient hlo hhi)), h.fmul_one hlo]

theorem SeenAsItIs.expmap_range (p : F32) :
    fle lo (expmap c p lo hi) = true ∧ fle (expmap c p lo hi) (c.num.fmul lo (c.num.fdiv hi lo)) = true := by
  have hone := one_le_quotient hlo hhi hle (h.quotient hlo hhi)
  obtain ⟨hcontrol, hcontrol'⟩ := clamp01_range p
  obtain ⟨hpow, hpow'⟩ := c.num.pow_range _ _ hone hcontrol hcontrol'
  refine ⟨?_, h.fmul_mono hlo hpow hpow'⟩
  have hlower := h.fmul_mono hlo (show fle fOne fOne = true by decide) hpow
  rwa [h.fmul_one hlo] at hlower

end

/-! ## The dispatcher (40_sine_osc R157), by what the index selects -/

theorem encode_oscReset : encode .oscReset = [0x18000000#32] := by decide

theorem encode_fmReset : encode .fmReset = [0x20000000#32] := by decide

theorem encode_oscProc (idx : U8) (pitch p1 p2 p3 : F32) :
    encode (.oscProc idx pitch p1 p2 p3) = [0x19#8 ++ idx ++ 0x00#8 ++ 0x04#8, pitch, p1, p2, p3] := rfl

theorem encode_fmStep (var : U8) (pitch p1 p2 p3 : F32) :
    encode (.fmStep var pitch p1 p2 p3) = [0x21#8 ++ var ++ 0x00#8 ++ 0x04#8, pitch, p1, p2, p3] := rfl

section
variable {c : Cfg} {idx : U8} (pitch p1 p2 p3 : F32) (s : State)

theorem oscProc_of_fallback (h : c.nAlg ≤ idx.toNat) : oscProc c idx pitch p1 p2 p3 s =
    (((sinStep c 0 pitch s).1, (sinStep c 0 pitch s).1), (sinStep c 0 pitch s).2) :=
  if_pos h

theorem oscProc_of_modfm (h : ¬ c.nAlg ≤ idx.toNat) (hmap : c.algMap idx = .modfm) :
    oscProc c idx pitch p1 p2 p3 s = fmStep c false pitch p1 p2 p3 s := by
  rw [oscProc, if_neg h, hmap]

theorem oscProc_of_fbfm (h : ¬ c.nAlg ≤ idx.toNat) (hmap : c.algMap idx = .fbfm) :
    oscProc c idx pitch p1 p2 p3 s = fmStep c true pitch p1 p2 p3 s := by
  rw [oscProc, if_neg h, hmap]

theorem oscProc_of_external (h : ¬ c.nAlg ≤ idx.toNat) (hmap : c.algMap idx = .external) :
    oscProc c idx pitch p1 p2 p3 s = externalPair s := by
  rw [oscProc, if_neg h, hmap]

/-- The sample of the phase before the step, twice, and the phase advanced. -/
theorem oscProcOp_of_fallback (h : c.nAlg ≤ idx.toNat) : oscProcOp c idx pitch p1 p2 p3 s = { s with
    sin := { s.sin with phase0 := advance c s.sin.phase0 pitch }
    fault := { s.fault with nonfinite := s.fault.nonfinite || advanceFlags c s.sin.phase0 pitch }
    resA := s.resA ++ [sineSample c s.sin.phase0, sineSample c s.sin.phase0] } := by
  rw [oscProcOp, oscProc_of_fallback pitch p1 p2 p3 s h]
  rfl

theorem finiteDraw_finite (a : F32) : isFinite (finiteDraw a) = true := by
  unfold finiteDraw
  split
  · assumption
  · decide

end

theorem exec_oscProc (idx : U8) (pitch p1 p2 p3 : F32) {s : State} (h : s.inputs.turn = .audio) :
    exec (.oscProc idx pitch p1 p2 p3) s = .next (oscProcOp Config.cfg idx pitch p1 p2 p3 s) :=
  exec_performs rfl h

/-! ## FM.STEP (41_fm_modulator R183) -/

theorem fmStep_illegal {var : U8} {pitch p1 p2 p3 : F32} (h : 2 ≤ var.toNat) :
    (Instr.fmStep var pitch p1 p2 p3).wellFormed = false :=
  decide_eq_false h.not_gt

theorem exec_fmStep {var : U8} (pitch p1 p2 p3 : F32) {s : State} (hvar : var.toNat < 2)
    (h : s.inputs.turn = .audio) :
    exec (.fmStep var pitch p1 p2 p3) s = .next (fmStepOp Config.cfg (selBool var) pitch p1 p2 p3 s) :=
  have hlegal : (Instr.fmStep var pitch p1 p2 p3).wellFormed = true := decide_eq_true hvar
  exec_performs hlegal h

/-- The two samples of the registers before the step are the result words. -/
theorem fmStepOp_eq (c : Cfg) (fbfm : Bool) (pitch p1 p2 p3 : F32) (s : State) :
    fmStepOp c fbfm pitch p1 p2 p3 s = { s with
      fm := fmNext c fbfm s.fm pitch p1 p2
      fault := { s.fault with nonfinite := s.fault.nonfinite || fmFlags c fbfm s.fm pitch p2 }
      resA := s.resA ++ [(fmSamples c s.fm p1).1, (fmSamples c s.fm p1).2] } := rfl

/-- A legal variant is one of the two (R114). -/
theorem var_cases {var : U8} (h : var.toNat < 2) : var = 0 ∨ var = 1 := by
  have hvalue : var.toNat = 0 ∨ var.toNat = 1 := by omega
  exact hvalue.imp (fun h => BitVec.eq_of_toNat_eq h) fun h => BitVec.eq_of_toNat_eq h

/-! ## The bounds of the generators and of the feedback (R159, R184, R185) -/

theorem sineSample_signal (c : Cfg) {ph : F32} (h : inPhase ph) : inSignal (sineSample c ph) :=
  c.num.sin_bound _ (twoPi_phase_finite c h)

theorem fmStep_samples (c : Cfg) (fbfm : Bool) (pitch p1 p2 p3 : F32) (s : State) :
    (fmStep c fbfm pitch p1 p2 p3 s).1 = fmSamples c s.fm p1 := rfl

theorem oscProc_signal {c : Cfg} {idx : U8} (pitch p1 p2 p3 : F32) {s : State} (h : s.Inv c)
    (hinside : idx.toNat < c.nAlg → c.algMap idx ≠ .external) :
    inSignal (oscProc c idx pitch p1 p2 p3 s).1.1 ∧ inSignal (oscProc c idx pitch p1 p2 p3 s).1.2 := by
  obtain ⟨⟨hph0, -, hcphase, -⟩, -⟩ := h
  by_cases hidx : c.nAlg ≤ idx.toNat
  · rw [oscProc_of_fallback pitch p1 p2 p3 s hidx]
    exact ⟨sineSample_signal c hph0, sineSample_signal c hph0⟩
  · cases hmap : c.algMap idx with
    | modfm =>
      rw [oscProc_of_modfm pitch p1 p2 p3 s hidx hmap]
      exact fmSamples_signal c p1 hcphase
    | fbfm =>
      rw [oscProc_of_fbfm pitch p1 p2 p3 s hidx hmap]
      exact fmSamples_signal c p1 hcphase
    | external => exact absurd hmap (hinside (not_le.1 hidx))

/-- A factor in [0, 1] keeps a product with a limit of at least 0.0 in [0, limit]. -/
theorem fmul_unitRange_le (c : Cfg) {a b : F32} (ha : unitRange a) (hb : fle fZero b = true)
    (hbf : isFinite b = true) :
    fle fZero (c.num.fmul a b) = true ∧ fle (c.num.fmul a b) b = true := by
  obtain ⟨n, -, hn⟩ := c.num.fmul_rounds a b
  have haf := inSignal_finite (unitRange_signal ha)
  obtain ⟨hnan, hsign, -⟩ := n.fmul_finite haf hbf
  obtain ⟨-, hmag⟩ := n.fmul_mag_le hbf (unitRange_signal ha)
  rw [← fmul_comm_of_finite n haf hbf] at hmag
  rw [hn]
  refine ⟨fle_zero_iff.2 ⟨hnan, ?_⟩, fle_of_mag hnan hb hmag⟩
  rcases (fle_zero_iff.1 ha.1).2 with has | haz
  · rcases (fle_zero_iff.1 hb).2 with hbs | hbz
    · exact hsign.imp_left fun h => by rw [h, has, hbs]; rfl
    · exact .inr (fmul_zero_mag n haf hbf (.inr hbz))
  · exact .inr (fmul_zero_mag n haf hbf (.inl haz))

/-! ## The first FM sample after a reset (R183, corner case 2) -/

/-- 1.0 less 1.0 is a zero, of the sign the rounding direction gives it. -/
theorem one_fsub_one (c : Cfg) : fmag (c.num.fsub fOne fOne) = 0 := by
  obtain ⟨n, -, hn⟩ := c.num.fsub_rounds fOne fOne
  have hone : n.operand fOne = fOne := operand_of_one_le n (by decide)
  have hdiff : fvalue fOne + fvalue (fneg fOne) = 0 := by decide
  have hsum := sum?_eq n (a := fOne) (b := fneg fOne) (by decide) (by decide)
  rw [if_pos hdiff] at hsum
  have hnan : isNaN fOne = false := by decide
  rw [hn, Arithmetic.fsub, Arithmetic.complete, hnan, Bool.or_self, if_neg Bool.false_ne_true, hone, hsum,
    Option.getD_some]
  exact zeroSum_mag n _ _

theorem fmul_fZero (c : Cfg) {a : F32} (ha : isFinite a = true) (hs : fsign a = false) :
    c.num.fmul a fZero = fZero := by
  obtain ⟨n, -, hn⟩ := c.num.fmul_rounds a fZero
  exact hn.trans (fmul_posZero n ha hs)

/-- A zero is one of the two patterns whose exponential N-EXP fixes. -/
theorem exp_of_mag_zero (c : Cfg) {x : F32} (h : fmag x = 0) : c.num.exp x = fOne := by
  rw [← fpack_self x, h]
  cases fsign x
  · exact c.num.exp_zero
  · exact c.num.exp_negZero

/-- At modulator phase 0.0 the exponent is a finite index times a zero, and `g` is 1.0. -/
theorem fmGain_at_zero (c : Cfg) {index : F32} (h : isFinite index = true) : fmGain c index fZero = fOne := by
  have hexponent : fmag (fmExponent c index fZero) = 0 := by
    have hfinite : isFinite (c.num.fsub fOne fOne) = true := by
      rw [isFinite, one_fsub_one]; decide
    obtain ⟨n, -, hn⟩ := c.num.fmul_rounds index (c.num.fsub fOne fOne)
    rw [fmExponent, fmul_fZero c (by decide) (by decide), c.num.cos_zero, hn]
    exact fmul_zero_mag n h hfinite (.inr (one_fsub_one c))
  have hle : fle (fmExponent c index fZero) fZero = true :=
    le_fZero_iff.2 ⟨by rw [isNaN, hexponent]; decide, .inr hexponent⟩
  rw [fmGain_eq c hle, exp_of_mag_zero c hexponent]

theorem fmSamples_fmZero (c : Cfg) {p1 : F32} (h : isFinite (fmIndex c p1) = true) :
    fmSamples c fmZero p1 = (fOne, fZero) := by
  have hone : c.num.fmul fOne fOne = fOne := by
    obtain ⟨n, -, hn⟩ := c.num.fmul_rounds fOne fOne
    exact hn.trans (fmul_one n (by decide) (.inr (.inr (by decide))))
  simp only [fmSamples, fmZero, fmGain_at_zero c h, fmul_fZero c (show isFinite twoPi = true by decide)
    (by decide), c.num.cos_zero, c.num.sin_zero, hone, fmul_fZero c (show isFinite fOne = true by decide)
    (by decide)]

/-! ## The wavefolder (42_wavefolder R213) -/

theorem clamp_signal (x : F32) : inSignal (clamp x fNegOne fOne) := by
  obtain ⟨hlo, hhi⟩ := clamp_range (x := x) (lo := fNegOne) (hi := fOne) (by decide)
  obtain ⟨-, -, hlo⟩ := fle_iff.1 hlo
  obtain ⟨-, -, hhi⟩ := fle_iff.1 hhi
  have hone : fkey fOne = 0x3F800000 ∧ fkey fNegOne = -0x3F800000 := by decide
  rw [inSignal_iff]
  rcases fkey_cases (clamp x fNegOne fOne) with ⟨-, hkey⟩ | ⟨-, hkey⟩ <;> omega

theorem wfValue_signal (c : Cfg) (amt x : F32) : inSignal (wfValue c amt x) := by
  cases hfinite : isFinite (wfDriven c amt x) with
  | false => rw [wfValue_of_not_finite hfinite]; exact unitRange_signal unitRange_zero
  | true =>
    cases hle : fle (fabs (wfDriven c amt x)) fOne with
    | true => rw [wfValue_of_below hfinite hle]; exact hle
    | false => rw [wfValue_of_above hfinite hle]; exact clamp_signal _

/-- At amount 0.0 the drive is 1.0, whatever the configuration's drive. -/
theorem drive_at_zero (c : Cfg) : c.num.fadd fOne (c.num.fmul (clamp01 fZero) c.wfDrive) = fOne := by
  have hcontrol : clamp01 fZero = fZero := by decide
  obtain ⟨n, -, hn⟩ := c.num.fmul_rounds fZero c.wfDrive
  obtain ⟨m, -, hm⟩ := c.num.fadd_rounds fOne (n.fmul fZero c.wfDrive)
  rw [hcontrol, hn, hm]
  exact fadd_zero m (by decide) (by decide)
    (fmul_zero_mag n (by decide) c.wfDrive_range.1 (.inl (by decide)))

theorem wfDriven_at_zero {c : Cfg} {x : F32} (hx : isFinite x = true)
    (h : fmag x = 0 ∨ SeenAsItIs c x) : wfDriven c fZero x = x := by
  rw [wfDriven, drive_at_zero]
  rcases h with hzero | hnormal | ⟨a, ⟨-, -, hmul, -⟩, hkeeps⟩
  · obtain ⟨n, -, hn⟩ := c.num.fmul_rounds x fOne
    exact hn.trans (fmul_one n hx (.inr (.inl hzero)))
  · obtain ⟨n, -, hn⟩ := c.num.fmul_rounds x fOne
    exact hn.trans (fmul_one n hx (.inr (.inr hnormal)))
  · rw [hmul]
    exact fmul_one a hx (.inl hkeeps)

end Sys2Proof.Machine

namespace Sys2Proof.Proofs

open Sys2Proof Sys2Proof.Machine

/-- Settles O18: the formulas are R16's; the ends and the bounds follow from N-POW at 0.0, at 1.0 and between,
as the quotient is at least 1.0 and the product grows with its factor. -/
theorem remapsAndTheirEnds : Obligations.RemapsAndTheirEnds := by
  unfold Obligations.RemapsAndTheirEnds
  intro c lo hi
  refine ⟨fun p => ⟨rfl, rfl⟩, fun hlo hhi hle => ?_⟩
  refine ⟨expmap_one hlo hhi hle, fun hseen => ?_⟩
  have hseen : SeenAsItIs c lo := hseen
  exact ⟨one_le_quotient hlo hhi hle (hseen.quotient hlo hhi), hseen.expmap_zero hlo hhi hle,
    hseen.expmap_range hlo hhi hle⟩

/-- Settles O21: the two resets are legal, and OSC.RESET is `oscReset_eq`. -/
theorem generatorResetsZeroTheirPhases : Obligations.GeneratorResetsZeroTheirPhases := by
  unfold Obligations.GeneratorResetsZeroTheirPhases
  intro s
  refine ⟨⟨encode_oscReset, encode_fmReset⟩, fun hturn => exec_performs rfl hturn, fun hturn => ?_⟩
  exact (exec_performs rfl hturn).trans (congrArg _ (oscReset_eq s))

/-- Settles O22: one case for each thing the index can select; the two FM slots are FM.STEP of a variant. -/
theorem oscProcStepsTheSelectedGenerator : Obligations.OscProcStepsTheSelectedGenerator := by
  unfold Obligations.OscProcStepsTheSelectedGenerator
  rintro idx pitch p1 p2 p3 s c rfl
  refine ⟨encode_oscProc idx pitch p1 p2 p3, fun hturn => ?_⟩
  rw [exec_oscProc idx pitch p1 p2 p3 hturn]
  split
  next hidx => exact congrArg _ (oscProcOp_of_fallback pitch p1 p2 p3 s hidx)
  next hidx =>
    split
    next hmap =>
      rw [exec_fmStep pitch p1 p2 p3 (by decide) hturn, oscProcOp, oscProc_of_modfm pitch p1 p2 p3 s hidx hmap]
      rfl
    next hmap =>
      rw [exec_fmStep pitch p1 p2 p3 (by decide) hturn, oscProcOp, oscProc_of_fbfm pitch p1 p2 p3 s hidx hmap]
      rfl
    next hmap =>
      rw [oscProcOp, oscProc_of_external pitch p1 p2 p3 s hidx hmap]
      exact ⟨_, _, finiteDraw_finite _, finiteDraw_finite _, rfl⟩

/-- Settles O24: for either variant the registers, the flag and the words of `fmStepOp_eq` are R183's. -/
theorem fmStepFollowsItsFormulas : Obligations.FmStepFollowsItsFormulas := by
  unfold Obligations.FmStepFollowsItsFormulas
  rintro var pitch p1 p2 p3 s c n rfl rfl
  refine ⟨encode_fmStep var pitch p1 p2 p3, fun hturn hvar => ?_, fun h => exec_illegal (fmStep_illegal h)⟩
  rw [exec_fmStep pitch p1 p2 p3 hvar hturn, fmStepOp_eq]
  rcases var_cases hvar with rfl | rfl <;> rfl

/-- Settles O23: the samples by `oscProc_signal`; the exponent and `g` by `fmExponent_le_zero`. -/
theorem inScopeGeneratorsStayBounded : Obligations.InScopeGeneratorsStayBounded := by
  unfold Obligations.InScopeGeneratorsStayBounded
  intro c idx pitch p1 p2 p3 s h
  refine ⟨fun hinside => ?samples, ?exponent⟩
  case samples =>
    obtain ⟨hprimary, hsecondary⟩ := oscProc_signal pitch p1 p2 p3 h hinside
    exact ⟨hprimary, hsecondary, inSignal_finite hprimary, inSignal_finite hsecondary⟩
  case exponent =>
    obtain ⟨⟨-, -, -, hmphase, -⟩, -⟩ := h
    obtain ⟨hnan, hle⟩ := fmExponent_le_zero c (index := fmIndex c p1) hmphase
    exact ⟨hnan, fun hindex hx => ⟨hle hindex hx, fmGain_eq c (hle hindex hx)⟩⟩

/-- Settles O25: both phases are 0.0 after the reset, where `g` and the carrier's cosine are 1.0 and its sine
is 0.0. -/
theorem fmFirstSampleAfterReset : Obligations.FmFirstSampleAfterReset := by
  unfold Obligations.FmFirstSampleAfterReset
  intro c fbfm pitch p1 p2 p3 s hindex
  rw [fmStep_samples]
  exact fmSamples_fmZero c hindex

/-- Settles O26: the gain is R184's by definition, and a product of the limit with a factor in [0, 1]. -/
theorem fmFeedbackIsBounded : Obligations.FmFeedbackIsBounded := by
  unfold Obligations.FmFeedbackIsBounded
  refine fun c p2 => ⟨rfl, rfl, fun fbfm => ?_⟩
  cases fbfm with
  | false =>
    have hzero : fle fZero fZero = true ∧ fle fZero fmFbLimit = true := by decide
    exact hzero
  | true => exact fmul_unitRange_le c (clamp01_range p2) (by decide) (by decide)

/-- Settles O28: each branch of R212 answers a signal; at amount 0.0 the driven sample is the sample itself
(`wfDriven_at_zero`), which as a signal is below the threshold. -/
theorem wfFoldAnswersASignal : Obligations.WfFoldAnswersASignal := by
  unfold Obligations.WfFoldAnswersASignal
  intro c amt x
  refine ⟨inSignal_finite (wfValue_signal c amt x), wfValue_signal c amt x, fun hx hseen => ?_⟩
  have hdriven : wfDriven c fZero x = x := wfDriven_at_zero (inSignal_finite hx) hseen
  rw [wfValue_of_below (by rw [hdriven]; exact inSignal_finite hx) (by rw [hdriven]; exact hx), hdriven]

end Sys2Proof.Proofs
end

section
/-! SUPPORT. Lists of operations (30_encoding R126, 20_memory R86) and the registers that each operation writes
(10_state R34 to R44): the pseudo-operations' coefficients, any number of snapshots written before a read, the
effect of every operation as an update of its registers, and the three statements about them. -/

namespace Sys2Proof.Machine

/-! ## Operations performed one after another -/

theorem execAll_cons {i : Instr} {s t : State} (rest : List Instr) (h : exec i s = .next t) :
    execAll (i :: rest) s = execAll rest t := by
  rw [execAll, h]

/-- The five coefficients, set in their order (R126). -/
theorem execAll_bqSetc {s : State} (h : s.inputs.turn = .audio) (x0 x1 x2 x3 x4 : F32) :
    execAll [.bqSetc 0 x0, .bqSetc 1 x1, .bqSetc 2 x2, .bqSetc 3 x3, .bqSetc 4 x4] s =
      .next { s with bq := { s.bq with b0 := x0, b1 := x1, b2 := x2, a1 := x3, a2 := x4 } } := by
  refine (execAll_cons _ (exec_bqSetc x0 (by decide) h)).trans ?_
  refine (execAll_cons _ (exec_bqSetc x1 (by decide) (by exact h))).trans ?_
  refine (execAll_cons _ (exec_bqSetc x2 (by decide) (by exact h))).trans ?_
  refine (execAll_cons _ (exec_bqSetc x3 (by decide) (by exact h))).trans ?_
  exact execAll_cons _ (exec_bqSetc x4 (by decide) (by exact h))

/-- Of any number of snapshots written, the newest is left in the slot (R86). -/
theorem execAll_chPwr (older : List ParameterSnapshot) (p : ParameterSnapshot) {s : State}
    (h : s.inputs.turn = .control) :
    execAll ((older ++ [p]).map .chPwr) s = .next { s with chP := ⟨p, true⟩ } := by
  induction older generalizing s with
  | nil => exact execAll_cons [] (exec_chPwr p h)
  | cons q older ih =>
    rw [List.cons_append, List.map_cons, execAll_cons _ (exec_chPwr q h)]
    exact ih h

/-! ## What BQ.SETC, BQ.STEP and the tick leave alone -/

theorem setCoef_delays (u : BiquadUnit) (k : U8) (value : F32) :
    (u.setCoef k value).x1 = u.x1 ∧ (u.setCoef k value).x2 = u.x2 ∧ (u.setCoef k value).y1 = u.y1 ∧
      (u.setCoef k value).y2 = u.y2 := by
  unfold BiquadUnit.setCoef
  split <;> exact ⟨rfl, rfl, rfl, rfl⟩

/-- A step of the biquad moves its delays and no coefficient (R234, R236). -/
theorem bqStep_coefficients (c : Cfg) (x : F32) (s : State) :
    (bqStep c x s).2.bq.b0 = s.bq.b0 ∧ (bqStep c x s).2.bq.b1 = s.bq.b1 ∧
      (bqStep c x s).2.bq.b2 = s.bq.b2 ∧ (bqStep c x s).2.bq.a1 = s.bq.a1 ∧
      (bqStep c x s).2.bq.a2 = s.bq.a2 := by
  by_cases h : isFinite (bqAcc c s.bq x) = false
  · rw [bqStep_of_not_finite h]
    exact ⟨rfl, rfl, rfl, rfl, rfl⟩
  · rw [Bool.not_eq_false] at h
    rw [bqStep_of_finite h]
    exact ⟨rfl, rfl, rfl, rfl, rfl⟩

/-- The registers that no sub-step of TICK writes. -/
def State.TickKeeps (s t : State) : Prop :=
  t.v.p3 = s.v.p3 ∧ t.v.wf = s.v.wf ∧ t.t.audioOk = s.t.audioOk ∧ t.chP.slot = s.chP.slot ∧
    t.bq.b0 = s.bq.b0 ∧ t.bq.b1 = s.bq.b1 ∧ t.bq.b2 = s.bq.b2 ∧ t.bq.a1 = s.bq.a1 ∧ t.bq.a2 = s.bq.a2

theorem tickBody_tickKeeps (c : Cfg) (s : State) : s.TickKeeps (tickBody c s) := by
  obtain ⟨sn, u, lvl, act, rv, pl, sq, b, g, d, block, -, -, h⟩ := tickBody_state c s
  obtain ⟨ph, u', lvl', act', hcontrol, -⟩ := tickControl_state c s
  rw [h, hcontrol]
  exact ⟨rfl, rfl, rfl, rfl, bqStep_coefficients c (pitchBlend c s.t.cur) s⟩

theorem tickSubStep_tickKeeps (c : Cfg) (s : State) : s.TickKeeps (tickSubStep c s) := by
  unfold tickSubStep
  cases s.tickPhase with
  | first => exact ⟨rfl, rfl, rfl, rfl, rfl, rfl, rfl, rfl, rfl⟩
  | body => exact tickBody_tickKeeps c s
  | publish => exact ⟨rfl, rfl, rfl, rfl, rfl, rfl, rfl, rfl, rfl⟩

end Sys2Proof.Machine

namespace Sys2Proof.Proofs

open Sys2Proof Sys2Proof.Machine

/-- Settles O32: the five operations set the five coefficients, to R62's values or to the bypass. -/
theorem onepoleRestoresResetCoefficients : Obligations.OnepoleRestoresResetCoefficients := by
  unfold Obligations.OnepoleRestoresResetCoefficients
  rintro s c rfl hturn
  exact ⟨execAll_bqSetc hturn _ _ _ _ _, execAll_bqSetc hturn _ _ _ _ _⟩

/-- Settles O47: the slot holds the newest snapshot (`execAll_chPwr`), the first read takes it and clears the
flag, the second finds the flag clear. -/
theorem mailboxReturnsTheNewest : Obligations.MailboxReturnsTheNewest := by
  unfold Obligations.MailboxReturnsTheNewest
  intro older p s
  exact ⟨_, _, _, execAll_chPwr older p rfl, exec_chPrd rfl, exec_chPrd rfl, rfl, rfl, rfl, rfl, rfl, rfl⟩

/-- Settles O12: a refusal writes none of these registers; the effect of each operation is an update of
registers whose rules name it, and every other register is as before. -/
theorem onlyTheNamedOperationsWrite : Obligations.OnlyTheNamedOperationsWrite := by
  unfold Obligations.OnlyTheNamedOperationsWrite
  intro i s t hexec
  rcases exec_cases i s with ⟨-, he⟩ | ⟨hlegal, -, he⟩ | ⟨-, -, he⟩ <;> rw [he] at hexec <;> cases hexec
  · simp
  · cases i
    case sinReset sel =>
      rcases var_cases (of_decide_eq_true hlegal) with rfl | rfl
      · rw [perform, sinReset_zero]; simp
      · rw [perform, sinReset_one]; simp
    case sinStep sel freq =>
      rcases var_cases (of_decide_eq_true hlegal) with rfl | rfl
      · rw [perform, sinStepOp_zero]; simp
      · rw [perform, sinStepOp_one]; simp
    case oscReset => simp [perform]
    case oscProc idx pitch p1 p2 p3 =>
      obtain ⟨ph, u, b, d, h⟩ := oscProc_state Config.cfg idx pitch p1 p2 p3 s
      simp [perform, oscProcOp, answering, h]
    case fmReset => simp [perform, fmReset]
    case fmStep var pitch p1 p2 p3 => simp [perform, fmStepOp_eq]
    case wfFold amt x => simp [perform, wfFoldOp_eq]
    case bqReset => simp [perform, bqReset, BiquadUnit.cleared]
    case bqSetc k value => simp [perform, bqSetc, setCoef_delays]
    case bqStep x =>
      cases hfinite : isFinite (bqAcc Config.cfg s.bq x) with
      | false => simp [perform, bqStepOp_of_not_finite hfinite, BiquadUnit.cleared]
      | true => simp [perform, bqStepOp_of_finite hfinite]
    case vSetalg idx =>
      obtain ⟨ph, u, -, h⟩ := vSetalg_eq Config.cfg idx s
      simp [perform, h]
    case vProc =>
      obtain ⟨ph, u, lvl, act, rv, pl, b, d, h⟩ := vProc_state Config.cfg s
      simp [perform, vProcOp, answering, h]
    case tick =>
      obtain ⟨hp3, hwf, hok, hslot, hb0, hb1, hb2, ha1, ha2⟩ := tickSubStep_tickKeeps Config.cfg s
      simp [perform, hp3, hwf, hok, hslot, hb0, hb1, hb2, ha1, ha2]
    case chPwr | chPrd | chSwr | chSrd =>
      simp [perform, chPwr, chPrdOp_eq, chSwr, chSrdOp_eq]
    case envReset | envGate | envSeta | envSetr | envStep =>
      simp [perform, envReset, envGate, envSeta, envSetr, envStepOp_eq]
    case vNoteon | vNoteoff | vIsplay => simp [perform, vNoteon_eq, vNoteoff_eq, vIsplayOp]
    case vSetp1 | vSetp2 | vSetwf | vSetatk | vSetrel | vSetrvs | vSetrvl | vSetmg | vSetfreq =>
      simp [perform, vSetp1, vSetp2, vSetwf, envSeta, envSetr, vSetrvs, vSetrvl, vSetmg, vSetfreq]
  · simp

end Sys2Proof.Proofs
end

section
/-! SUPPORT. The voice chain (45_voice_engine R280, R283, R297) and the frames of a tick (46_task_scheduler_fifo
R352): V.PROC on both of its branches, the state before each frame of a block, what moves the playing bit, and
the three statements about it. -/

namespace Sys2Proof.Machine

/-! ## V.PROC (R283) -/

theorem encode_vProc : encode .vProc = [0x62000000#32] := by decide

theorem vProc_of_idle (c : Cfg) {s : State} (h : s.v.playing = false) : vProc c s = ((fZero, fZero), s) := by
  simp only [vProc, h, Bool.false_eq_true, if_false]

theorem vProc_of_playing (c : Cfg) {s : State} (h : s.v.playing = true) : vProc c s = voiceFrame c s := by
  simp only [vProc, h, if_true]

/-- The envelope after steps (1) to (4). -/
def voiceEnvelope (c : Cfg) (s : State) : F32 × State := envStep c (voiceFolded c s).2

/-- One channel of the frame: the gains of step (4) and the reverb of step (5), from the folded sample and the
channel's reverb state. -/
def voiceChannel (c : Cfg) (s : State) (folded : F32) (reverb : Nat) : Nat × F32 :=
  c.reverb.step reverb (voiceGain c s.v (voiceEnvelope c s).1 folded) s.v.rvSize s.v.rvLevel

/-- The left channel: its reverb state after the frame, and its sample. -/
def voiceLeft (c : Cfg) (s : State) : Nat × F32 := voiceChannel c s (voiceFolded c s).1.1 s.rev.left

/-- The right channel. -/
def voiceRight (c : Cfg) (s : State) : Nat × F32 := voiceChannel c s (voiceFolded c s).1.2 s.rev.right

/-- The whole of V.PROC while `Playing`: the frame, and the state after the auto-stop. -/
theorem voiceFrame_eq (c : Cfg) {s : State} (h : s.v.playing = true) :
    voiceFrame c s = (((voiceLeft c s).2, (voiceRight c s).2),
      { (voiceEnvelope c s).2 with
        rev := ⟨(voiceLeft c s).1, (voiceRight c s).1⟩
        v := { s.v with
          playing := !autoStops c (voiceEnvelope c s).2.env.active (voiceLeft c s).2
            (voiceRight c s).2 } }) := by
  obtain ⟨ph, u, b, d, hfold⟩ := voiceFolded_state c s
  simp only [voiceFrame, reverbStep, autoStop, voiceLeft, voiceRight, voiceChannel, voiceEnvelope, hfold,
    envStep, h, Bool.true_and]

theorem voiceEnvelope_resA (c : Cfg) (s : State) : (voiceEnvelope c s).2.resA = s.resA := by
  obtain ⟨ph, u, b, d, hfold⟩ := voiceFolded_state c s
  simp only [voiceEnvelope, envStep, hfold]

theorem exec_vProc {s : State} (h : s.inputs.turn = .audio) :
    exec .vProc s = .next (vProcOp Config.cfg s) :=
  exec_performs rfl h

/-! ## The auto-stop (R297) -/

/-- After a V.PROC in which the voice stops, the test of R297 holds. -/
theorem vProc_stops {c : Cfg} {s : State} (h : s.v.playing = true) (hstop : (vProc c s).2.v.playing = false) :
    (vProc c s).2.env.active = false ∧ flt (fabs (vProc c s).1.1) c.silenceFloor = true ∧
      flt (fabs (vProc c s).1.2) c.silenceFloor = true := by
  rw [vProc_of_playing c h] at hstop ⊢
  rw [voiceFrame_playing, h, Bool.true_and, Bool.not_eq_false', autoStops, Bool.and_eq_true, Bool.and_eq_true,
    Bool.not_eq_true'] at hstop
  obtain ⟨⟨hactive, hleft⟩, hright⟩ := hstop
  rw [voiceFrame_env]
  exact ⟨hactive, hleft, hright⟩

/-- The voice plays and its envelope's gate is high. -/
def State.Held (s : State) : Prop := s.v.playing = true ∧ s.env.gate = true

theorem vProc_held (c : Cfg) {s : State} (h : s.Held) :
    (vProc c s).2.Held ∧ (vProc c s).2.env.active = true := by
  obtain ⟨hplaying, hgate⟩ := h
  rw [vProc_of_playing c hplaying, State.Held, voiceFrame_env, voiceFrame_playing, hplaying, hgate]
  exact ⟨⟨rfl, rfl⟩, rfl⟩

/-! ## The frames of a block (46 R352) -/

@[simp] theorem frameState_zero (c : Cfg) (s : State) : frameState c s 0 = tickControl c s := rfl

theorem frameState_succ (c : Cfg) (s : State) (k : Nat) :
    frameState c s (k + 1) = (tickFrame c (frameState c s k)).2 :=
  Function.iterate_succ_apply' _ k _

theorem tickFrames_block (c : Cfg) (s : State) {k : Nat} {f : Frame}
    (h : (tickFrames c c.blockFrames (tickControl c s)).1[k]? = some f) :
    f = (tickFrame c (frameState c s k)).1 :=
  (tickFrames_frame c c.blockFrames (tickControl c s)).2 k f h

/-- The body of TICK closes the block on the state its last frame leaves. -/
theorem tickBody_eq (c : Cfg) (s : State) :
    tickBody c s = { finishBlock c (tickFrames c c.blockFrames (tickControl c s)).1
      (frameState c s c.blockFrames) with tickPhase := .publish } := by
  have hlast := (tickFrames_frame c c.blockFrames (tickControl c s)).1
  simp only [tickBody, hlast, frameState]

theorem tickControl_cur (c : Cfg) (s : State) : (tickControl c s).t.cur = s.t.cur := by
  obtain ⟨ph, u, lvl, act, h, -⟩ := tickControl_state c s
  rw [h]
  rfl

/-- The snapshot, and with it the mode, is one for the whole block. -/
theorem frameState_cur (c : Cfg) (s : State) (k : Nat) : (frameState c s k).t.cur = s.t.cur := by
  induction k with
  | zero => exact tickControl_cur c s
  | succ k ih =>
    obtain ⟨sn, u, lvl, act, rv, pl, sq, b, g, d, h⟩ := tickFrame_state c (frameState c s k)
    rw [frameState_succ, h]
    exact ih

theorem tickFrame_of_selftest {c : Cfg} {s : State} (h : s.t.cur.algorithm = c.idxSelftest) :
    tickFrame c s = selftestFrame c s :=
  if_pos h

theorem tickFrame_of_caltone {c : Cfg} {s : State} (h : s.t.cur.algorithm = c.idxCaltone) :
    tickFrame c s = caltoneFrame c s := by
  have hmode : s.t.cur.algorithm ≠ c.idxSelftest := h ▸ c.idx_ne.symm
  rw [tickFrame, if_neg hmode, if_pos h]

theorem tickFrame_of_normal {c : Cfg} {s : State} (h : s.t.cur.algorithm ≠ c.idxSelftest)
    (h' : s.t.cur.algorithm ≠ c.idxCaltone) : tickFrame c s = normalFrame c s := by
  rw [tickFrame, if_neg h, if_neg h']

/-- Only a normal frame writes a voice or envelope register. -/
theorem tickFrame_voice (c : Cfg) (s : State) :
    ((tickFrame c s).2.v = s.v ∧ (tickFrame c s).2.env = s.env) ∨
      (s.t.cur.algorithm ≠ c.idxSelftest ∧ s.t.cur.algorithm ≠ c.idxCaltone ∧
        (tickFrame c s).2.v = (vProc c s).2.v ∧ (tickFrame c s).2.env = (vProc c s).2.env) := by
  by_cases hself : s.t.cur.algorithm = c.idxSelftest
  · rw [tickFrame_of_selftest hself]
    exact .inl ⟨rfl, rfl⟩
  · by_cases hcal : s.t.cur.algorithm = c.idxCaltone
    · rw [tickFrame_of_caltone hcal]
      exact .inl ⟨rfl, rfl⟩
    · rw [tickFrame_of_normal hself hcal]
      exact .inr ⟨hself, hcal, rfl, rfl⟩

/-- No frame starts the voice. -/
theorem tickFrame_idle (c : Cfg) {s : State} (h : s.v.playing = false) :
    (tickFrame c s).2.v.playing = false := by
  rcases tickFrame_voice c s with ⟨hv, -⟩ | ⟨-, -, hv, -⟩
  · rw [hv, h]
  · rw [hv, vProc_of_idle c h, h]

/-- No frame stops a held note. -/
theorem tickFrame_held (c : Cfg) {s : State} (h : s.Held) : (tickFrame c s).2.Held := by
  rcases tickFrame_voice c s with ⟨hv, henv⟩ | ⟨-, -, hv, henv⟩
  · rwa [State.Held, hv, henv]
  · rw [State.Held, hv, henv]
    exact (vProc_held c h).1

/-- A block that ends stopped has a normal frame in which the voice stops. -/
theorem exists_stopping_frame {c : Cfg} {s : State} {n : Nat} (h : (tickControl c s).v.playing = true)
    (hstop : (frameState c s n).v.playing = false) :
    s.t.cur.algorithm ≠ c.idxSelftest ∧ s.t.cur.algorithm ≠ c.idxCaltone ∧
      ∃ k, k < n ∧ (frameState c s k).v.playing = true ∧
        (vProc c (frameState c s k)).2.v.playing = false := by
  induction n with
  | zero => rw [frameState_zero, h] at hstop; cases hstop
  | succ n ih =>
    cases hbefore : (frameState c s n).v.playing with
    | false =>
      obtain ⟨hself, hcal, k, hk, hframe⟩ := ih hbefore
      exact ⟨hself, hcal, k, hk.trans n.lt_succ_self, hframe⟩
    | true =>
      rw [frameState_succ] at hstop
      rcases tickFrame_voice c (frameState c s n) with ⟨hv, -⟩ | ⟨hself, hcal, hv, -⟩
      · rw [hv, hbefore] at hstop; cases hstop
      · rw [frameState_cur] at hself hcal
        exact ⟨hself, hcal, n, n.lt_succ_self, hbefore, hv ▸ hstop⟩

theorem tickFrames_idle (c : Cfg) (s : State) (n : Nat) (h : (tickControl c s).v.playing = false) :
    (frameState c s n).v.playing = false := by
  induction n with
  | zero => exact h
  | succ n ih => rw [frameState_succ]; exact tickFrame_idle c ih

/-! ## What moves the playing bit (R280) -/

theorem tickControl_playing (c : Cfg) (s : State) :
    (tickControl c s).v.playing = ((tickGate s && !seenLastGate s) || s.v.playing) := by
  obtain ⟨ph, u, lvl, act, h, -⟩ := tickControl_state c s
  rw [h]
  rfl

theorem tickBody_playing (c : Cfg) (s : State) :
    (tickBody c s).v.playing = (frameState c s c.blockFrames).v.playing := by
  rw [tickBody_eq]
  rfl

/-- Every operation but three leaves the playing bit. -/
theorem perform_playing (c : Cfg) {i : Instr} (s : State) (hon : ∀ f x, i ≠ .vNoteon f x) (hproc : i ≠ .vProc)
    (htick : i ≠ .tick) : (perform c i s).v.playing = s.v.playing := by
  cases i
  case vNoteon f x => exact absurd rfl (hon f x)
  case vProc => exact absurd rfl hproc
  case tick => exact absurd rfl htick
  case oscProc idx pitch p1 p2 p3 =>
    obtain ⟨ph, u, b, d, h⟩ := oscProc_state c idx pitch p1 p2 p3 s
    simp [perform, oscProcOp, answering, h]
  case bqStep x =>
    obtain ⟨bq, b, h⟩ := bqStep_state c x s
    simp [perform, bqStepOp, answering, (h s rfl rfl).2]
  case vSetalg idx =>
    obtain ⟨ph, u, -, h⟩ := vSetalg_eq c idx s
    simp [perform, h]
  all_goals rfl

/-- TICK moves the playing bit in its body alone. -/
theorem tickSubStep_playing {c : Cfg} {s : State} (h : (tickSubStep c s).v.playing ≠ s.v.playing) :
    s.tickPhase = .body ∧ (tickSubStep c s).v.playing = (frameState c s c.blockFrames).v.playing := by
  cases hphase : s.tickPhase with
  | first => exact absurd (by rw [tickSubStep, hphase]; rfl) h
  | body => exact ⟨rfl, by rw [tickSubStep, hphase]; exact tickBody_playing c s⟩
  | publish => exact absurd (by rw [tickSubStep, hphase]; rfl) h

/-- An operation that starts the voice is V.NOTEON, or the body of TICK on a rising edge. -/
theorem perform_starts {c : Cfg} {i : Instr} {s : State} (h : s.v.playing = false)
    (hstart : (perform c i s).v.playing = true) : (∃ f x, i = .vNoteon f x) ∨
      (i = .tick ∧ s.tickPhase = .body ∧ tickGate s = true ∧ seenLastGate s = false) := by
  by_cases hon : ∃ f x, i = .vNoteon f x
  · exact .inl hon
  by_cases hproc : i = .vProc
  · subst hproc
    have hidle : (vProc c s).2.v.playing = true := hstart
    rw [vProc_of_idle c h, h] at hidle
    cases hidle
  by_cases htick : i = .tick
  · subst htick
    have hmoved : (tickSubStep c s).v.playing ≠ s.v.playing := by rw [h]; exact ne_of_eq_of_ne hstart (by decide)
    obtain ⟨hphase, hlast⟩ := tickSubStep_playing hmoved
    have hcontrol : (tickControl c s).v.playing = true := by
      by_contra hidle
      have hend := tickFrames_idle c s c.blockFrames (Bool.not_eq_true _ ▸ hidle)
      exact hmoved (hlast.trans (hend.trans h.symm))
    rw [tickControl_playing, h, Bool.or_false, Bool.and_eq_true, Bool.not_eq_true'] at hcontrol
    exact .inr ⟨rfl, hphase, hcontrol⟩
  · rw [perform_playing c s (fun f x hi => hon ⟨f, x, hi⟩) hproc htick, h] at hstart
    cases hstart

/-- An operation that stops the voice is V.PROC, or the body of TICK with a normal frame that does. -/
theorem perform_stops {c : Cfg} {i : Instr} {s : State} (h : s.v.playing = true)
    (hstop : (perform c i s).v.playing = false) : (i = .vProc ∧ (vProc c s).2.v.playing = false) ∨
      (i = .tick ∧ s.tickPhase = .body ∧ s.t.cur.algorithm ≠ c.idxSelftest ∧
        s.t.cur.algorithm ≠ c.idxCaltone ∧ ∃ k, k < c.blockFrames ∧ (frameState c s k).v.playing = true ∧
          (vProc c (frameState c s k)).2.v.playing = false) := by
  by_cases hon : ∃ f x, i = .vNoteon f x
  · obtain ⟨f, x, rfl⟩ := hon
    have hstart : (vNoteon c f x s).v.playing = true := rfl
    cases hstart.symm.trans hstop
  by_cases hproc : i = .vProc
  · subst hproc
    exact .inl ⟨rfl, hstop⟩
  by_cases htick : i = .tick
  · subst htick
    obtain ⟨hphase, hlast⟩ :=
      tickSubStep_playing (c := c) (s := s) (by rw [h]; exact ne_of_eq_of_ne hstop (by decide))
    have hcontrol : (tickControl c s).v.playing = true := by rw [tickControl_playing, h, Bool.or_true]
    exact .inr ⟨rfl, hphase, exists_stopping_frame hcontrol (hlast.symm.trans hstop)⟩
  · rw [perform_playing c s (fun f x hi => hon ⟨f, x, hi⟩) hproc htick, h] at hstop
    cases hstop

end Sys2Proof.Machine

namespace Sys2Proof.Proofs

open Sys2Proof Sys2Proof.Machine

/-- Settles O39: R283's steps are those of `voiceFrame_eq`, whose folded pair is the statement's by definition;
the frame is `vProc_state`. -/
theorem vProcMakesOneFrame : Obligations.VProcMakesOneFrame := by
  unfold Obligations.VProcMakesOneFrame
  rintro s c n rfl rfl
  refine ⟨encode_vProc, fun hturn hidle => ?idle, fun hturn hplaying => ?playing, fun t hturn hexec => ?frame⟩
  case idle =>
    rw [exec_vProc hturn, vProcOp, vProc_of_idle _ hidle]
    rfl
  case playing =>
    rw [exec_vProc hturn, vProcOp, vProc_of_playing _ hplaying, voiceFrame_eq _ hplaying, answering, twoWords,
      State.result, voiceEnvelope_resA]
    rfl
  case frame =>
    rw [exec_vProc hturn, vProcOp] at hexec
    cases hexec
    obtain ⟨ph, u, lvl, act, rv, pl, b, d, h⟩ := vProc_state Config.cfg s
    exact ⟨ph, u, lvl, act, rv, pl, b, d, _, by rw [answering, h]; rfl⟩

/-- Settles O40: with the gate high the report is high after the envelope's step, and R297's test fails. -/
theorem gateHoldsOffTheAutoStop : Obligations.GateHoldsOffTheAutoStop := by
  unfold Obligations.GateHoldsOffTheAutoStop
  intro s hturn hplaying hgate
  obtain ⟨⟨hplaying', hgate'⟩, hactive⟩ := vProc_held Config.cfg ⟨hplaying, hgate⟩
  exact ⟨_, exec_vProc hturn, hplaying', hgate', hactive⟩

/-- Settles O44: a refusal leaves the playing bit; `perform_starts` and `perform_stops` say which operations
move it, and where it falls after V.PROC the test of R297 holds (`vProc_stops`). -/
theorem playingChangesOnlyByNoteonAndAutostop : Obligations.PlayingChangesOnlyByNoteonAndAutostop := by
  unfold Obligations.PlayingChangesOnlyByNoteonAndAutostop
  refine ⟨fun i s => congrFun (congrFun exec_eq_execUnder i) s, fun c i s t hexec => ?_⟩
  intro p gate last stops
  have hstops (u : State) (h : u.v.playing = true) (h' : (vProc c u).2.v.playing = false) : stops u := by
    obtain ⟨hactive, hleft, hright⟩ := vProc_stops h h'
    exact ⟨h, hactive, hleft, hright, h'⟩
  have hrefused (h : t.v = s.v) (b : Bool) (hs : s.v.playing = b) (ht : t.v.playing = !b) : False := by
    rw [h, hs] at ht
    exact absurd ht (by cases b <;> decide)
  rcases execUnder_cases c i s with ⟨-, he⟩ | ⟨-, -, he⟩ | ⟨-, -, he⟩ <;> rw [he] at hexec <;> cases hexec
  · exact ⟨fun hs ht => (hrefused rfl _ hs ht).elim, fun hs ht => (hrefused rfl _ hs ht).elim⟩
  · refine ⟨fun hs ht => perform_starts hs ht, fun hs ht => ?_⟩
    obtain ⟨hi, hstop⟩ | ⟨hi, hphase, hself, hcal, k, hk, hplaying, hstop⟩ := perform_stops hs ht
    · exact .inl ⟨hi, hstops s hs hstop⟩
    · exact .inr ⟨hi, hphase, hself, hcal, k, hk, hstops _ hplaying hstop⟩
  · exact ⟨fun hs ht => (hrefused rfl _ hs ht).elim, fun hs ht => (hrefused rfl _ hs ht).elim⟩

end Sys2Proof.Proofs
end

section
/-! SUPPORT. TICK (46_task_scheduler_fifo R340 to R359): its first and last sub-steps, what steps 3 to 6 and the
frame loop leave in each group of registers, and the five statements about a tick in any mode. -/

namespace Sys2Proof.Machine

/-! ## The sub-steps (R340) -/

theorem encode_tick : encode .tick = [0x78000000#32] := by decide

theorem exec_tick {s : State} (h : s.inputs.turn = .audio) :
    exec .tick s = .next (tickSubStep Config.cfg s) :=
  exec_performs rfl h

theorem exec_tick_first {s : State} (h : s.inputs.turn = .audio) (hphase : s.tickPhase = .first) :
    exec .tick s = .next (tickFirst s) := by
  rw [exec_tick h, tickSubStep, hphase]

theorem exec_tick_publish {s : State} (h : s.inputs.turn = .audio) (hphase : s.tickPhase = .publish) :
    exec .tick s = .next (tickPublish s) := by
  rw [exec_tick h, tickSubStep, hphase]

/-! ## Steps 3 to 6 (R347 to R351) -/

/-- Does the gate rise on this tick (R351)? -/
def gateRises (s : State) : Bool := tickGate s && !seenLastGate s

/-- Does the gate fall on this tick (R351)? -/
def gateFalls (s : State) : Bool := !tickGate s && seenLastGate s

/-- A switch of R285 is a change of the active index. -/
theorem switches_iff (c : Cfg) (s : State) : Switches c s.t.cur.algorithm s ↔ activeAlg c s ≠ s.v.alg := by
  unfold Switches activeAlg
  split
  next hlt => simp [hlt]
  next hge => simp [hge]

section
variable (c : Cfg) {s : State}

/-- On a rising edge step 6 leaves the generators, the envelope, the reverb pair and the playing bit as
V.NOTEON does. -/
theorem tickControl_of_rises (h : gateRises s = true) :
    (tickControl c s).sin.phase0 = fZero ∧ (tickControl c s).fm = fmZero ∧
      (tickControl c s).env.level = fZero ∧ (tickControl c s).env.active = true ∧
      (tickControl c s).rev = ⟨c.reverb.reset, c.reverb.reset⟩ ∧ (tickControl c s).v.playing = true := by
  obtain ⟨ph, u, lvl, act, hcontrol, hedge⟩ := tickControl_state c s
  rw [gateRises] at h
  rw [if_pos h] at hedge
  obtain ⟨rfl, rfl, rfl, rfl⟩ := hedge
  rw [hcontrol]
  simp only [controlled, h, if_true, Bool.true_or, and_self]

/-- Without one they are as before, but for the generators where the active index changes. -/
theorem tickControl_of_not_rises (h : gateRises s = false) :
    (tickControl c s).env.level = s.env.level ∧ (tickControl c s).env.active = s.env.active ∧
      (tickControl c s).rev = s.rev ∧ (tickControl c s).v.playing = s.v.playing ∧
      (activeAlg c s = s.v.alg → (tickControl c s).sin.phase0 = s.sin.phase0 ∧ (tickControl c s).fm = s.fm) ∧
      (activeAlg c s ≠ s.v.alg →
        (tickControl c s).sin.phase0 = fZero ∧ (tickControl c s).fm = fmZero) := by
  obtain ⟨ph, u, lvl, act, hcontrol, hedge⟩ := tickControl_state c s
  rw [gateRises] at h
  rw [if_neg (by rw [h]; decide)] at hedge
  obtain ⟨⟨hswitch, hkept⟩, rfl, rfl⟩ := hedge
  rw [switches_iff] at hswitch hkept
  rw [hcontrol]
  simp only [controlled, h, Bool.false_eq_true, if_false, Bool.false_or, true_and]
  exact ⟨fun hsame => hkept (not_not.2 hsame), hswitch⟩

end

/-- The two phases of the special modes restart where the raw index has changed (R347). -/
theorem tickControl_phases (c : Cfg) (s : State) :
    (tickControl c s).sin.phase1 = (if s.t.cur.algorithm = s.t.lastAlg then s.sin.phase1 else fZero) ∧
      (tickControl c s).t.sqPhase = (if s.t.cur.algorithm = s.t.lastAlg then s.t.sqPhase else fZero) := by
  obtain ⟨ph, u, lvl, act, hcontrol, -⟩ := tickControl_state c s
  obtain ⟨ph1, sq, hchange, hphases⟩ := algChange_state s
  rw [hcontrol]
  simp only [controlled, hchange]
  split at hphases
  next hsame => rw [if_pos hsame, if_pos hsame]; exact hphases
  next hchanged => rw [if_neg hchanged, if_neg hchanged]; exact hphases

theorem tickControl_gates (c : Cfg) (s : State) :
    (tickControl c s).v.gate = (if gateRises s then true else if gateFalls s then false else s.v.gate) ∧
      (tickControl c s).env.gate = (if gateRises s then true else if gateFalls s then false else s.env.gate) ∧
      (tickControl c s).v.vel = (if gateRises s then clamp01 c.velocityDefault else s.v.vel) ∧
      (tickControl c s).t.lastGate = tickGate s := by
  obtain ⟨ph, u, lvl, act, hcontrol, -⟩ := tickControl_state c s
  rw [hcontrol]
  exact ⟨rfl, rfl, rfl, rfl⟩

/-- The setters clamp the effective parameters, which are legal already (R348, R350). -/
theorem clamp01_effectiveParam (c : Cfg) (unused : Bool) (nominal cv pot : F32) :
    clamp01 (effectiveParam c unused nominal cv pot) = effectiveParam c unused nominal cv pot := by
  have hhalf : clamp01 fHalf = fHalf := by decide
  unfold effectiveParam
  split
  · exact hhalf
  · exact clamp01_idem _

theorem tickControl_settings (c : Cfg) (s : State) :
    ((tickControl c s).v.alg = activeAlg c s ∧ (tickControl c s).v.p1 = effectiveP1 c s ∧
      (tickControl c s).v.p2 = effectiveP2 c s ∧ (tickControl c s).v.p3 = s.v.p3 ∧
      (tickControl c s).v.wf = s.v.wf) ∧
    (tickControl c s).v.mg = clamp01 s.t.cur.masterGain ∧
      (tickControl c s).v.rvSize = clamp01 s.t.cur.reverbSize ∧
      (tickControl c s).v.rvLevel = clamp01 s.t.cur.reverbLevel ∧
      (tickControl c s).env.atk = clamp01 s.t.cur.attack ∧ (tickControl c s).env.rel = clamp01 s.t.cur.decay ∧
      (tickControl c s).v.freq = clamp (pitchMap c (bqStep c (pitchBlend c s.t.cur) s).1) fZero c.nyq := by
  obtain ⟨ph, u, lvl, act, hcontrol, -⟩ := tickControl_state c s
  rw [hcontrol]
  exact ⟨⟨rfl, clamp01_effectiveParam _ _ _ _ _, clamp01_effectiveParam _ _ _ _ _, rfl, rfl⟩,
    rfl, rfl, rfl, rfl, rfl, rfl⟩

theorem tickControl_guard (c : Cfg) (s : State) : (tickControl c s).fault.guard = s.fault.guard := by
  obtain ⟨ph, u, lvl, act, hcontrol, -⟩ := tickControl_state c s
  obtain ⟨bq, b, hstep⟩ := bqStep_state c (pitchBlend c s.t.cur) s
  obtain ⟨-, hstep⟩ := hstep s rfl rfl
  rw [hcontrol]
  simp only [controlled, hstep]

/-! ## The frame loop and steps 8 and 9 (R352, R356, R357), by groups of registers -/

/-- Sub-step T2 touches no port and no channel. -/
theorem tickBody_ports (c : Cfg) (s : State) :
    (tickBody c s).tickPhase = .publish ∧ (tickBody c s).chP = s.chP ∧ (tickBody c s).chS = s.chS ∧
      (tickBody c s).portA = s.portA ∧ (tickBody c s).portC = s.portC ∧ (tickBody c s).resA = s.resA ∧
      (tickBody c s).resC = s.resC ∧ (tickBody c s).inputs = s.inputs := by
  obtain ⟨sn, u, lvl, act, rv, pl, sq, b, g, d, block, -, -, h⟩ := tickBody_state c s
  obtain ⟨ph, u', lvl', act', hcontrol, -⟩ := tickControl_state c s
  rw [h, hcontrol]
  exact ⟨rfl, rfl, rfl, rfl, rfl, rfl, rfl, rfl⟩

/-- The block that the tick emits. -/
def tickBlock (c : Cfg) (s : State) : List Frame := (tickFrames c c.blockFrames (tickControl c s)).1

theorem tickBlock_length (c : Cfg) (s : State) : (tickBlock c s).length = c.blockFrames :=
  (tickFrames_state c c.blockFrames (tickControl c s)).1

theorem tickBody_audioOut (c : Cfg) (s : State) : (tickBody c s).audioOut = s.audioOut ++ [tickBlock c s] := by
  obtain ⟨sn, u, lvl, act, rv, pl, sq, b, g, d, block, hframes, -, h⟩ := tickBody_state c s
  obtain ⟨ph, u', lvl', act', hcontrol, -⟩ := tickControl_state c s
  rw [h, tickBlock, hframes, hcontrol]
  rfl

/-- The frame loop moves no setting and no gate of the voice and the envelope. -/
theorem tickBody_voice (c : Cfg) (s : State) :
    (tickBody c s).v = { (tickControl c s).v with playing := (tickBody c s).v.playing } ∧
      (tickBody c s).env.atk = (tickControl c s).env.atk ∧ (tickBody c s).env.rel = (tickControl c s).env.rel ∧
      (tickBody c s).env.gate = (tickControl c s).env.gate := by
  obtain ⟨sn, u, lvl, act, rv, pl, sq, b, g, d, block, -, -, h⟩ := tickBody_state c s
  rw [h]
  exact ⟨rfl, rfl, rfl, rfl⟩

theorem tickBody_flags (c : Cfg) (s : State) :
    (tickBody c s).fault.illegal = s.fault.illegal ∧ (tickBody c s).fault.ctx = s.fault.ctx := by
  obtain ⟨b, g, h⟩ := tickBody_raises c s
  rw [h]
  exact ⟨rfl, rfl⟩

theorem isUnderrun_iff (c : Cfg) (ok : Bool) (n : Nat) :
    isUnderrun c ok n = true ↔ ok = false ∨ n < c.blockFrames * c.frameBytes := by
  simp only [isUnderrun, Bool.or_eq_true, Bool.not_eq_true', decide_eq_true_eq]
  exact Iff.rfl

theorem tickBody_underruns (c : Cfg) (s : State) :
    (tickBody c s).t.underruns = (if s.inputs.wrOk = false ∨ s.inputs.wrBytes < c.blockFrames * c.frameBytes
      then s.t.underruns + 1 else s.t.underruns) := by
  obtain ⟨sn, u, lvl, act, rv, pl, sq, b, g, d, block, -, -, h⟩ := tickBody_state c s
  obtain ⟨ph, u', lvl', act', hcontrol, -⟩ := tickControl_state c s
  rw [h, hcontrol, ← if_congr (isUnderrun_iff c s.inputs.wrOk s.inputs.wrBytes) rfl rfl]
  rfl

theorem tickBody_tickRegs (c : Cfg) (s : State) :
    (tickBody c s).t.cur = s.t.cur ∧ (tickBody c s).t.lastGate = tickGate s ∧
      (tickBody c s).t.lastAlg = s.t.cur.algorithm ∧ (tickBody c s).t.audioOk = s.t.audioOk := by
  obtain ⟨sn, u, lvl, act, rv, pl, sq, b, g, d, block, -, -, h⟩ := tickBody_state c s
  obtain ⟨ph, u', lvl', act', hcontrol, -⟩ := tickControl_state c s
  rw [h, hcontrol]
  exact ⟨rfl, rfl, rfl, rfl⟩

/-- The busy output judges the voice after the frames (R356). -/
theorem tickBody_gateOut (c : Cfg) (s : State) :
    (tickBody c s).t.gateOut = !(if s.t.cur.algorithm = c.idxSelftest then true
      else if s.t.cur.algorithm = c.idxCaltone then (tickBody c s).v.gate
      else (tickBody c s).v.playing) := by
  obtain ⟨sn, u, lvl, act, rv, pl, sq, b, g, d, block, -, -, h⟩ := tickBody_state c s
  obtain ⟨ph, u', lvl', act', hcontrol, -⟩ := tickControl_state c s
  rw [h, hcontrol]
  rfl

end Sys2Proof.Machine

namespace Sys2Proof.Proofs

open Sys2Proof Sys2Proof.Machine

/-- Settles O48: the first sub-step is the parameter read and the last the status write, by definition. -/
theorem tickReadsThenPublishes : Obligations.TickReadsThenPublishes := by
  unfold Obligations.TickReadsThenPublishes
  intro s
  exact ⟨encode_tick, exec_tick_first, exec_tick_publish⟩

/-- Settles O49: step 6 by its two edges (`tickControl_of_rises`, `tickControl_of_not_rises`), then one lemma for
each group of registers that the body leaves. -/
theorem tickBodyFollowsItsSteps : Obligations.TickBodyFollowsItsSteps := by
  unfold Obligations.TickBodyFollowsItsSteps
  rintro s c n p rfl rfl rfl hturn hphase
  intro gate last act p1e p2e blend sm freq rising q
  obtain ⟨hphase1, hsq⟩ := tickControl_phases Config.cfg s
  refine ⟨⟨tickControl_of_rises Config.cfg, tickControl_of_not_rises Config.cfg, hphase1, hsq⟩, ?_⟩
  obtain ⟨hv, hatk, hrel, hgate⟩ := tickBody_voice Config.cfg s
  obtain ⟨hvgate, hegate, hvel, -⟩ := tickControl_gates Config.cfg s
  obtain ⟨⟨halg, hp1, hp2, hp3, hwf⟩, hmg, hsize, hlevel, hatk', hrel', hfreq⟩ :=
    tickControl_settings Config.cfg s
  refine ⟨_, tickBlock Config.cfg s, exec_tick_body hturn hphase,
    ⟨rfl, tickBlock_length Config.cfg s, tickBody_audioOut Config.cfg s⟩, tickBody_ports Config.cfg s,
    ⟨tickBody_bq Config.cfg s, tickBody_flags Config.cfg s⟩, ?params, ?settings, ?gates,
    tickBody_tickRegs Config.cfg s, tickBody_gateOut Config.cfg s, tickBody_underruns Config.cfg s⟩
  case params => rw [hv]; exact ⟨halg, hp1, hp2, hp3, hwf⟩
  case settings => rw [hv, hatk, hrel]; exact ⟨hmg, hsize, hlevel, hatk', hrel', hfreq⟩
  case gates => rw [hv, hgate]; exact ⟨hvel, hvgate, hegate⟩

/-- Settles O50: the three sub-steps one after another; the body emits the block and counts, the other two read
and publish. -/
theorem wholeTickEmitsOneBlock : Obligations.WholeTickEmitsOneBlock := by
  unfold Obligations.WholeTickEmitsOneBlock
  intro s hturn hphase
  obtain ⟨hpublish, hchP, -, -, -, hresA, hresC, hinputs⟩ := tickBody_ports Config.cfg (tickFirst s)
  obtain ⟨hcur, -, -, hok⟩ := tickBody_tickRegs Config.cfg (tickFirst s)
  have hturn' : (tickBody Config.cfg (tickFirst s)).inputs.turn = .audio := by rw [hinputs]; exact hturn
  have hrun : execAll [.tick, .tick, .tick] s =
      .next (tickPublish (tickBody Config.cfg (tickFirst s))) := by
    rw [execAll_cons _ (exec_tick_first hturn hphase),
      execAll_cons _ (exec_tick_body (s := tickFirst s) hturn rfl),
      execAll_cons _ (exec_tick_publish hturn' hpublish)]
    rfl
  refine ⟨_, tickBlock Config.cfg (tickFirst s), hrun, tickBlock_length _ _, tickBody_audioOut _ _, ?status,
    rfl, ?underruns, hchP, hcur, hresA, hresC⟩
  case status => rw [tickPublish, hok]; rfl
  case underruns =>
    rw [tickPublish, tickBody_underruns]
    split
    · exact .inr rfl
    · exact .inl rfl

/-- Settles O55: a changed index hides the last gate, so that a low gate neither rises nor falls (R347). -/
theorem algorithmChangeHidesAFallingEdge : Obligations.AlgorithmChangeHidesAFallingEdge := by
  unfold Obligations.AlgorithmChangeHidesAFallingEdge
  intro s hturn hphase hchange hlow hdrone
  have hgate : tickGate s = false := by rw [tickGate, hlow, hdrone]; rfl
  have hlast : seenLastGate s = false := by rw [seenLastGate, decide_eq_false hchange, Bool.and_false]
  obtain ⟨hv, -, -, hegate⟩ := tickBody_voice Config.cfg s
  obtain ⟨hvgate, hegate', hvel, -⟩ := tickControl_gates Config.cfg s
  obtain ⟨-, hlastGate, -⟩ := tickBody_tickRegs Config.cfg s
  have hrises : gateRises s = false := by rw [gateRises, hgate]; rfl
  have hfalls : gateFalls s = false := by rw [gateFalls, hlast, Bool.and_false]
  simp only [hrises, hfalls, Bool.false_eq_true, if_false] at hvgate hegate' hvel
  refine ⟨_, exec_tick_body hturn hphase, ?_, ?_, ?_, hlastGate.trans hgate⟩
  · rw [hv]; exact hvgate
  · rw [hegate]; exact hegate'
  · rw [hv]; exact hvel

/-- Settles O56: a changed index hides the last gate, so that a high gate rises: V.NOTEON fires. -/
theorem algorithmChangeRetriggersAHeldNote : Obligations.AlgorithmChangeRetriggersAHeldNote := by
  unfold Obligations.AlgorithmChangeRetriggersAHeldNote
  rintro s c rfl hturn hphase hchange hhigh
  have hgate : tickGate s = true := Bool.or_eq_true _ _ ▸ hhigh
  have hlast : seenLastGate s = false := by rw [seenLastGate, decide_eq_false hchange, Bool.and_false]
  have hrises : gateRises s = true := by rw [gateRises, hgate, hlast]; rfl
  obtain ⟨hphase0, hfm, hlevel, hactive, hrev, hplaying⟩ := tickControl_of_rises Config.cfg hrises
  obtain ⟨hphase1, -⟩ := tickControl_phases Config.cfg s
  rw [if_neg hchange] at hphase1
  have hsin : (tickControl Config.cfg s).sin = ⟨fZero, fZero⟩ := by
    calc (tickControl Config.cfg s).sin
        = ⟨(tickControl Config.cfg s).sin.phase0, (tickControl Config.cfg s).sin.phase1⟩ := rfl
      _ = ⟨fZero, fZero⟩ := by rw [hphase0, hphase1]
  obtain ⟨hv, -, -, hegate⟩ := tickBody_voice Config.cfg s
  obtain ⟨hvgate, hegate', hvel, -⟩ := tickControl_gates Config.cfg s
  obtain ⟨-, hlastGate, -⟩ := tickBody_tickRegs Config.cfg s
  rw [if_pos hrises] at hvgate hegate' hvel
  refine ⟨hfm, hsin, hlevel, hactive, hrev, hplaying, _, exec_tick_body hturn hphase, ?_, ?_, ?_,
    hlastGate.trans hgate, tickBody_audioOut Config.cfg s⟩
  · rw [hv]; exact hvgate
  · rw [hegate]; exact hegate'
  · rw [hv]; exact hvel

end Sys2Proof.Proofs
end

section
/-! SUPPORT. The modes of a tick (46_task_scheduler_fifo R352 to R355, 70_reset_and_hazards R446): the state before
each frame in each mode, the bound of a finished sample, the first tick after reset, and the five statements
about them. -/

namespace Sys2Proof.Machine

/-! ## Self-test (R353) -/

/-- The phase of the square wave before frame `k` of a block that starts at `ph`. -/
def squarePhase (c : Cfg) (ph : F32) (k : Nat) : F32 := Nat.iterate (fun a => advance c a c.selftestHz) k ph

theorem squarePhase_succ (c : Cfg) (ph : F32) (k : Nat) :
    squarePhase c ph (k + 1) = advance c (squarePhase c ph k) c.selftestHz :=
  Function.iterate_succ_apply' _ k ph

/-- In self-test mode the frames move the square wave's phase, and raise a flag at most. -/
theorem frameState_of_selftest {c : Cfg} {s : State} (h : s.t.cur.algorithm = c.idxSelftest) (k : Nat) :
    ∃ b, frameState c s k = { tickControl c s with
      t := { (tickControl c s).t with sqPhase := squarePhase c (tickControl c s).t.sqPhase k }
      fault := { (tickControl c s).fault with nonfinite := (tickControl c s).fault.nonfinite || b } } := by
  induction k with
  | zero => exact ⟨false, by simp [squarePhase]⟩
  | succ k ih =>
    obtain ⟨b, hstate⟩ := ih
    have hmode : (frameState c s k).t.cur.algorithm = c.idxSelftest := by rw [frameState_cur, h]
    rw [frameState_succ, tickFrame_of_selftest hmode, hstate, squarePhase_succ]
    exact ⟨_, by simp only [selftestFrame, State.flagNonfinite, Bool.or_assoc]; rfl⟩

/-! ## Calibration tone (R354) -/

theorem sinStep_one (c : Cfg) (freq : F32) (s : State) :
    sinStep c 1 freq s = (sineSample c s.sin.phase1, { s with
      sin := { s.sin with phase1 := advance c s.sin.phase1 freq }
      fault := { s.fault with nonfinite := s.fault.nonfinite || advanceFlags c s.sin.phase1 freq } }) := by
  simp [sinStep, State.flagNonfinite]

/-- The phase of sine 1 before frame `k` of a block that starts at `ph`. -/
def tonePhase (c : Cfg) (freq ph : F32) (k : Nat) : F32 := Nat.iterate (fun a => advance c a freq) k ph

theorem tonePhase_succ (c : Cfg) (freq ph : F32) (k : Nat) :
    tonePhase c freq ph (k + 1) = advance c (tonePhase c freq ph k) freq :=
  Function.iterate_succ_apply' _ k ph

/-- In calibration-tone mode the frames move the phase of sine 1, and raise a flag at most. -/
theorem frameState_of_caltone {c : Cfg} {s : State} (h : s.t.cur.algorithm = c.idxCaltone) (k : Nat) :
    ∃ b, frameState c s k = { tickControl c s with
      sin := { (tickControl c s).sin with
        phase1 := tonePhase c (tickControl c s).v.freq (tickControl c s).sin.phase1 k }
      fault := { (tickControl c s).fault with nonfinite := (tickControl c s).fault.nonfinite || b } } := by
  induction k with
  | zero => exact ⟨false, by simp [tonePhase]⟩
  | succ k ih =>
    obtain ⟨b, hstate⟩ := ih
    have hmode : (frameState c s k).t.cur.algorithm = c.idxCaltone := by rw [frameState_cur, h]
    rw [frameState_succ, tickFrame_of_caltone hmode, hstate, tonePhase_succ]
    exact ⟨_, by simp only [caltoneFrame, sinStep_one, Bool.or_assoc]; rfl⟩

/-! ## The finished sample (R355) -/

theorem finite_of_withinGuard {c : Cfg} {x : F32} (h : withinGuard c x = true) : isFinite x = true := by
  rw [withinGuard, Bool.and_eq_true] at h
  obtain ⟨hlo, hhi⟩ := h
  obtain ⟨hfinite, -⟩ := c.guard_pos
  obtain ⟨hlower, -⟩ := fkey_of_finite (isFinite_fneg hfinite)
  obtain ⟨-, hupper⟩ := fkey_of_finite hfinite
  obtain ⟨-, -, hlo⟩ := fle_iff.1 hlo
  obtain ⟨-, -, hhi⟩ := fle_iff.1 hhi
  simp only [isFinite, decide_eq_true_eq]
  rcases fkey_cases x with ⟨-, hkey⟩ | ⟨-, hkey⟩ <;> omega

/-- What is guarded is finite, so that the soft clip never sees a NaN. -/
theorem finish_signal (c : Cfg) (x : F32) : inSignal (finish c x) := by
  have hguarded : isFinite (if withinGuard c x then x else fZero) = true := by
    split
    next h => exact finite_of_withinGuard h
    next => decide
  obtain ⟨n, -, hn⟩ := c.num.fmul_rounds (c.preclip (if withinGuard c x then x else fZero)) c.preGain
  obtain ⟨hnan, -⟩ := n.fmul_finite (c.preclip_finite _ hguarded) c.preGain_finite
  rw [← hn] at hnan
  exact c.num.tanh_bound _ hnan

theorem withinGuard_iff (c : Cfg) (x : F32) :
    withinGuard c x = true ↔ fle (fneg c.guard) x = true ∧ fle x c.guard = true :=
  Bool.and_eq_true_iff

theorem finish_eq (c : Cfg) (x : F32) : finish c x = c.num.tanh (c.num.fmul
    (c.preclip (if fle (fneg c.guard) x = true ∧ fle x c.guard = true then x else fZero)) c.preGain) := by
  rw [finish, if_congr (withinGuard_iff c x) rfl rfl]

theorem normalFrame_samples (c : Cfg) (s : State) :
    (normalFrame c s).1 = (finish c (vProc c s).1.1, finish c (vProc c s).1.2) := rfl

/-- In normal mode the state before the next frame is what V.PROC leaves, with the guard's flag. -/
theorem frameState_succ_of_normal {c : Cfg} {s : State} (hself : s.t.cur.algorithm ≠ c.idxSelftest)
    (hcal : s.t.cur.algorithm ≠ c.idxCaltone) (k : Nat) :
    frameState c s (k + 1) = (normalFrame c (frameState c s k)).2 := by
  rw [← frameState_cur c s k] at hself hcal
  rw [frameState_succ, tickFrame_of_normal hself hcal]

/-- A frame of a block in normal mode is finished from the state before it. -/
theorem tickBlock_of_normal {c : Cfg} {s : State} (hself : s.t.cur.algorithm ≠ c.idxSelftest)
    (hcal : s.t.cur.algorithm ≠ c.idxCaltone) {k : Nat} {f : Frame} (h : (tickBlock c s)[k]? = some f) :
    f = (finish c (vProc c (frameState c s k)).1.1, finish c (vProc c (frameState c s k)).1.2) := by
  rw [← frameState_cur c s k] at hself hcal
  rw [tickFrames_block c s h, tickFrame_of_normal hself hcal, normalFrame_samples]

/-! ## The first tick after reset (70_reset_and_hazards R446) -/

theorem isFinite_of_mag_zero {a : F32} (h : fmag a = 0) : isFinite a = true := by
  rw [isFinite, h]; decide

/-- A normal datum whose value a rounded quantity reaches is not above it, as nothing is flushed. -/
theorem fmag_le_roundPack (mode : Rounding) (f : Subnormals) (s : Bool) {a : F32} {num den : Nat}
    (hden : 0 < den) (ha : isFinite a = true) (hnormal : 2 ^ 23 ≤ fmag a) (h : funits a * den ≤ num) :
    fmag a ≤ fmag (roundPack mode f s num den) := by
  have hle := le_roundedMag mode s a hden h
  have hnum : 2 ^ 23 * den ≤ num := by
    have hleast : funits 0x00800000#32 = 2 ^ 23 ∧ fmag 0x00800000#32 = 2 ^ 23 := by decide
    have hunits := funits_le_of_fmag_le (hleast.2.le.trans hnormal)
    rw [hleast.1] at hunits
    exact (Nat.mul_le_mul_right _ hunits).trans h
  simp only [isFinite, decide_eq_true_eq] at ha
  simp only [roundPack, Subnormals.replaces_eq_false (.inr ⟨hnum, hnormal.trans hle⟩), finishRound,
    Bool.false_eq_true, if_false]
  generalize roundedMag mode s num den = m at hle
  split
  next => split <;> rw [fmag_fpack _ (by decide)] <;> omega
  next => rw [fmag_fpack _ (by omega)]; exact hle

/-- NYQ is not below a normal number whose double the sample rate reaches. -/
theorem le_nyq (c : Cfg) {a : F32} (ha : isFinite a = true) (h0 : fle fZero a = true)
    (hnormal : 2 ^ 23 ≤ fmag a) (hhalf : 2 * fvalue a ≤ fvalue c.sampleRate) : fle a c.nyq = true := by
  obtain ⟨hrate, hpositive⟩ := c.sampleRate_pos
  obtain ⟨-, hsign, -⟩ := posFinite_iff.1 c.sampleRate_pos
  rw [fvalue_of_nonneg h0, fvalue_of_nonneg (fle_of_flt hpositive)] at hhalf
  have hmag : fmag a ≤ fmag c.sampleRate := funits_le_iff.1 (by omega)
  obtain ⟨n, -, hn⟩ := c.num.fmul_rounds c.sampleRate fHalf
  have hkeeps : n.operand c.sampleRate = c.sampleRate := operand_keeps n (.inr (hnormal.trans hmag))
  have hkeeps' : n.operand fHalf = fHalf := operand_keeps n (.inr (by decide))
  have hproduct : c.nyq =
      roundPack n.rounding n.results false (funits c.sampleRate * funits fHalf) (2 ^ 149) := by
    have hzero : (isZero c.sampleRate || isZero fHalf) = false := by
      have : isZero c.sampleRate = false := decide_eq_false (by omega)
      rw [this]; decide
    have hsigns : (fsign c.sampleRate != fsign fHalf) = false := by rw [hsign]; decide
    rw [Cfg.nyq, hn, fmul_eq n hrate (by decide), hkeeps, hkeeps', n.product?_finite hrate (by decide), hzero,
      if_neg Bool.false_ne_true, hsigns, Option.getD_some]
  refine fle_of_mag (isNaN_of_isFinite ha) (nyq_nonneg c) ?_
  rw [hproduct]
  have hunits : funits fHalf = 2 ^ 148 := by decide
  exact fmag_le_roundPack _ _ _ (by positivity) ha hnormal (by rw [hunits]; omega)

theorem fmul_mag_zero (c : Cfg) {a b : F32} (ha : isFinite a = true) (hb : isFinite b = true)
    (h : fmag a = 0 ∨ fmag b = 0) : fmag (c.num.fmul a b) = 0 := by
  obtain ⟨n, -, hn⟩ := c.num.fmul_rounds a b
  rw [hn]
  exact fmul_zero_mag n ha hb h

theorem sum?_of_zeros (n : Arithmetic) {a b : F32} (ha : fmag a = 0) (hb : fmag b = 0) :
    n.sum? a b = some (n.zeroSum (fsign a) (fsign b)) := by
  rw [sum?_eq n (isFinite_of_mag_zero ha) (isFinite_of_mag_zero hb), fvalue_of_mag_zero ha,
    fvalue_of_mag_zero hb]
  rfl

theorem fadd_mag_zero (c : Cfg) {a b : F32} (ha : fmag a = 0) (hb : fmag b = 0) :
    fmag (c.num.fadd a b) = 0 := by
  obtain ⟨n, -, hn⟩ := c.num.fadd_rounds a b
  rw [hn, Arithmetic.fadd, Arithmetic.complete, isNaN_of_isFinite (isFinite_of_mag_zero ha),
    isNaN_of_isFinite (isFinite_of_mag_zero hb), Bool.or_self, if_neg Bool.false_ne_true, n.operand_zero ha,
    n.operand_zero hb, sum?_of_zeros n ha hb, Option.getD_some]
  exact zeroSum_mag _ _ _

theorem fsub_mag_zero (c : Cfg) {a b : F32} (ha : fmag a = 0) (hb : fmag b = 0) :
    fmag (c.num.fsub a b) = 0 := by
  obtain ⟨n, -, hn⟩ := c.num.fsub_rounds a b
  rw [hn, Arithmetic.fsub, Arithmetic.complete, isNaN_of_isFinite (isFinite_of_mag_zero ha),
    isNaN_of_isFinite (isFinite_of_mag_zero hb), Bool.or_self, if_neg Bool.false_ne_true, n.operand_zero ha,
    n.operand_zero hb, sum?_of_zeros n ha ((fmag_fneg b).trans hb), Option.getD_some]
  exact zeroSum_mag _ _ _

/-- An operand of at least 0.0 is seen with a value from 0 to its own. -/
theorem operand_fvalue (n : Arithmetic) {a : F32} (h : fle fZero a = true) :
    0 ≤ fvalue (n.operand a) ∧ fvalue (n.operand a) ≤ funits a := by
  have hunits : funits (n.operand a) ≤ funits a := funits_le_of_fmag_le (n.operand_mag_le a)
  have hvalue : fvalue (n.operand a) = funits (n.operand a) := by
    rcases (fle_zero_iff.1 h).2 with hsign | hzero
    · rw [fvalue, n.operand_positive hsign]; rfl
    · rw [n.operand_zero hzero, fvalue_of_nonneg h]
  omega

/-- The difference of two data of at least 0.0 is finite, as it is no larger than the larger of them. -/
theorem fsub_finite (c : Cfg) {a b m : F32} (ha : fle fZero a = true) (hb : fle fZero b = true)
    (hm : isFinite m = true) (ham : fmag a ≤ fmag m) (hbm : fmag b ≤ fmag m) :
    isFinite (c.num.fsub a b) = true := by
  have hfinite (x : F32) (h : fmag x ≤ fmag m) : isFinite x = true := by
    simp only [isFinite, decide_eq_true_eq] at hm ⊢; omega
  obtain ⟨n, -, hn⟩ := c.num.fsub_rounds a b
  have haf := n.operand_finite (hfinite a ham)
  have hbf := isFinite_fneg (n.operand_finite (hfinite b hbm))
  rw [hn, Arithmetic.fsub, Arithmetic.complete, isNaN_of_isFinite (hfinite a ham),
    isNaN_of_isFinite (hfinite b hbm), Bool.or_self, if_neg Bool.false_ne_true, sum?_eq n haf hbf, fvalue_fneg]
  obtain ⟨ha0, ha1⟩ := operand_fvalue n ha
  obtain ⟨hb0, hb1⟩ := operand_fvalue n hb
  have ham := funits_le_of_fmag_le ham
  have hbm := funits_le_of_fmag_le hbm
  split
  · rw [Option.getD_some]; exact zeroSum_finite _ _ _
  · rw [Option.getD_some]
    exact hfinite _ ((roundPack_mag_le _ _ _ _ _).trans (roundedMag_le _ _ m (by decide) (by omega)))

/-- The state in which the first tick after reset, no snapshot written, reaches its body. -/
def firstTick (c : Cfg) (inp : Inputs) (n : Nat) : State := tickFirst (State.resetWith c inp n)

theorem firstTick_cur (c : Cfg) (inp : Inputs) (n : Nat) : (firstTick c inp n).t.cur = zeroSnapshot := rfl

theorem firstTick_rises (c : Cfg) (inp : Inputs) (n : Nat) :
    tickGate (firstTick c inp n) = true ∧ gateRises (firstTick c inp n) = true := by
  have hdrone : drone zeroSnapshot = true := by decide
  have hgate : tickGate (firstTick c inp n) = true := by
    rw [tickGate, firstTick_cur, hdrone, Bool.or_true]
  have hlast : seenLastGate (firstTick c inp n) = false := rfl
  exact ⟨hgate, by rw [gateRises, hgate, hlast]; rfl⟩

theorem clamp01_mag_zero {x : F32} (h : fmag x = 0) : fmag (clamp01 x) = 0 := by
  rw [← fpack_self x, h]
  cases fsign x <;> decide

/-- The controls of the zero snapshot blend to a zero. -/
theorem pitchBlend_zero (c : Cfg) : fmag (pitchBlend c zeroSnapshot) = 0 := by
  obtain ⟨hweight, hweight'⟩ := c.pitchCvWeight_range
  have hone : fle fZero fOne = true := by decide
  have hrest : isFinite (c.num.fsub fOne c.pitchCvWeight) = true :=
    fsub_finite c hone hweight (m := fOne) (by decide) le_rfl (mag_of_fle hweight hweight')
  have hfinite := inSignal_finite (unitRange_signal c.pitchCvWeight_range)
  exact clamp01_mag_zero (fadd_mag_zero c (fmul_mag_zero c hfinite (by decide) (.inr (by decide)))
    (fmul_mag_zero c hrest (by decide) (.inr (by decide))))

/-- With cleared delays and the reset coefficients a zero is smoothed to a zero. -/
theorem firstTick_smoothed (c : Cfg) (inp : Inputs) (n : Nat) :
    fmag (bqStep c (pitchBlend c zeroSnapshot) (firstTick c inp n)).1 = 0 := by
  obtain ⟨hsmooth, hsmooth'⟩ := c.pitchSmooth_range
  have hmag : fmag c.pitchSmooth ≤ fmag fOne := mag_of_fle hsmooth (fle_of_flt hsmooth')
  have hzero : fle fZero fZero = true ∧ fle fZero fOne = true := by decide
  have hb0 : isFinite (c.num.fsub fOne c.pitchSmooth) = true :=
    fsub_finite c hzero.2 hsmooth (m := fOne) (by decide) le_rfl hmag
  have ha1 : isFinite (c.num.fsub fZero c.pitchSmooth) = true :=
    fsub_finite c hzero.1 hsmooth (m := fOne) (by decide) (by decide) hmag
  have hblend := pitchBlend_zero c
  have hdelay : isFinite fZero = true ∧ fmag fZero = 0 := by decide
  have hterm : fmag (c.num.fmul fZero fZero) = 0 := fmul_mag_zero c hdelay.1 hdelay.1 (.inl hdelay.2)
  have hacc : fmag (bqAcc c (firstTick c inp n).bq (pitchBlend c zeroSnapshot)) = 0 :=
    fsub_mag_zero c (fsub_mag_zero c (fadd_mag_zero c (fadd_mag_zero c
      (fmul_mag_zero c hb0 (isFinite_of_mag_zero hblend) (.inr hblend)) hterm) hterm)
      (fmul_mag_zero c ha1 hdelay.1 (.inr hdelay.2))) hterm
  rw [bqStep_of_finite (isFinite_of_mag_zero hacc)]
  exact hacc

/-- A smoothed control of zero is mapped to PITCH_MIN_HZ, where that is a normal number. -/
theorem pitchMap_zero (c : Cfg) {sm : F32} (hsm : fmag sm = 0) (hnormal : 2 ^ 23 ≤ fmag c.pitchMinHz) :
    pitchMap c sm = c.pitchMinHz := by
  obtain ⟨hmin, hle, hmax, -⟩ := c.pitch_range
  have hmag := mag_of_fle hmin hle
  have hminf : isFinite c.pitchMinHz = true := by
    simp only [isFinite, decide_eq_true_eq] at hmax ⊢; omega
  have hspan : isFinite (c.num.fsub c.pitchMaxHz c.pitchMinHz) = true :=
    fsub_finite c (fle_trans hmin hle) hmin hmax le_rfl hmag
  have hterm := fmul_mag_zero c (isFinite_of_mag_zero hsm) hspan (.inl hsm)
  obtain ⟨n, -, hn⟩ := c.num.fadd_rounds c.pitchMinHz (c.num.fmul sm (c.num.fsub c.pitchMaxHz c.pitchMinHz))
  rw [pitchMap, hn]
  exact fadd_zero n hminf hnormal hterm

theorem firstTick_freq (c : Cfg) (inp : Inputs) (n : Nat) (hnormal : 2 ^ 23 ≤ fmag c.pitchMinHz) :
    clamp (pitchMap c (bqStep c (pitchBlend c (firstTick c inp n).t.cur) (firstTick c inp n)).1) fZero c.nyq =
      c.pitchMinHz := by
  obtain ⟨hmin, hle, hmax, hhalf⟩ := c.pitch_range
  have hminf : isFinite c.pitchMinHz = true := by
    have hmag := mag_of_fle hmin hle
    simp only [isFinite, decide_eq_true_eq] at hmax ⊢; omega
  have hvalue := (fle_iff_fvalue hminf hmax).1 hle
  rw [firstTick_cur, pitchMap_zero c (firstTick_smoothed c inp n) hnormal]
  exact clamp_of_range hmin (le_nyq c hminf hmin hnormal (by omega))

/-- A held note is held through the block. -/
theorem frameState_held {c : Cfg} {s : State} (h : (tickControl c s).Held) (k : Nat) :
    (frameState c s k).Held := by
  induction k with
  | zero => exact h
  | succ k ih => rw [frameState_succ]; exact tickFrame_held c ih

end Sys2Proof.Machine

namespace Sys2Proof.Proofs

open Sys2Proof Sys2Proof.Machine

/-- Settles O51: every frame is of the state that `frameState_of_selftest` gives, and the block ends there. -/
theorem selftestEmitsTheSquareWave : Obligations.SelftestEmitsTheSquareWave := by
  unfold Obligations.SelftestEmitsTheSquareWave
  rintro s c rfl hturn hphase hself
  intro ph
  obtain ⟨-, hstart⟩ := tickControl_phases Config.cfg s
  have hph (k : Nat) : squarePhase Config.cfg (tickControl Config.cfg s).t.sqPhase k = ph k := by rw [hstart]; rfl
  obtain ⟨b, hlast⟩ := frameState_of_selftest hself Config.cfg.blockFrames
  rw [hph] at hlast
  have hbusy := tickBody_gateOut Config.cfg s
  rw [if_pos hself] at hbusy
  refine ⟨_, tickBlock Config.cfg s, exec_tick_body hturn hphase, tickBody_audioOut _ _, tickBlock_length _ _,
    fun k f hf => ?frame, ?_, hbusy, ?_⟩
  case frame =>
    obtain ⟨b, hstate⟩ := frameState_of_selftest hself k
    have hmode : (frameState Config.cfg s k).t.cur.algorithm = Config.cfg.idxSelftest := by
      rw [frameState_cur, hself]
    rw [tickFrames_block Config.cfg s hf, tickFrame_of_selftest hmode, hstate, hph]
    exact ⟨rfl, rfl⟩
  all_goals rw [tickBody_eq, hlast]
  · rfl
  · exact ⟨rfl, rfl, rfl, rfl, rfl, tickControl_guard _ _⟩

/-- Settles O52, as O51: the phase that moves is that of sine 1. -/
theorem caltoneEmitsTheGatedSine : Obligations.CaltoneEmitsTheGatedSine := by
  unfold Obligations.CaltoneEmitsTheGatedSine
  rintro s c rfl hturn hphase hcal
  intro s6 ph
  obtain ⟨hstart, -⟩ := tickControl_phases Config.cfg s
  have hph (k : Nat) : tonePhase Config.cfg s6.v.freq s6.sin.phase1 k = ph k := by
    rw [show s6.sin.phase1 = _ from hstart]; rfl
  obtain ⟨b, hlast⟩ := frameState_of_caltone hcal Config.cfg.blockFrames
  rw [hph] at hlast
  refine ⟨_, tickBlock Config.cfg s, exec_tick_body hturn hphase, tickBody_audioOut _ _, tickBlock_length _ _,
    fun k f hf => ?frame, ?_⟩
  case frame =>
    obtain ⟨b, hstate⟩ := frameState_of_caltone hcal k
    have hmode : (frameState Config.cfg s k).t.cur.algorithm = Config.cfg.idxCaltone := by
      rw [frameState_cur, hcal]
    rw [tickFrames_block Config.cfg s hf, tickFrame_of_caltone hmode, hstate, hph, caltoneFrame, sinStep_one]
    exact ⟨rfl, rfl⟩
  have hbusy := tickBody_gateOut Config.cfg s
  rw [if_neg (hcal ▸ Config.cfg.idx_ne.symm), if_pos hcal] at hbusy
  rw [hbusy, tickBody_eq, hlast]
  exact ⟨rfl, rfl, rfl, rfl, rfl, rfl, tickControl_guard _ _⟩

/-- Settles O53: `finish` is R355's and answers a signal (`finish_signal`), and every frame of a normal block is
finished. -/
theorem normalBlocksAreBounded : Obligations.NormalBlocksAreBounded := by
  unfold Obligations.NormalBlocksAreBounded
  refine ⟨fun c x => ⟨finish_eq c x, finish_signal c x⟩, ?_⟩
  rintro s c rfl hturn hphase hself hcal
  refine ⟨_, tickBlock Config.cfg s, exec_tick_body hturn hphase, tickBody_audioOut _ _, tickBlock_length _ _,
    fun f hf => ?_⟩
  obtain ⟨k, hk⟩ := List.mem_iff_getElem?.1 hf
  rw [tickBlock_of_normal hself hcal hk]
  exact ⟨finish_signal _ _, finish_signal _ _⟩

/-- Settles O54: the frames are `tickBlock_of_normal`, the states between them those of `normalFrame`, and the
body closes on the last. -/
theorem normalFramesAreFinishedVoiceFrames : Obligations.NormalFramesAreFinishedVoiceFrames := by
  unfold Obligations.NormalFramesAreFinishedVoiceFrames
  rintro s c rfl hturn hphase hself hcal
  intro bad u
  refine ⟨_, tickBlock Config.cfg s, exec_tick_body hturn hphase, tickBody_audioOut _ _, tickBlock_length _ _,
    fun k f hf => tickBlock_of_normal hself hcal hf, rfl, frameState_succ_of_normal hself hcal, ?last⟩
  rw [tickBody_eq]
  exact ⟨rfl, rfl, rfl, rfl, rfl, rfl⟩

/-- Settles O57: the zero snapshot drones, so the gate rises; the smoother answers a zero, which the map takes to
PITCH_MIN_HZ; and a held note outlasts the block in every mode. -/
theorem firstTickAfterResetDrones : Obligations.FirstTickAfterResetDrones := by
  unfold Obligations.FirstTickAfterResetDrones
  intro c inp n hnormal
  obtain ⟨hgate, hrises⟩ := firstTick_rises c inp n
  obtain ⟨hv, -, -, henv⟩ := tickBody_voice c (firstTick c inp n)
  obtain ⟨hvgate, hegate, hvel, -⟩ := tickControl_gates c (firstTick c inp n)
  obtain ⟨-, hmg, -, -, -, -, hfreq⟩ := tickControl_settings c (firstTick c inp n)
  obtain ⟨-, hlastGate, -⟩ := tickBody_tickRegs c (firstTick c inp n)
  obtain ⟨-, -, -, -, -, hplaying⟩ := tickControl_of_rises c hrises
  rw [if_pos hrises] at hvgate hegate hvel
  have hgate' : (tickBody c (firstTick c inp n)).v.gate = true := by rw [hv]; exact hvgate
  have hplays : (tickBody c (firstTick c inp n)).v.playing = true := by
    rw [tickBody_playing]
    exact (frameState_held ⟨hplaying, hegate⟩ c.blockFrames).1
  intro t
  have ht : t = tickBody c (firstTick c inp n) := rfl
  rw [ht]
  refine ⟨?freq, ?gain, ?velocity, hgate', hplays, henv.trans hegate, hlastGate.trans hgate, ?busy⟩
  case freq => rw [hv]; exact hfreq.trans (firstTick_freq c inp n hnormal)
  case gain =>
    have hzero : clamp01 fZero = fZero := by decide
    rw [hv]
    exact hmg.trans hzero
  case velocity => rw [hv]; exact hvel
  case busy => rw [tickBody_gateOut, hgate', hplays, ite_self, ite_self, Bool.not_true]

end Sys2Proof.Proofs
end
